-- ==== Sys2Proof/Word.lean ====
section
/-! DEFINITION. The words of the Huffman coding engine: the widths of spec/00_scope.md rule R6 and the entries of the
memories NODE and CODE (spec/10_state.md rules R55, R56, R58).

The counter width CW is a parameter (8, 16, 32 or 64). A value of CW bits is kept in 64 bits, a value of WW = CW + 8
bits in 72 bits and a response of RW bits in 72 bits: the widest each can be. Every write narrows to the width the
machine has (`Machine/Operands.lean`), and `Safety.lean` states that the bits above it are 0. -/

namespace Sys2Proof

/-- A byte, and a symbol: "one possible byte value, 0–255" (R6, SYMW). -/
abbrev Byte := BitVec 8

/-- A command word, CMDW = 32 bits (R110). -/
abbrev CommandWord := BitVec 32

/-- The sideband operand W: CW bits, kept in 64 (R112). -/
abbrev Sideband := BitVec 64

/-- A frequency counter: CW bits, kept in 64 (R54). -/
abbrev Count := BitVec 64

/-- A node weight, TOTAL or EMITTED: WW = CW + 8 bits, kept in 72 (R6). -/
abbrev Weight := BitVec 72

/-- A node index or a heap slot, NIW = 9 bits (R6). -/
abbrev Index := BitVec 9

/-- The data field of a response: RW = max(WW, 32) bits, kept in 72 (R114). -/
abbrev Data := BitVec 72

/-- The owner tag of a node (R56). -/
inductive Owner where
  /-- 0: the priority queue; the node is in HEAP. -/
  | q
  /-- 1: the host; PQX returned the node. -/
  | x
  /-- 2: a parent; the node is a child. -/
  | p
  /-- 3: the engine, as the tree's root. -/
  | r
  deriving DecidableEq, Repr, Inhabited

/-- What a node is (R55: "A model may represent an entry as a sum type"). -/
inductive Kind where
  /-- A Leaf with its symbol. -/
  | leaf (sym : Byte)
  /-- An Internal node with its left and right child. -/
  | internal (l r : Index)
  deriving DecidableEq, Repr, Inhabited

/-- One entry of the node arena (R55), the owner tag beside the node. -/
structure Node where
  kind : Kind
  w : Weight
  own : Owner
  deriving DecidableEq, Repr, Inhabited

/-- One entry of the code table (R58): `len` = 0 means no entry; the code's first bit is bit `len - 1` of `val`. -/
structure Code where
  len : BitVec 8
  val : BitVec 255
  deriving DecidableEq, Repr, Inhabited

/-- The entry of a symbol without a code (R58, R67). -/
def Code.none : Code := ⟨0, 0⟩

end Sys2Proof
end

