-- ==== Sys2Proof/Syntax.lean ====
section
/-! DEFINITION. The 24 commands of spec/30_encoding.md rule R117, one constructor per row of spec/opcode_table.json.
An operand of the sideband channel (`LDF`'s count, `RDCB`'s slice number, rule R112) is an argument of its command. -/

namespace Sys2Proof

/-- A command. Operands are the unsigned fields of rule R113: a symbol, byte or register number A[7:0], a node index or
heap slot A[8:0], a bit A[0]; `w` and `k` are W. -/
inductive Instr where
  /-- R141 -/
  | nop
  /-- R142 -/
  | clr
  /-- R143 -/
  | ldf (a : Byte) (w : Sideband)
  /-- R144 -/
  | cnt (a : Byte)
  /-- R145 -/
  | rdf (a : Byte)
  /-- R146 -/
  | rds (r : Byte)
  /-- R166 -/
  | pqi (n : Index)
  /-- R167 -/
  | pqx
  /-- R168 -/
  | rdh (i : Index)
  /-- R181 -/
  | mkl
  /-- R182 -/
  | mrg
  /-- R183 -/
  | fin
  /-- R184 -/
  | bld
  /-- R185 -/
  | rdnw (n : Index)
  /-- R186 -/
  | rdnl (n : Index)
  /-- R201 -/
  | gen
  /-- R206 -/
  | rdc (a : Byte)
  /-- R207 -/
  | rdcb (a : Byte) (k : Sideband)
  /-- R216 -/
  | enc (a : Byte)
  /-- R217 -/
  | efl
  /-- R232 -/
  | dst
  /-- R233 -/
  | dbt (b : Bool)
  /-- R234 -/
  | dby (a : Byte)
  /-- R235 -/
  | den
  deriving DecidableEq, Repr

end Sys2Proof
end

