-- ==== Sys2Proof/WellFormed.lean ====
section
/-! DEFINITION. Which commands are legal once their word matches a row of the opcode table: the two operand limits of
spec/30_encoding.md rule R118. -/

namespace Sys2Proof

/-- "RDS with A[7:0] above 12" and "RDCB with W above 7" are illegal (R118); every other command with operands of the
right widths is legal. -/
def Instr.wellFormed : Instr → Bool
  | .rds r => r.toNat ≤ 12
  | .rdcb _ k => k.toNat ≤ 7
  | .nop | .clr | .ldf _ _ | .cnt _ | .rdf _ | .pqi _ | .pqx | .rdh _ | .mkl | .mrg | .fin | .bld | .rdnw _ | .rdnl _
  | .gen | .rdc _ | .enc _ | .efl | .dst | .dbt _ | .dby _ | .den => true

end Sys2Proof
end

