-- ==== Sys2Proof/Decode.lean ====
section
/-! DEFINITION. Decoding and encoding of a command: a 32-bit word and the sideband operand W (spec/30_encoding.md rules
R110 to R120). Decoding is total and rejects by name. -/

namespace Sys2Proof

/-- Why a command is illegal (R118). -/
inductive DecodeError where
  /-- OP is no row of the opcode table (R119). -/
  | unknownOpcode (op : Byte)
  /-- The field Z is not 0. -/
  | reservedZ
  /-- A bit of A that carries no operand in the command's format is not 0 (R111). -/
  | reservedA
  /-- RDS of a register number above 12. -/
  | reservedRegister (r : Byte)
  /-- RDCB with a slice number above 7. -/
  | reservedSlice (k : Sideband)
  deriving DecidableEq, Repr

/-- OP, bits 31:24 (R110). -/
def opField (word : CommandWord) : Byte := word.extractLsb' 24 8

/-- Z, bits 23:16 (R110). -/
def zField (word : CommandWord) : Byte := word.extractLsb' 16 8

/-- A, bits 15:0 (R110). -/
def aField (word : CommandWord) : BitVec 16 := word.extractLsb' 0 16

/-- Format Z: no operand, A[15:0] must be 0 (R111). -/
def formatZ (a : BitVec 16) (i : Instr) : Except DecodeError Instr :=
  if a = 0 then .ok i else .error .reservedA

/-- Formats S and SW: the operand A[7:0], A[15:8] must be 0 (R111). -/
def formatS (a : BitVec 16) (mk : Byte → Instr) : Except DecodeError Instr :=
  if a.extractLsb' 8 8 = 0 then .ok (mk (a.extractLsb' 0 8)) else .error .reservedA

/-- Format N: the operand A[8:0], A[15:9] must be 0 (R111). -/
def formatN (a : BitVec 16) (mk : Index → Instr) : Except DecodeError Instr :=
  if a.extractLsb' 9 7 = 0 then .ok (mk (a.extractLsb' 0 9)) else .error .reservedA

/-- Format B: the operand A[0], A[15:1] must be 0 (R111). -/
def formatB (a : BitVec 16) (mk : Bool → Instr) : Except DecodeError Instr :=
  if a.extractLsb' 1 15 = 0 then .ok (mk (a.getLsbD 0)) else .error .reservedA

/-- The opcode map of R117, before the operand limits. `w` is the sideband operand, which only LDF and RDCB read
(R112). -/
def decodeRow (op : Byte) (a : BitVec 16) (w : Sideband) : Except DecodeError Instr :=
  match op.toNat with
  | 0x00 => formatZ a .nop
  | 0x01 => formatZ a .clr
  | 0x02 => formatS a (fun s => .ldf s w)
  | 0x03 => formatS a .cnt
  | 0x04 => formatS a .rdf
  | 0x05 => formatS a .rds
  | 0x10 => formatN a .pqi
  | 0x11 => formatZ a .pqx
  | 0x12 => formatN a .rdh
  | 0x20 => formatZ a .mkl
  | 0x21 => formatZ a .mrg
  | 0x22 => formatZ a .fin
  | 0x23 => formatZ a .bld
  | 0x24 => formatN a .rdnw
  | 0x25 => formatN a .rdnl
  | 0x30 => formatZ a .gen
  | 0x31 => formatS a .rdc
  | 0x32 => formatS a (fun s => .rdcb s w)
  | 0x40 => formatS a .enc
  | 0x41 => formatZ a .efl
  | 0x50 => formatZ a .dst
  | 0x51 => formatB a .dbt
  | 0x52 => formatS a .dby
  | 0x53 => formatZ a .den
  | _ => .error (.unknownOpcode op)

/-- The operand limits of R118. -/
def checkOperand (i : Instr) : Except DecodeError Instr :=
  if i.wellFormed then .ok i
  else match i with
    | .rds r => .error (.reservedRegister r)
    | .rdcb _ k => .error (.reservedSlice k)
    | _ => .error .reservedA

/-- The command that a word and W spell, or why they spell none (R118). -/
def decode (word : CommandWord) (w : Sideband) : Except DecodeError Instr :=
  if zField word = 0 then
    match decodeRow (opField word) (aField word) w with
    | .ok i => checkOperand i
    | .error e => .error e
  else .error .reservedZ

/-- The word {OP, Z = 0, A} (R110): "The word is `(OP << 24) | A`" (R122). -/
def assemble (op : Byte) (a : BitVec 16) : CommandWord := (op.setWidth 32 <<< 24) ||| a.setWidth 32

/-- The field A of an operand of formats S and SW (R111). -/
def fieldS (s : Byte) : BitVec 16 := s.setWidth 16

/-- The field A of an operand of format N (R111). -/
def fieldN (n : Index) : BitVec 16 := n.setWidth 16

/-- The field A of an operand of format B (R111). -/
def fieldB (b : Bool) : BitVec 16 := (BitVec.ofBool b).setWidth 16

/-- The command word of a command (R117). -/
def encodeWord : Instr → CommandWord
  | .nop => assemble 0x00 0
  | .clr => assemble 0x01 0
  | .ldf a _ => assemble 0x02 (fieldS a)
  | .cnt a => assemble 0x03 (fieldS a)
  | .rdf a => assemble 0x04 (fieldS a)
  | .rds r => assemble 0x05 (fieldS r)
  | .pqi n => assemble 0x10 (fieldN n)
  | .pqx => assemble 0x11 0
  | .rdh i => assemble 0x12 (fieldN i)
  | .mkl => assemble 0x20 0
  | .mrg => assemble 0x21 0
  | .fin => assemble 0x22 0
  | .bld => assemble 0x23 0
  | .rdnw n => assemble 0x24 (fieldN n)
  | .rdnl n => assemble 0x25 (fieldN n)
  | .gen => assemble 0x30 0
  | .rdc a => assemble 0x31 (fieldS a)
  | .rdcb a _ => assemble 0x32 (fieldS a)
  | .enc a => assemble 0x40 (fieldS a)
  | .efl => assemble 0x41 0
  | .dst => assemble 0x50 0
  | .dbt b => assemble 0x51 (fieldB b)
  | .dby a => assemble 0x52 (fieldS a)
  | .den => assemble 0x53 0

/-- The sideband operand of a command; 0 where the command has none ("For every other command W is ignored", R112). -/
def encodeSideband : Instr → Sideband
  | .ldf _ w => w
  | .rdcb _ k => k
  | .nop | .clr | .cnt _ | .rdf _ | .rds _ | .pqi _ | .pqx | .rdh _ | .mkl | .mrg | .fin | .bld | .rdnw _ | .rdnl _
  | .gen | .rdc _ | .enc _ | .efl | .dst | .dbt _ | .dby _ | .den => 0

/-- The words of a command: the command word and W. -/
def encode (i : Instr) : CommandWord × Sideband := (encodeWord i, encodeSideband i)

/-- A row of the opcode table of R117: "a word w spells the command when `w & mask = match`". -/
structure TableRow where
  mnemonic : String
  pattern : CommandWord
  mask : CommandWord
  deriving DecidableEq, Repr

/-- The opcode table of R117 as it stands there, kept to be held against `decode`. -/
def opcodeTable : List TableRow :=
  [⟨"NOP", 0x00000000, 0xFFFFFFFF⟩, ⟨"CLR", 0x01000000, 0xFFFFFFFF⟩, ⟨"LDF", 0x02000000, 0xFFFFFF00⟩,
    ⟨"CNT", 0x03000000, 0xFFFFFF00⟩, ⟨"RDF", 0x04000000, 0xFFFFFF00⟩, ⟨"RDS", 0x05000000, 0xFFFFFF00⟩] ++
  [⟨"PQI", 0x10000000, 0xFFFFFE00⟩, ⟨"PQX", 0x11000000, 0xFFFFFFFF⟩, ⟨"RDH", 0x12000000, 0xFFFFFE00⟩] ++
  [⟨"MKL", 0x20000000, 0xFFFFFFFF⟩, ⟨"MRG", 0x21000000, 0xFFFFFFFF⟩, ⟨"FIN", 0x22000000, 0xFFFFFFFF⟩,
    ⟨"BLD", 0x23000000, 0xFFFFFFFF⟩, ⟨"RDNW", 0x24000000, 0xFFFFFE00⟩, ⟨"RDNL", 0x25000000, 0xFFFFFE00⟩] ++
  [⟨"GEN", 0x30000000, 0xFFFFFFFF⟩, ⟨"RDC", 0x31000000, 0xFFFFFF00⟩, ⟨"RDCB", 0x32000000, 0xFFFFFF00⟩] ++
  [⟨"ENC", 0x40000000, 0xFFFFFF00⟩, ⟨"EFL", 0x41000000, 0xFFFFFFFF⟩] ++
  [⟨"DST", 0x50000000, 0xFFFFFFFF⟩, ⟨"DBT", 0x51000000, 0xFFFFFFFE⟩, ⟨"DBY", 0x52000000, 0xFFFFFF00⟩,
    ⟨"DEN", 0x53000000, 0xFFFFFFFF⟩]

/-- The command the decoder reads from a word numbered as spec/opcode_table.json numbers it. The engine has one word
length, 32 bits (R110), and the table's rows hold all of it; W is not in the word (R112) and is taken as 0 here. -/
def decodeTableWord (nbits w : Nat) : Option Instr :=
  match decode (BitVec.ofNat 32 (w % 2 ^ nbits)) 0 with
  | .ok i => some i
  | .error _ => none

end Sys2Proof
end

