-- ==== Sys2Proof/Config.lean ====
section
/-! DEFINITION. What is fixed when an engine is built (spec/00_scope.md rule R6): the open parameters CW and CBO, the
widths and capacities that follow, and the one free value of the model. -/

namespace Sys2Proof

/-- The parameter CW: "one of 8, 16, 32, 64" (R6, decision D4, OPEN). -/
inductive CounterWidth where
  | w8
  | w16
  | w32
  | w64
  deriving DecidableEq, Repr, Inhabited

/-- CW in bits. -/
def CounterWidth.bits : CounterWidth → Nat
  | .w8 => 8
  | .w16 => 16
  | .w32 => 32
  | .w64 => 64

/-- WW = CW + 8 (R6, decision D5). -/
def CounterWidth.weightBits (cw : CounterWidth) : Nat := cw.bits + 8

/-- RW = max(WW, 32) (R6, decision D8). -/
def CounterWidth.dataBits (cw : CounterWidth) : Nat := max cw.weightBits 32

/-- The parameter CBO: the byte order of a counter in the container (R6, R83, decision D6, OPEN). -/
inductive ByteOrder where
  | little
  | big
  deriving DecidableEq, Repr, Inhabited

namespace Config

/-- NSYM, the number of symbols (R6). -/
def nsym : Nat := 256

/-- NCAP, the entries of the node arena (R6, R60). -/
def ncap : Nat := 511

/-- QCAP, the entries of the priority queue (R6, R165). -/
def qcap : Nat := 256

/-- The default of CW, 32 (R6; assumption log 1). -/
def defaultWidth : CounterWidth := .w32

/-- The default of CBO, `little` (R6). -/
def defaultOrder : ByteOrder := .little

/-- FREE VALUE. What the storage of NODE holds at an index at or above NCNT: "any value for NODE entries at or above
NCNT" (spec/93_implementation_defined.md U9, R66). No reachable state reads it; nothing here says what it is
(assumption log 5). -/
opaque staleNode : Nat → Node

end Config

end Sys2Proof
end

