-- ==== Sys2Proof/Machine/State.lean ====
section
/-! DEFINITION. The state of one engine, as plain data (spec/10_state.md rule R30), its reset value (rule R67), and the
reasons the model itself stops.

The state is what R30 lists. NODE and HEAP are lists of their existing entries, so that NCNT and HSZ are their lengths
(R57: "A model may hold it as a list of node indexes of length HSZ"). Two fields are the model's own and stand for the
ports of R31: `inputs`, what the host has still to give, and `sent`, what the engine has given (assumption log 2, 3). -/

namespace Sys2Proof.Machine

/-- A memory addressed by entry index (R80): the entries that differ from the memory's blank entry, by rising index.
The canonical form is `Memory.wf`. -/
abbrev Memory (α : Type) := List (Nat × α)

/-- The seven faults of spec/60_exceptions.md rule R270. -/
inductive FaultCode where
  /-- 8, E_ILL (R271) -/
  | ill
  /-- 9, E_SEQ (R272) -/
  | seq
  /-- 10, E_OVF (R273) -/
  | ovf
  /-- 11, E_NODE (R274) -/
  | node
  /-- 12, E_QFULL (R275) -/
  | qfull
  /-- 13, E_NOCODE (R276) -/
  | nocode
  /-- 14, E_TRUNC (R277) -/
  | trunc
  deriving DecidableEq, Repr

/-- The status of a response (spec/30_encoding.md rule R115); codes 2 to 7 are never produced. -/
inductive Status where
  /-- 0, OK -/
  | ok
  /-- 1, EMPTY -/
  | empty
  /-- 8 to 14, the fault of this command -/
  | fault (c : FaultCode)
  /-- 15, E_FAULTED (R285) -/
  | faulted
  deriving DecidableEq, Repr

/-- A response: status and data (R114). -/
structure Response where
  st : Status
  data : Data
  deriving DecidableEq, Repr

/-- What leaves the engine: a byte on the `out` channel or a response on the `rsp` channel (R31, R32). -/
inductive Sent where
  | byte (b : Byte)
  | rsp (r : Response)
  deriving DecidableEq, Repr

/-- A move of the host: a command word with its sideband operand on the `cmd` channel, or a reset between commands
(R31, R310). -/
inductive Input where
  | command (word : CommandWord) (w : Sideband)
  | reset
  deriving DecidableEq, Repr

/-- The stored flags of STATUS (R48). DD is computed when STATUS is read and is not stored. -/
structure Flags where
  /-- bit 0: the leaves have been made and FREQ is frozen -/
  ql : Bool
  /-- bit 1: the build is finished and NODE is frozen -/
  tv : Bool
  /-- bit 2: the finished build has no root -/
  em : Bool
  /-- bit 3: one symbol only, ROOT is the synthetic root -/
  dg : Bool
  /-- bit 4: the code table is valid -/
  cv : Bool
  /-- bit 5: the decoder is started -/
  ds : Bool
  /-- bit 7: a fault is latched -/
  er : Bool
  deriving DecidableEq, Repr

/-- STATUS = 0 (R67). -/
def Flags.clear : Flags := ⟨false, false, false, false, false, false, false⟩

/-- The whole state of one engine (R30), and its two channels. -/
structure State where
  /-- CFG, the constant CW (R47) -/
  cfg : CounterWidth
  /-- FREQ, by symbol; an unlisted entry is 0 (R54) -/
  freq : Memory Count
  /-- NODE, entries 0 to NCNT-1 (R55) -/
  node : List Node
  /-- HEAP, entries 0 to HSZ-1 (R57) -/
  heap : List Index
  /-- CODE, by symbol; an unlisted entry is `Code.none` (R58) -/
  code : Memory Code
  /-- ROOT (R39) -/
  root : Index
  /-- TOTAL (R40) -/
  total : Weight
  /-- ACC (R41) -/
  acc : Byte
  /-- NBITS (R42) -/
  nbits : BitVec 3
  /-- CUR (R43) -/
  cur : Index
  /-- EMITTED (R44) -/
  emitted : Weight
  /-- XCNT (R45) -/
  xcnt : Index
  /-- STATUS (R48) -/
  flags : Flags
  /-- ERRCODE (R49) -/
  errcode : BitVec 4
  /-- ERRINFO (R50) -/
  errinfo : CommandWord
  /-- the host's moves not yet taken, oldest first (the model's own, assumption log 2) -/
  inputs : List Input
  /-- what the engine has sent, oldest first (the model's own, assumption log 3) -/
  sent : List Sent
  deriving DecidableEq, Repr

/-- The reasons a step of the model stops. The engine itself has none: its seven faults are next states (R10, R283).
Both constructors are raised only in states no run reaches, and both are safe: the model stops where the spec says the
case cannot be. -/
inductive Fault where
  /-- MKL, MRG, FIN or BLD would allocate a 512th entry of NODE: "The arena cannot be full" (R182, R60). Safe. -/
  | arenaFull
  /-- GEN's Walk does not end, the tree under ROOT having a cycle: "NODE holds no cycle" (R61). Safe. -/
  | endlessWalk
  deriving DecidableEq, Repr

/-- The reasons a command has no meaning. -/
inductive Refusal where
  /-- An arm of `exec` without a meaning; none is left. Safe. -/
  | notModelled (mnemonic : String)
  deriving DecidableEq, Repr

/-- The state after reset (R67), of an engine built with the default CW = 32 (R6, assumption log 1), nothing given by
the host and nothing sent. -/
def State.reset : State where
  cfg := Config.defaultWidth
  freq := []
  node := []
  heap := []
  code := []
  root := 0
  total := 0
  acc := 0
  nbits := 0
  cur := 0
  emitted := 0
  xcnt := 0
  flags := Flags.clear
  errcode := 0
  errinfo := 0
  inputs := []
  sent := []

end Sys2Proof.Machine
end

