-- ==== Sys2Proof/Machine/Memory.lean ====
section
/-! DEFINITION. Reading and writing a memory of whole entries addressed by index (spec/20_memory.md rules R80, R87), in
canonical form: indexes strictly rising, no entry equal to the blank entry an unlisted index reads as. The blank entry
is the reset content of R67: 0 in FREQ, no code in CODE. -/

namespace Sys2Proof.Machine

/-- The entry at an index; `blank` where none is listed. -/
def Memory.read {α : Type} (blank : α) : Memory α → Nat → α
  | [], _ => blank
  | (j, x) :: m, i => if j = i then x else Memory.read blank m i

/-- The memory without an entry at an index. -/
def Memory.erase {α : Type} : Memory α → Nat → Memory α
  | [], _ => []
  | (j, x) :: m, i => if j = i then Memory.erase m i else (j, x) :: Memory.erase m i

/-- The memory with an entry put before the first higher index. -/
def Memory.insert {α : Type} : Memory α → Nat → α → Memory α
  | [], i, v => [(i, v)]
  | (j, x) :: m, i, v => if i < j then (i, v) :: (j, x) :: m else (j, x) :: Memory.insert m i v

/-- The memory with `v` at an index; writing the blank entry unlists it. -/
def Memory.write {α : Type} [DecidableEq α] (blank : α) (m : Memory α) (i : Nat) (v : α) : Memory α :=
  if v = blank then m.erase i else (m.erase i).insert i v

/-- The canonical form, of a memory of `size` entries: indexes below `size` and strictly rising, no blank entry. -/
def Memory.wf {α : Type} [DecidableEq α] (blank : α) (size : Nat) (m : Memory α) : Bool :=
  decide (m.Pairwise (fun p q => p.1 < q.1)) && m.all (fun p => decide (p.1 < size) && decide (p.2 ≠ blank))

/-- FREQ[a] (R54). -/
def State.freqAt (s : State) (a : Byte) : Count := Memory.read 0 s.freq a.toNat

/-- FREQ[a] <- c (R54). -/
def State.setFreq (s : State) (a : Byte) (c : Count) : State := { s with freq := Memory.write 0 s.freq a.toNat c }

/-- CODE[a] (R58). -/
def State.codeAt (s : State) (a : Byte) : Code := Memory.read Code.none s.code a.toNat

/-- The entry n of the arena. An entry at or above NCNT does not exist (R37); its storage is the free value of
`Config.staleNode` (R66, assumption log 5). -/
def nodeIn (arena : List Node) (n : Index) : Node :=
  match arena[n.toNat]? with
  | some e => e
  | none => Config.staleNode n.toNat

/-- NODE[n] (R55). -/
def State.nodeAt (s : State) (n : Index) : Node := nodeIn s.node n

/-- NODE[n].own <- o (R56); "only `own` changes later" (R55). -/
def State.setOwner (s : State) (n : Index) (o : Owner) : State :=
  { s with node := s.node.modify n.toNat (fun e => { e with own := o }) }

/-- NCNT (R37): the number of entries of NODE, 9 bits. -/
def State.ncnt (s : State) : Index := BitVec.ofNat 9 s.node.length

/-- HSZ (R38): the number of entries of HEAP, 9 bits. -/
def State.hsz (s : State) : Index := BitVec.ofNat 9 s.heap.length

end Sys2Proof.Machine
end

