-- ==== Sys2Proof/Machine/Operands.lean ====
section
/-! DEFINITION. Operand forms and values: narrowing to the engine's widths (spec/00_scope.md rules R6, R14), the fields
of a node entry (spec/10_state.md rule R55), the bits of a code (R58), codes and status numbers (R115, R270). -/

namespace Sys2Proof.Machine

/-- A value narrowed to CW bits: "write of v, truncated to the register's width" (R14). -/
def narrowCount (cw : CounterWidth) (v : Count) : Count := (v.setWidth cw.bits).setWidth 64

/-- A value narrowed to WW bits (R14). -/
def narrowWeight (cw : CounterWidth) (v : Weight) : Weight := (v.setWidth cw.weightBits).setWidth 72

/-- 2^CW - 1, the largest counter (R17). -/
def maxCount (cw : CounterWidth) : Count := BitVec.ofNat 64 (2 ^ cw.bits - 1)

/-- CFG[7:0] = CW (R47). -/
def cfgWord (cw : CounterWidth) : Byte := BitVec.ofNat 8 cw.bits

end Sys2Proof.Machine

namespace Sys2Proof

/-- The field `k` of an entry: 0 for a Leaf, 1 for an Internal node (R55). -/
def Node.k (e : Node) : BitVec 1 :=
  match e.kind with
  | .leaf _ => 0
  | .internal _ _ => 1

/-- The field `sym`: 0 for an Internal node (R55). -/
def Node.sym (e : Node) : Byte :=
  match e.kind with
  | .leaf a => a
  | .internal _ _ => 0

/-- The field `l`: 0 for a Leaf (R55). -/
def Node.left (e : Node) : Index :=
  match e.kind with
  | .leaf _ => 0
  | .internal l _ => l

/-- The field `r`: 0 for a Leaf (R55). -/
def Node.right (e : Node) : Index :=
  match e.kind with
  | .leaf _ => 0
  | .internal _ r => r

/-- The value of an owner tag (R56). -/
def Owner.bits : Owner → BitVec 2
  | .q => 0
  | .x => 1
  | .p => 2
  | .r => 3

/-- What RDNL returns (R186): own in bits 28:27, k in 26, sym in 25:18, r in 17:9, l in 8:0. -/
def Node.linkWord (e : Node) : BitVec 29 :=
  (e.own.bits.setWidth 29 <<< 27) ||| (e.k.setWidth 29 <<< 26) ||| (e.sym.setWidth 29 <<< 18) |||
    (e.right.setWidth 29 <<< 9) ||| e.left.setWidth 29

/-- A child of an entry: the right one for a 1 bit, the left one for a 0 bit (R200, R231). -/
def Node.child (e : Node) (b : Bool) : Index := if b then e.right else e.left

/-- The bits of a code, the root edge first: val[len-1] down to val[0] (R58, R82). -/
def Code.bits (c : Code) : List Bool :=
  (List.range c.len.toNat).reverse.map (fun i => c.val.getLsbD i)

/-- The bits of a byte, most significant first (R81). -/
def byteBits (a : Byte) : List Bool :=
  (List.range 8).reverse.map (fun i => a.getLsbD i)

/-- What RDCB returns: bits 32k+31 to 32k of the code value zero-extended to 256 bits (R207). -/
def Code.slice (c : Code) (k : Sideband) : BitVec 32 :=
  (c.val.setWidth 256).extractLsb' (32 * k.toNat) 32

end Sys2Proof

namespace Sys2Proof.Machine

/-- The code of a fault (R270). -/
def FaultCode.code : FaultCode → BitVec 4
  | .ill => 8
  | .seq => 9
  | .ovf => 10
  | .node => 11
  | .qfull => 12
  | .nocode => 13
  | .trunc => 14

/-- The code of a status (R115). -/
def Status.code : Status → BitVec 4
  | .ok => 0
  | .empty => 1
  | .fault c => FaultCode.code c
  | .faulted => 15

end Sys2Proof.Machine
end

