-- ==== Sys2Proof/Machine/Flags.lean ====
section
/-! DEFINITION. The flags of STATUS and every check made of them: the computed flag DD, the phase table of
spec/60_exceptions.md rule R272, and which commands the faulted engine accepts (rule R285). No arithmetic sets a flag
(spec/10_state.md rule R48). -/

namespace Sys2Proof.Machine

/-- DD = DS and (EMITTED = TOTAL), "computed when STATUS is read" (R48). -/
def State.dd (s : State) : Bool := s.flags.ds && decide (s.emitted = s.total)

/-- A flag at its bit of STATUS (R48). -/
def flagBit (b : Bool) (i : Nat) : Byte := (BitVec.ofBool b).setWidth 8 <<< i

/-- STATUS as RDS returns it: ER DD DS CV DG EM TV QL in bits 7 to 0 (R48). -/
def State.status (s : State) : Byte :=
  flagBit s.flags.ql 0 ||| flagBit s.flags.tv 1 ||| flagBit s.flags.em 2 ||| flagBit s.flags.dg 3 |||
    flagBit s.flags.cv 4 ||| flagBit s.flags.ds 5 ||| flagBit s.dd 6 ||| flagBit s.flags.er 7

/-- QL = 0 and TV = 0: the table is not frozen (R272, LDF CNT MKL BLD). -/
def State.tableOpen (s : State) : Bool := !s.flags.ql && !s.flags.tv

/-- QL = 1, TV = 0, HSZ <= 1, XCNT = 0 (R272, FIN). -/
def State.finishOpen (s : State) : Bool :=
  s.flags.ql && !s.flags.tv && decide (s.heap.length ≤ 1) && decide (s.xcnt = 0)

/-- The phase check of each command (R272). -/
def phaseOk (i : Instr) (s : State) : Bool :=
  match i with
  | .ldf _ _ | .cnt _ | .mkl | .bld => s.tableOpen
  | .pqi _ | .pqx => !s.flags.tv
  | .mrg => s.flags.ql && !s.flags.tv
  | .fin => s.finishOpen
  | .gen | .dst => s.flags.tv
  | .enc _ | .efl => s.flags.cv
  | .dbt _ | .dby _ | .den => s.flags.ds
  | .nop | .clr | .rdf _ | .rds _ | .rdh _ | .rdnw _ | .rdnl _ | .rdc _ | .rdcb _ _ => true

/-- The commands the faulted engine still accepts, "in legal encodings" (R285). -/
def acceptedWhenFaulted (i : Instr) : Bool :=
  match i with
  | .nop | .clr | .rdf _ | .rds _ | .rdh _ | .rdnw _ | .rdnl _ | .rdc _ | .rdcb _ _ => i.wellFormed
  | .ldf _ _ | .cnt _ | .pqi _ | .pqx | .mkl | .mrg | .fin | .bld | .gen | .enc _ | .efl | .dst | .dbt _ | .dby _
  | .den => false

end Sys2Proof.Machine
end

