-- ==== Sys2Proof/Machine/Ops.lean ====
section
/-! DEFINITION. The operations every command is made of: responding, raising a fault (spec/60_exceptions.md rule R283),
leaving the faulted state (R286), the refusal of the faulted engine (R285), the registers of RDS (spec/10_state.md rule
R51), and the common frame of a command (spec/40_control_and_tables.md rule R140, spec/30_encoding.md rule R125). -/

namespace Sys2Proof.Machine

/-- The bytes a command emitted, then its one response (R32, R91, R114). -/
def State.send (s : State) (bytes : List Byte) (st : Status) (data : Data) : State :=
  { s with sent := s.sent ++ bytes.map Sent.byte ++ [Sent.rsp ⟨st, data⟩] }

/-- `raise Fault(code)` (R283): ERRCODE, ERRINFO and FLAG.ER are written, the response is (code, 0), no byte is
emitted, and nothing else changes. -/
def State.raiseFault (s : State) (c : FaultCode) (word : CommandWord) : State :=
  State.send { s with errcode := c.code, errinfo := word, flags := { s.flags with er := true } } [] (.fault c) 0

/-- Every piece of the engine's state at its reset value (R67, R310); CFG is a constant, and what the host has still to
give and what the engine has sent are outside the engine. This is also the only way out of the faulted state (R286). -/
def State.cleared (s : State) : State :=
  { State.reset with cfg := s.cfg, inputs := s.inputs, sent := s.sent }

/-- The response (E_FAULTED, 0) of the faulted engine, which "changes nothing" (R285). -/
def State.refuseFaulted (s : State) : State := s.send [] .faulted 0

/-- The value of the register RDS numbers (R51), zero-extended to RW bits; none for a reserved number. -/
def State.register (s : State) (r : Byte) : Option Data :=
  match r.toNat with
  | 0 => some ((cfgWord s.cfg).setWidth 72)
  | 1 => some (s.status.setWidth 72)
  | 2 => some (s.errcode.setWidth 72)
  | 3 => some (s.errinfo.setWidth 72)
  | 4 => some (s.ncnt.setWidth 72)
  | 5 => some (s.hsz.setWidth 72)
  | 6 => some (s.root.setWidth 72)
  | 7 => some s.total
  | 8 => some (s.acc.setWidth 72)
  | 9 => some (s.nbits.setWidth 72)
  | 10 => some (s.cur.setWidth 72)
  | 11 => some s.emitted
  | 12 => some (s.xcnt.setWidth 72)
  | _ => none

/-- How a command's own part can end without its effect: a fault of the engine, which is taken (R283), or a stop of
the model. -/
inductive Stop where
  | engine (c : FaultCode)
  | model (f : Fault)
  deriving DecidableEq, Repr

/-- What a command's own part gives when it ends by `respond`: the state it wrote, the bytes it emitted in order, the
status and the data. -/
structure Done where
  state : State
  bytes : List Byte
  st : Status
  data : Data
  deriving DecidableEq, Repr

/-- `respond(OK, data)` with no byte emitted. -/
def Done.ok (s : State) (data : Data) : Done := ⟨s, [], .ok, data⟩

/-- `respond(EMPTY, 0)`. -/
def Done.empty (s : State) : Done := ⟨s, [], .empty, 0⟩

/-- The result of a command's own part. -/
abbrev Effect := Except Stop Done

/-- The end of a command (R140): a `respond` keeps what the command wrote; a `raise Fault` writes the three fault
registers over the state from before the command, "because every rule places its checks before its first write". -/
def conclude (word : CommandWord) (s : State) (e : Effect) : Host.Outcome State Fault Refusal :=
  match e with
  | .ok d => .next (d.state.send d.bytes d.st d.data)
  | .error (.engine c) => .next (s.raiseFault c word)
  | .error (.model f) => .fault f

/-- The common frame (R125, R140): the faulted gate, then E_ILL, then the phase check E_SEQ, then the command's own
part `body`: its value check, its EMPTY check and its effect. -/
def command (i : Instr) (body : State → Effect) (s : State) : Host.Outcome State Fault Refusal :=
  if s.flags.er && !acceptedWhenFaulted i then .next s.refuseFaulted
  else if !i.wellFormed then .next (s.raiseFault .ill (encodeWord i))
  else if !phaseOk i s then .next (s.raiseFault .seq (encodeWord i))
  else conclude (encodeWord i) s (body s)

/-- A command that is illegal, its word spelling none (R118, R271): refused by the faulted engine, E_ILL otherwise. -/
def illegalCommand (word : CommandWord) (s : State) : Host.Outcome State Fault Refusal :=
  if s.flags.er then .next s.refuseFaulted else .next (s.raiseFault .ill word)

/-- The output ports between two commands (R31, R32, R67, R281). -/
structure Ports where
  cmdReady : Bool
  outValid : Bool
  rspValid : Bool
  faultO : Bool
  deriving DecidableEq, Repr

/-- Between commands the engine is idle: it can accept a command, offers nothing, and `fault_o` is STATUS.ER (R281). -/
def State.ports (s : State) : Ports := ⟨true, false, false, s.flags.er⟩

end Sys2Proof.Machine
end

