-- ==== Sys2Proof/Machine/CodeGen.lean ====
section
/-! DEFINITION. The code table generator: GEN with the traversal Walk, RDC, RDCB (spec/43_code_generator.md rules R200
to R208). -/

namespace Sys2Proof.Machine

/-- What Walk accumulates: the memory CODE and cnt (R201). -/
structure Walked where
  code : Memory Code
  cnt : Nat
  deriving DecidableEq, Repr

/-- CODE[a] <- c; cnt <- cnt + 1 (R202). -/
def Walked.record (g : Walked) (a : Byte) (c : Code) : Walked :=
  ⟨Memory.write Code.none g.code a.toNat c, g.cnt + 1⟩

/-- Walk(n, L, v) (R202), the left subtree before the right. `fuel` bounds the number of nodes on a path; it is NCNT,
since a child's index is below its parent's (R61). None if a path is longer, which then comes back to a node. -/
def walk (arena : List Node) : Nat → Index → Nat → BitVec 255 → Walked → Option Walked
  | 0, _, _, _, _ => none
  | fuel + 1, n, len, v, g =>
    match (nodeIn arena n).kind with
    | .leaf a => some (g.record a ⟨BitVec.ofNat 8 len, v⟩)
    | .internal l r =>
      match walk arena fuel l (len + 1) (v <<< 1) g with
      | some g1 => walk arena fuel r (len + 1) ((v <<< 1) ||| 1) g1
      | none => none

/-- The table of the degenerate build: the code "0" for the one symbol (R201, R204). -/
def degenerateTable (s : State) : Walked :=
  Walked.record ⟨[], 0⟩ (s.nodeAt (s.nodeAt s.root).left).sym ⟨1, 0⟩

/-- The code table of the finished tree (R201): empty, degenerate, or walked from ROOT. -/
def codeTable (s : State) : Option Walked :=
  if s.flags.em then some ⟨[], 0⟩
  else if s.flags.dg then some (degenerateTable s)
  else walk s.node s.node.length s.root 0 0 ⟨[], 0⟩

/-- The effect of GEN; its data is the number of entries written (R201). -/
def genEffect (s : State) : Effect :=
  match codeTable s with
  | some g => .ok (Done.ok { s with code := g.code, flags := { s.flags with cv := true } } (BitVec.ofNat 72 g.cnt))
  | none => .error (.model .endlessWalk)

/-- GEN (R201). -/
def execGen (s : State) : Host.Outcome State Fault Refusal :=
  command .gen genEffect s

/-- RDC a (R206). -/
def execRdc (a : Byte) (s : State) : Host.Outcome State Fault Refusal :=
  command (.rdc a) (fun s => .ok (Done.ok s ((s.codeAt a).len.setWidth 72))) s

/-- RDCB a, k (R207). -/
def execRdcb (a : Byte) (k : Sideband) (s : State) : Host.Outcome State Fault Refusal :=
  command (.rdcb a k) (fun s => .ok (Done.ok s (((s.codeAt a).slice k).setWidth 72))) s

end Sys2Proof.Machine
end

