-- ==== Sys2Proof/Machine/Control.lean ====
section
/-! DEFINITION. The control and frequency-table commands NOP, CLR, LDF, CNT, RDF, RDS (spec/40_control_and_tables.md). -/

namespace Sys2Proof.Machine

/-- NOP (R141). -/
def execNop (s : State) : Host.Outcome State Fault Refusal :=
  command .nop (fun s => .ok (Done.ok s 0)) s

/-- CLR (R142). -/
def execClr (s : State) : Host.Outcome State Fault Refusal :=
  command .clr (fun s => .ok (Done.ok s.cleared 0)) s

/-- The effect of LDF (R143): the counter is replaced by W, CW bits. -/
def ldfEffect (a : Byte) (w : Sideband) (s : State) : Effect :=
  .ok (Done.ok (s.setFreq a (narrowCount s.cfg w)) 0)

/-- LDF a, w (R143). -/
def execLdf (a : Byte) (w : Sideband) (s : State) : Host.Outcome State Fault Refusal :=
  command (.ldf a w) (ldfEffect a w) s

/-- The effect of CNT (R144): E_OVF at 2^CW - 1, else one more. -/
def cntEffect (a : Byte) (s : State) : Effect :=
  if s.freqAt a = maxCount s.cfg then .error (.engine .ovf)
  else .ok (Done.ok (s.setFreq a (narrowCount s.cfg (s.freqAt a + 1))) 0)

/-- CNT a (R144). -/
def execCnt (a : Byte) (s : State) : Host.Outcome State Fault Refusal :=
  command (.cnt a) (cntEffect a) s

/-- RDF a (R145). -/
def execRdf (a : Byte) (s : State) : Host.Outcome State Fault Refusal :=
  command (.rdf a) (fun s => .ok (Done.ok s ((s.freqAt a).setWidth 72))) s

/-- The effect of RDS (R146); a reserved number is an illegal encoding (R118), which the frame has turned away. -/
def rdsEffect (r : Byte) (s : State) : Effect :=
  match s.register r with
  | some v => .ok (Done.ok s v)
  | none => .error (.engine .ill)

/-- RDS r (R146). -/
def execRds (r : Byte) (s : State) : Host.Outcome State Fault Refusal :=
  command (.rds r) (rdsEffect r) s

end Sys2Proof.Machine
end

