-- ==== Sys2Proof/Machine/Decoder.lean ====
section
/-! DEFINITION. The bitstream decoder: DecodeBit and the commands DST, DBT, DBY, DEN (spec/45_decoder.md rules R231 to
R235). -/

namespace Sys2Proof.Machine

/-- DecodeBit(b) (R231): the state after it and the symbol it emitted, if any. -/
def decodeBit (b : Bool) (s : State) : State × List Byte :=
  if s.emitted = s.total then (s, [])
  else
    match (s.nodeAt ((s.nodeAt s.cur).child b)).kind with
    | .leaf a => ({ s with emitted := narrowWeight s.cfg (s.emitted + 1), cur := s.root }, [a])
    | .internal _ _ => ({ s with cur := (s.nodeAt s.cur).child b }, [])

/-- DecodeBit over a sequence of bits (R234). -/
def decodeBits : List Bool → State → State × List Byte
  | [], s => (s, [])
  | b :: rest, s =>
    let (t, out) := decodeBit b s
    let (u, more) := decodeBits rest t
    (u, out ++ more)

/-- The effect of DBT and DBY: the bits are decoded in order, the data is the number of symbols emitted. -/
def decodeEffect (bits : List Bool) (s : State) : Effect :=
  let (t, out) := decodeBits bits s
  .ok ⟨t, out, .ok, BitVec.ofNat 72 out.length⟩

/-- DST (R232). -/
def execDst (s : State) : Host.Outcome State Fault Refusal :=
  command .dst
    (fun s => .ok (Done.ok { s with cur := s.root, emitted := 0, flags := { s.flags with ds := true } } 0)) s

/-- DBT b (R233). -/
def execDbt (b : Bool) (s : State) : Host.Outcome State Fault Refusal :=
  command (.dbt b) (decodeEffect [b]) s

/-- DBY a (R234): the eight bits of the byte, most significant first. -/
def execDby (a : Byte) (s : State) : Host.Outcome State Fault Refusal :=
  command (.dby a) (decodeEffect (byteBits a)) s

/-- The effect of DEN (R235): E_TRUNC while symbols are missing. -/
def denEffect (s : State) : Effect :=
  if s.emitted = s.total then .ok (Done.ok { s with flags := { s.flags with ds := false } } 0)
  else .error (.engine .trunc)

/-- DEN (R235). -/
def execDen (s : State) : Host.Outcome State Fault Refusal :=
  command .den denEffect s

end Sys2Proof.Machine
end

