-- ==== Sys2Proof/Machine/Encoder.lean ====
section
/-! DEFINITION. The bitstream encoder: ENC and EFL (spec/44_encoder.md rules R215 to R217). -/

namespace Sys2Proof.Machine

/-- The bit accumulator inside a command: ACC, NBITS (0 to 7 between two rounds) and the bytes emitted so far. -/
structure Packer where
  acc : Byte
  nbits : Nat
  bytes : List Byte
  deriving DecidableEq, Repr

/-- One round of ENC (R216): the bit enters ACC from the right; the eighth emits the byte. -/
def Packer.push (p : Packer) (b : Bool) : Packer :=
  if p.nbits + 1 = 8 then ⟨0, 0, p.bytes ++ [(p.acc <<< 1) ||| (BitVec.ofBool b).setWidth 8]⟩
  else ⟨(p.acc <<< 1) ||| (BitVec.ofBool b).setWidth 8, p.nbits + 1, p.bytes⟩

/-- The bits of a code appended in order (R216). -/
def Packer.pushAll (p : Packer) (bits : List Bool) : Packer := bits.foldl Packer.push p

/-- The effect of ENC (R216): E_NOCODE without a code, else its bits are packed; the data is the number of bytes. -/
def encEffect (a : Byte) (s : State) : Effect :=
  if (s.codeAt a).len = 0 then .error (.engine .nocode)
  else
    let p := Packer.pushAll ⟨s.acc, s.nbits.toNat, []⟩ (s.codeAt a).bits
    .ok ⟨{ s with acc := p.acc, nbits := BitVec.ofNat 3 p.nbits }, p.bytes, .ok, BitVec.ofNat 72 p.bytes.length⟩

/-- ENC a (R216). -/
def execEnc (a : Byte) (s : State) : Host.Outcome State Fault Refusal :=
  command (.enc a) (encEffect a) s

/-- The effect of EFL (R217): the pending bits go to the top of a byte, zeros below. -/
def eflEffect (s : State) : Effect :=
  if s.nbits = 0 then .ok (Done.ok s 0)
  else .ok ⟨{ s with acc := 0, nbits := 0 }, [s.acc <<< (8 - s.nbits.toNat)], .ok, 1⟩

/-- EFL (R217). -/
def execEfl (s : State) : Host.Outcome State Fault Refusal :=
  command .efl eflEffect s

end Sys2Proof.Machine
end

