-- ==== Sys2Proof/Machine/Queue.lean ====
section
/-! DEFINITION. The priority queue: the comparison and the two heap procedures exactly as spec/41_priority_queue.md
rules R161 to R163 give them, and the commands PQI, PQX, RDH (rules R166 to R168). -/

namespace Sys2Proof.Machine

/-- lt(x, y): `NODE[x].w < NODE[y].w`, strict, unsigned, by weight alone (R161, R18). -/
def lighter (arena : List Node) (x y : Index) : Bool := decide ((nodeIn arena x).w < (nodeIn arena y).w)

/-- Swap HEAP[i] and HEAP[j], which hold `x` and `y`. -/
def swapSlots (heap : List Index) (i j : Nat) (x y : Index) : List Index := (heap.set i y).set j x

/-- The sift-up of R162 from slot i: the node climbs past parents that are strictly heavier. Each round at least halves
the slot, so i rounds are enough. -/
def siftUp (lt : Index → Index → Bool) : Nat → List Index → Nat → List Index
  | 0, heap, _ => heap
  | fuel + 1, heap, i =>
    if i = 0 then heap
    else
      match heap[i]?, heap[(i - 1) / 2]? with
      | some x, some y => if lt x y then siftUp lt fuel (swapSlots heap i ((i - 1) / 2) x y) ((i - 1) / 2) else heap
      | _, _ => heap

/-- "if c < HSZ and lt(HEAP[c], HEAP[s]): s <- c" (R163). -/
def lighterSlot (lt : Index → Index → Bool) (heap : List Index) (c s : Nat) : Nat :=
  match heap[c]?, heap[s]? with
  | some x, some y => if lt x y then c else s
  | _, _ => s

/-- The slot a node at slot i sinks to in one round, i where it stays: the left child is tried first, the right one
replaces it only when strictly lighter (R163). -/
def sinkSlot (lt : Index → Index → Bool) (heap : List Index) (i : Nat) : Nat :=
  lighterSlot lt heap (2 * i + 2) (lighterSlot lt heap (2 * i + 1) i)

/-- The sift-down of R163 from slot i. Each round moves to a higher slot, so HSZ rounds are enough. -/
def siftDown (lt : Index → Index → Bool) : Nat → List Index → Nat → List Index
  | 0, heap, _ => heap
  | fuel + 1, heap, i =>
    if sinkSlot lt heap i = i then heap
    else
      match heap[i]?, heap[sinkSlot lt heap i]? with
      | some x, some y => siftDown lt fuel (swapSlots heap i (sinkSlot lt heap i) x y) (sinkSlot lt heap i)
      | _, _ => heap

/-- HEAP after PQ.insert(n) (R162): the node goes to slot HSZ and is sifted up. -/
def heapInsert (lt : Index → Index → Bool) (heap : List Index) (n : Index) : List Index :=
  siftUp lt heap.length (heap ++ [n]) heap.length

/-- The node PQ.extractMin returns and HEAP after it (R163): the last entry moves to the top and is sifted down. -/
def heapExtract (lt : Index → Index → Bool) (heap : List Index) : Option (Index × List Index) :=
  match heap with
  | [] => none
  | m :: rest =>
    match rest.getLast? with
    | none => some (m, [])
    | some top => some (m, siftDown lt rest.length (top :: rest.dropLast) 0)

/-- PQ.insert(n) (R162); E_QFULL with 256 entries (R275). -/
def pqInsert (n : Index) (s : State) : Except Stop State :=
  if s.heap.length < Config.qcap then .ok { s with heap := heapInsert (lighter s.node) s.heap n }
  else .error (.engine .qfull)

/-- PQ.extractMin() (R163); none on an empty queue, which every caller checks first. -/
def pqExtract (s : State) : Option (Index × State) :=
  match heapExtract (lighter s.node) s.heap with
  | none => none
  | some (m, heap) => some (m, { s with heap := heap })

/-- The effect of PQI (R166). -/
def pqiEffect (n : Index) (s : State) : Effect :=
  if n.toNat < s.node.length ∧ (s.nodeAt n).own = .x then
    match pqInsert n { s.setOwner n .q with xcnt := s.xcnt - 1 } with
    | .ok t => .ok (Done.ok t 0)
    | .error e => .error e
  else .error (.engine .node)

/-- PQI n (R166). -/
def execPqi (n : Index) (s : State) : Host.Outcome State Fault Refusal :=
  command (.pqi n) (pqiEffect n) s

/-- The effect of PQX (R167). -/
def pqxEffect (s : State) : Effect :=
  match pqExtract s with
  | none => .ok (Done.empty s)
  | some (m, t) => .ok (Done.ok { t.setOwner m .x with xcnt := t.xcnt + 1 } (m.setWidth 72))

/-- PQX (R167). -/
def execPqx (s : State) : Host.Outcome State Fault Refusal :=
  command .pqx pqxEffect s

/-- The effect of RDH (R168). -/
def rdhEffect (i : Index) (s : State) : Effect :=
  match s.heap[i.toNat]? with
  | some n => .ok (Done.ok s (n.setWidth 72))
  | none => .ok (Done.empty s)

/-- RDH i (R168). -/
def execRdh (i : Index) (s : State) : Host.Outcome State Fault Refusal :=
  command (.rdh i) (rdhEffect i) s

end Sys2Proof.Machine
end

