-- ==== Sys2Proof/Machine/Tree.lean ====
section
/-! DEFINITION. The tree builder: MKL, MRG, FIN, BLD, RDNW, RDNL (spec/42_tree_builder.md rules R180 to R188). -/

namespace Sys2Proof.Machine

/-- NODE[NCNT] <- {k, l, r, sym as `kind`, w, own}; NCNT <- NCNT + 1 (R37, R55); the weight is WW bits. The arena has
511 entries (R6); a 512th is a stop of the model, since "the arena cannot be full" (R182). -/
def allocate (kind : Kind) (w : Weight) (own : Owner) (s : State) : Except Stop State :=
  if s.node.length < Config.ncap then .ok { s with node := s.node ++ [⟨kind, narrowWeight s.cfg w, own⟩] }
  else .error (.model .arenaFull)

/-- A new entry, owned by the queue and put in it: the common end of a round of MKL and of MRG (R181, R182). -/
def allocateQueued (kind : Kind) (w : Weight) (s : State) : Except Stop State :=
  match allocate kind w .q s with
  | .ok t => pqInsert s.ncnt t
  | .error e => .error e

/-- The symbols from 0 to 255, in rising order (R181). -/
def symbols : List Byte := (List.range 256).map (BitVec.ofNat 8)

/-- The loop of MKL (R181) over the symbols still to come; `total` is t. -/
def makeLeaves : List Byte → Weight → State → Except Stop (Weight × State)
  | [], total, s => .ok (total, s)
  | a :: rest, total, s =>
    if s.freqAt a = 0 then makeLeaves rest total s
    else
      match allocateQueued (.leaf a) ((s.freqAt a).setWidth 72) s with
      | .ok t => makeLeaves rest (narrowWeight s.cfg (total + (s.freqAt a).setWidth 72)) t
      | .error e => .error e

/-- The effect of MKL on the state (R181). -/
def loadQueue (s : State) : Except Stop State :=
  match makeLeaves symbols 0 s with
  | .ok (total, t) => .ok { t with total := total, flags := { t.flags with ql := true } }
  | .error e => .error e

/-- The effect of MKL; its data is NCNT, the number of leaves (R181). -/
def mklEffect (s : State) : Effect :=
  match loadQueue s with
  | .ok t => .ok (Done.ok t (t.ncnt.setWidth 72))
  | .error e => .error e

/-- MKL (R181). -/
def execMkl (s : State) : Host.Outcome State Fault Refusal :=
  command .mkl mklEffect s

/-- One merge (R182): the two least nodes get a parent; none with fewer than two nodes in the queue. -/
def mergeTwo (s : State) : Except Stop (Option State) :=
  match pqExtract s with
  | none => .ok none
  | some (a, s1) =>
    match pqExtract s1 with
    | none => .ok none
    | some (b, s2) =>
      match allocateQueued (.internal a b) ((s2.nodeAt a).w + (s2.nodeAt b).w) ((s2.setOwner a .p).setOwner b .p) with
      | .ok t => .ok (some t)
      | .error e => .error e

/-- The effect of MRG; its data is the new node's index, which is NCNT before the merge (R182). -/
def mrgEffect (s : State) : Effect :=
  match mergeTwo s with
  | .ok (some t) => .ok (Done.ok t (s.ncnt.setWidth 72))
  | .ok none => .ok (Done.empty s)
  | .error e => .error e

/-- MRG (R182). -/
def execMrg (s : State) : Host.Outcome State Fault Refusal :=
  command .mrg mrgEffect s

/-- The root of a build with one symbol present: the synthetic root above the Leaf m (R183, R188). -/
def syntheticRoot (m : Index) (s : State) : Except Stop State :=
  match allocate (.internal m m) (s.nodeAt m).w .r (s.setOwner m .p) with
  | .ok t => .ok { t with root := s.ncnt, flags := { t.flags with dg := true, tv := true } }
  | .error e => .error e

/-- The effect of FIN (R183): no root, the synthetic root, or the one node left. -/
def finEffect (s : State) : Effect :=
  match pqExtract s with
  | none => .ok (Done.empty { s with root := 0, flags := { s.flags with em := true, tv := true } })
  | some (m, t) =>
    match (s.nodeAt m).kind with
    | .leaf _ =>
      match syntheticRoot m t with
      | .ok u => .ok (Done.ok u (u.root.setWidth 72))
      | .error e => .error e
    | .internal _ _ =>
      .ok (Done.ok { t.setOwner m .r with root := m, flags := { t.flags with tv := true } } (m.setWidth 72))

/-- FIN (R183). -/
def execFin (s : State) : Host.Outcome State Fault Refusal :=
  command .fin finEffect s

/-- "while HSZ > 1: do the effect of MRG" (R184). Each merge lowers HSZ by one, so HSZ rounds are enough. -/
def mergeAll : Nat → State → Except Stop State
  | 0, s => .ok s
  | fuel + 1, s =>
    match mergeTwo s with
    | .ok (some t) => mergeAll fuel t
    | .ok none => .ok s
    | .error e => .error e

/-- The effect of BLD (R184): that of MKL, then of MRG while HSZ > 1, then of FIN with FIN's own phase check, "its
response is BLD's response". -/
def bldEffect (s : State) : Effect :=
  match loadQueue s with
  | .error e => .error e
  | .ok t =>
    match mergeAll t.heap.length t with
    | .error e => .error e
    | .ok u => if u.finishOpen then finEffect u else .error (.engine .seq)

/-- BLD (R184). -/
def execBld (s : State) : Host.Outcome State Fault Refusal :=
  command .bld bldEffect s

/-- The effect of RDNW (R185). -/
def rdnwEffect (n : Index) (s : State) : Effect :=
  match s.node[n.toNat]? with
  | some e => .ok (Done.ok s e.w)
  | none => .ok (Done.empty s)

/-- RDNW n (R185). -/
def execRdnw (n : Index) (s : State) : Host.Outcome State Fault Refusal :=
  command (.rdnw n) (rdnwEffect n) s

/-- The effect of RDNL (R186). -/
def rdnlEffect (n : Index) (s : State) : Effect :=
  match s.node[n.toNat]? with
  | some e => .ok (Done.ok s (e.linkWord.setWidth 72))
  | none => .ok (Done.empty s)

/-- RDNL n (R186). -/
def execRdnl (n : Index) (s : State) : Host.Outcome State Fault Refusal :=
  command (.rdnl n) (rdnlEffect n) s

end Sys2Proof.Machine
end

