-- ==== Sys2Proof/Machine/Dispatch.lean ====
section
/-! DEFINITION. The meaning of every command, one arm each, in the order of spec/30_encoding.md rule R117. -/

namespace Sys2Proof.Machine

def exec (i : Instr) (s : State) : Host.Outcome State Fault Refusal :=
  match i with
  | .nop => Sys2Proof.Machine.execNop s
  | .clr => Sys2Proof.Machine.execClr s
  | .ldf a w => Sys2Proof.Machine.execLdf a w s
  | .cnt a => Sys2Proof.Machine.execCnt a s
  | .rdf a => Sys2Proof.Machine.execRdf a s
  | .rds r => Sys2Proof.Machine.execRds r s
  | .pqi n => Sys2Proof.Machine.execPqi n s
  | .pqx => Sys2Proof.Machine.execPqx s
  | .rdh k => Sys2Proof.Machine.execRdh k s
  | .mkl => Sys2Proof.Machine.execMkl s
  | .mrg => Sys2Proof.Machine.execMrg s
  | .fin => Sys2Proof.Machine.execFin s
  | .bld => Sys2Proof.Machine.execBld s
  | .rdnw n => Sys2Proof.Machine.execRdnw n s
  | .rdnl n => Sys2Proof.Machine.execRdnl n s
  | .gen => Sys2Proof.Machine.execGen s
  | .rdc a => Sys2Proof.Machine.execRdc a s
  | .rdcb a k => Sys2Proof.Machine.execRdcb a k s
  | .enc a => Sys2Proof.Machine.execEnc a s
  | .efl => Sys2Proof.Machine.execEfl s
  | .dst => Sys2Proof.Machine.execDst s
  | .dbt b => Sys2Proof.Machine.execDbt b s
  | .dby a => Sys2Proof.Machine.execDby a s
  | .den => Sys2Proof.Machine.execDen s

end Sys2Proof.Machine
end

