-- ==== Sys2Proof/Machine/Sequencer.lean ====
section
/-! DEFINITION. The sequencer: taking the host's next move and running it (spec/10_state.md rule R32,
spec/00_scope.md rule R10, spec/30_encoding.md rule R125, spec/70_reset_and_hazards.md rule R310). -/

namespace Sys2Proof.Machine

/-- A command word with W, run from the state in which it has been taken from the channel: the command it spells, or an
illegal command (R118, R125). -/
def runCommand (word : CommandWord) (w : Sideband) (s : State) : Host.Outcome State Fault Refusal :=
  match decode word w with
  | .ok i => exec i s
  | .error _ => illegalCommand word s

/-- One move of the engine (R10): the host's oldest move is taken; W is the CW bits of `cmd_w` (R112). A reset puts
every piece of state at its reset value, without a response (R310). With no move the engine is idle "with all state
kept" (R293). -/
def sequence (s : State) : Host.Outcome State Fault Refusal :=
  match s.inputs with
  | [] => .next s
  | .command word w :: rest => runCommand word (narrowCount s.cfg w) { s with inputs := rest }
  | .reset :: rest => .next { s.cleared with inputs := rest }

end Sys2Proof.Machine
end

