-- ==== Sys2Proof/Machine/Step.lean ====
section
/-! DEFINITION. One step: one command, from acceptance to response (spec/00_scope.md rule R10). -/

namespace Sys2Proof.Machine

/-- One step of the engine. -/
def step (s : State) : Host.Outcome State Fault Refusal := sequence s

/-- The state in which the host's next move is the command word `w` with W = 0. The engine fetches nothing (R46): its
next command is the one the host gives (assumption log 6). -/
def State.withFetchWord (s : State) (nbits w : Nat) : State :=
  { s with inputs := .command (BitVec.ofNat 32 (w % 2 ^ nbits)) 0 :: s.inputs }

end Sys2Proof.Machine
end

