-- ==== Sys2Proof/Machine/Container.lean ====
section
/-! DEFINITION. The host's side: the container and the two host sequences (spec/46_container_and_host.md rules R250 to
R257), and the pseudo-instructions of spec/30_encoding.md rule R123. No command of the engine reads or writes a
container. -/

namespace Sys2Proof.Machine

/-- The move of the host that gives a command (R31). -/
def give (i : Instr) : Input := .command (encodeWord i) (encodeSideband i)

/-- The bytes of an output history, in order (R11). -/
def outBytes (sent : List Sent) : List Byte :=
  sent.filterMap (fun x => match x with
    | .byte b => some b
    | .rsp _ => none)

/-- The responses of an output history, in order (R11). -/
def responses (sent : List Sent) : List Response :=
  sent.filterMap (fun x => match x with
    | .byte _ => none
    | .rsp r => some r)

/-- HB = 256 * CW / 8, the bytes of the header (R250). -/
def headerSize (cw : CounterWidth) : Nat := 256 * (cw.bits / 8)

/-- The CW/8 bytes of a counter in the container (R251): `little` puts bits 7:0 first, `big` puts them last. -/
def counterBytes (cw : CounterWidth) (order : ByteOrder) (c : Count) : List Byte :=
  match order with
  | .little => (List.range (cw.bits / 8)).map (fun j => c.extractLsb' (8 * j) 8)
  | .big => (List.range (cw.bits / 8)).map (fun j => c.extractLsb' (cw.bits - 8 - 8 * j) 8)

/-- The counter whose bytes, the lowest first, are given. -/
def countOfLittle : List Byte → Count
  | [] => 0
  | b :: rest => (countOfLittle rest <<< 8) ||| b.setWidth 64

/-- The counter that its bytes in the container hold (R251). -/
def countOfBytes (order : ByteOrder) (bytes : List Byte) : Count :=
  match order with
  | .little => countOfLittle bytes
  | .big => countOfLittle bytes.reverse

/-- The header: the counters in rising symbol order (R250). -/
def headerBytes (cw : CounterWidth) (order : ByteOrder) (counters : List Count) : List Byte :=
  counters.flatMap (counterBytes cw order)

/-- The container (R250): the header, then the packed bitstream, nothing between. -/
def containerBytes (cw : CounterWidth) (order : ByteOrder) (counters : List Count) (payload : List Byte) : List Byte :=
  headerBytes cw order counters ++ payload

/-- The first `n` counters of a sequence of bytes. -/
def readCounters (cw : CounterWidth) (order : ByteOrder) : Nat → List Byte → List Count
  | 0, _ => []
  | n + 1, bytes =>
    countOfBytes order (bytes.take (cw.bits / 8)) :: readCounters cw order n (bytes.drop (cw.bits / 8))

/-- The counters and the payload of a container; none where it is shorter than its header, which is "fatal,
decompression must not proceed" (R257). -/
def splitContainer (cw : CounterWidth) (order : ByteOrder) (bytes : List Byte) : Option (List Count × List Byte) :=
  if bytes.length < headerSize cw then none
  else some (readCounters cw order 256 bytes, bytes.drop (headerSize cw))

/-- `CNTS "s"` (R123). -/
def cnts (input : List Byte) : List Instr := input.map .cnt

/-- `ENCS "s"` (R123). -/
def encs (input : List Byte) : List Instr := input.map .enc

/-- `DBYS b0, b1, ...` (R123). -/
def dbys (payload : List Byte) : List Instr := payload.map .dby

/-- `LDFT` (R123): LDF s for s = 0 to 255 in rising order. -/
def ldft (counters : List Count) : List Instr :=
  (List.range 256).map (fun a => .ldf (BitVec.ofNat 8 a) (counters.getD a 0))

/-- RDF 0 to RDF 255, which fetch the counters of the header (R255). -/
def rdft : List Instr := (List.range 256).map (fun a => .rdf (BitVec.ofNat 8 a))

/-- `COMPRESS "s"` (R123). -/
def compressPseudo (input : List Byte) : List Instr := [.clr] ++ cnts input ++ [.bld, .gen] ++ encs input ++ [.efl]

/-- `DECOMPRESS {table}, b0, b1, ...` (R123). -/
def decompressPseudo (counters : List Count) (payload : List Byte) : List Instr :=
  [.clr] ++ ldft counters ++ [.bld, .dst] ++ dbys payload ++ [.den]

/-- The host's compress sequence, which reads the counters after GEN (R255). -/
def compressCommands (input : List Byte) : List Instr :=
  [.clr] ++ cnts input ++ [.bld, .gen] ++ rdft ++ encs input ++ [.efl]

/-- The host's decompress sequence (R256); none for a container shorter than its header (R257). -/
def decompressCommands (cw : CounterWidth) (order : ByteOrder) (container : List Byte) : Option (List Instr) :=
  match splitContainer cw order container with
  | some (counters, payload) => some (decompressPseudo counters payload)
  | none => none

/-- Whether a run reported an error: a response whose status is 8 or above (R258, R280). -/
def runFailed (sent : List Sent) : Bool := (responses sent).any (fun r => 8 ≤ r.st.code.toNat)

/-- The container the host makes of what the engine sent in a compress run of `n` bytes: the data of the 256 RDFs,
which follow CLR, n CNTs, BLD and GEN, serialised, then the bytes emitted (R255); none on any fault status. -/
def containerOfRun (cw : CounterWidth) (order : ByteOrder) (n : Nat) (sent : List Sent) : Option (List Byte) :=
  if runFailed sent then none
  else
    some (containerBytes cw order ((((responses sent).drop (n + 3)).take 256).map (fun r => r.data.setWidth 64))
      (outBytes sent))

/-- The output of a decompress run: the bytes the engine emitted; none on any fault status (R256, R280). -/
def outputOfRun (sent : List Sent) : Option (List Byte) := if runFailed sent then none else some (outBytes sent)

end Sys2Proof.Machine
end

