-- ==== Sys2Proof/Safety.lean ====
section
/-! DEFINITION. The terms claims are stated in: how a command ends (spec/30_encoding.md rule R114, spec/60_exceptions.md
rule R283), the invariants of spec/10_state.md rules R60 to R65, and what a code and the pending bits are as
bit-strings (spec/00_scope.md rule R15). Nothing here is used by the machine. -/

namespace Sys2Proof

/-- The entry is a Leaf. -/
def Node.isLeaf (e : Node) : Bool :=
  match e.kind with
  | .leaf _ => true
  | .internal _ _ => false

/-- "Call a node a forest root when its owner tag is Q, X or R" (R60). -/
def Node.isRoot (e : Node) : Bool := decide (e.own ≠ .p)

end Sys2Proof

namespace Sys2Proof.Machine

/-- The state `s` with the bytes and the one response of a command sent, all else as it was. -/
def State.answered (s : State) (bytes : List Byte) (st : Status) (data : Data) : State :=
  { s with sent := s.sent ++ (bytes.map Sent.byte ++ [Sent.rsp ⟨st, data⟩]) }

/-- The state `s` with a fault of the given code taken for the given word, all else as it was (R283). -/
def State.faulted (s : State) (c : FaultCode) (word : CommandWord) : State :=
  { s with
    errcode := c.code
    errinfo := word
    flags := { s.flags with er := true }
    sent := s.sent ++ [Sent.rsp ⟨.fault c, 0⟩] }

/-- The commands that only read: "no side effect on any state" (R88). -/
def readCommand (i : Instr) : Bool :=
  match i with
  | .rdf _ | .rds _ | .rdh _ | .rdnw _ | .rdnl _ | .rdc _ | .rdcb _ _ => i.wellFormed
  | .nop | .clr | .ldf _ _ | .cnt _ | .pqi _ | .pqx | .mkl | .mrg | .fin | .bld | .gen | .enc _ | .efl | .dst | .dbt _
  | .dby _ | .den => false

/-- `exec` for a number of merges: MRG given `k` times, each of which answers OK (R184). -/
def mergeTimes : Nat → State → Option State
  | 0, s => some s
  | k + 1, s =>
    match exec .mrg s with
    | .next t => if t.sent = s.sent ++ [.rsp ⟨.ok, s.ncnt.setWidth 72⟩] then mergeTimes k t else none
    | .fault _ => none
    | .refused _ => none

/-- `exec` for a sequence of bits: DBT given for each in order (R234). -/
def dbtTimes : List Bool → State → Option State
  | [], s => some s
  | b :: rest, s =>
    match exec (.dbt b) s with
    | .next t => dbtTimes rest t
    | .fault _ => none
    | .refused _ => none

/-- When a command is illegal, in the words of R118: no row of R117 matches the word, RDS names a register above 12, or
RDCB's W is above 7. -/
def IllegalCommand (word : CommandWord) (w : Sideband) : Prop :=
  (∀ r ∈ opcodeTable, word &&& r.mask ≠ r.pattern) ∨
  (word &&& 0xFFFFFF00#32 = 0x05000000#32 ∧ 12 < (word.extractLsb' 0 8).toNat) ∨
  (word &&& 0xFFFFFF00#32 = 0x32000000#32 ∧ 7 < w.toNat)

/-! Memories, widths and registers. -/

/-- Every memory has its canonical form, and no value is wider than its register or entry (R30, R6). -/
abbrev State.StorageOk (s : State) : Prop :=
  Memory.wf 0 256 s.freq = true ∧ Memory.wf Code.none 256 s.code = true ∧
  (∀ p ∈ s.freq, p.2.toNat < 2 ^ s.cfg.bits) ∧
  (∀ e ∈ s.node, e.w.toNat < 2 ^ s.cfg.weightBits) ∧
  s.total.toNat < 2 ^ s.cfg.weightBits ∧ s.emitted.toNat < 2 ^ s.cfg.weightBits ∧
  s.node.length ≤ Config.ncap ∧ s.heap.length ≤ Config.qcap

/-- The sum of the 256 counters (R40). -/
def State.freqSum (s : State) : Nat := (symbols.map (fun a => (s.freqAt a).toNat)).sum

/-- The symbols with a nonzero count, in rising order (R181). -/
def State.present (s : State) : List Byte := symbols.filter (fun a => decide (s.freqAt a ≠ 0))

/-- "NBITS is 0 to 7 and ACC < 2^NBITS" (R64). -/
abbrev State.EncoderOk (s : State) : Prop := s.acc.toNat < 2 ^ s.nbits.toNat

/-- ERRCODE and ERRINFO are 0 while ER = 0, and ERRCODE is one of 8 to 14 while ER = 1 (R49, R50). -/
abbrev State.FaultRecordOk (s : State) : Prop :=
  (s.flags.er = false → s.errcode = 0 ∧ s.errinfo = 0) ∧
  (s.flags.er = true → 8 ≤ s.errcode.toNat ∧ s.errcode.toNat ≤ 14)

/-- The order of the phase flags and the decoder's bound (R48, R65). -/
abbrev State.PhaseOrder (s : State) : Prop :=
  (s.flags.tv = true → s.flags.ql = true) ∧ (s.flags.em = true → s.flags.tv = true) ∧
  (s.flags.dg = true → s.flags.tv = true) ∧ (s.flags.em = true → s.flags.dg = false) ∧
  (s.flags.cv = true → s.flags.tv = true) ∧ (s.flags.ds = true → s.flags.tv = true) ∧
  (s.flags.ds = true → s.emitted.toNat ≤ s.total.toNat)

/-! The tree. -/

/-- The entry n exists and is an Internal node. -/
def State.InternalAt (s : State) (n : Index) : Prop :=
  ∃ e l r, s.node[n.toNat]? = some e ∧ e.kind = .internal l r

/-- Index order, and that what steers the tree and the decoder exists (R61, R62, R65): the queue holds existing nodes, a
child's index is below its parent's, ROOT and CUR name Internal nodes. -/
structure State.Linked (s : State) : Prop where
  arena_fits : s.node.length ≤ Config.ncap
  heap_exists : ∀ n ∈ s.heap, n.toNat < s.node.length
  children_below : ∀ (i : Nat) (e : Node) (l r : Index),
    s.node[i]? = some e → e.kind = .internal l r → l.toNat < i ∧ r.toNat < i
  root_internal : s.flags.tv = true → s.flags.em = false → s.InternalAt s.root
  cursor_internal : s.flags.ds = true → s.flags.em = false → s.InternalAt s.cur

/-- Heap order (R63): no entry of HEAP is lighter than its parent slot's. -/
def HeapOrdered (arena : List Node) (heap : List Index) : Prop :=
  ∀ (i : Nat) (x y : Index), 0 < i → heap[i]? = some x → heap[(i - 1) / 2]? = some y →
    (nodeIn arena y).w.toNat ≤ (nodeIn arena x).w.toNat

/-- The symbols of the Leaf entries, by index. -/
def leafSymbols (arena : List Node) : List Nat :=
  arena.filterMap (fun e => match e.kind with
    | .leaf a => some a.toNat
    | .internal _ _ => none)

/-- The sum of `f` over the forest roots. -/
def rootSum (f : Nat → Node → Nat) (arena : List Node) : Nat :=
  (arena.zipIdx.map (fun p => if p.1.isRoot then f p.2 p.1 else 0)).sum

/-- The forest invariant (R60, and R62 for a finished tree). `heights` is what R208's bound rests on: heights of nodes
that sum, over the forest roots and with one more for each, to at most the number of leaves. -/
structure State.Forest (s : State) : Prop where
  heap_nodup : s.heap.Nodup
  heap_queued : ∀ n : Index, n ∈ s.heap ↔ ∃ e, s.node[n.toNat]? = some e ∧ e.own = .q
  held_by_host : s.node.countP (fun e => decide (e.own = .x)) = s.xcnt.toNat
  has_parent : ∀ (i : Nat) (e : Node), s.node[i]? = some e → e.own = .p →
    ∃ (j : Nat) (e' : Node) (l r : Index), s.node[j]? = some e' ∧ e'.kind = .internal l r ∧ (l.toNat = i ∨ r.toNat = i)
  leaves_first : s.node.Pairwise (fun a b => b.isLeaf = true → a.isLeaf = true)
  symbols_rising : (leafSymbols s.node).Pairwise (· < ·)
  not_loaded : s.flags.ql = false → s.node = [] ∧ s.heap = []
  roots_left : s.flags.dg = false →
    2 * (leafSymbols s.node).length = s.node.length + s.node.countP Node.isRoot
  degenerate : s.flags.dg = true → s.node.length = 2
  finished : s.flags.tv = true → s.heap = [] ∧ s.xcnt = 0
  root_tag : ∀ (i : Nat) (e : Node), s.node[i]? = some e →
    (e.own = .r ↔ s.flags.tv = true ∧ s.flags.em = false ∧ i = s.root.toNat)
  empty_build : s.flags.tv = true → s.flags.em = true → s.node = []
  heights : s.flags.dg = false → ∃ h : Nat → Nat,
    (∀ (i : Nat) (e : Node) (l r : Index), s.node[i]? = some e → e.kind = .internal l r →
      h l.toNat < h i ∧ h r.toNat < h i) ∧
    rootSum (fun i _ => h i + 1) s.node ≤ (leafSymbols s.node).length

/-- The weights of the forest roots add up to TOTAL, and TOTAL to the counters (R40, R62). -/
abbrev State.WeightsAddUp (s : State) : Prop :=
  s.flags.ql = true → rootSum (fun _ e => e.w.toNat) s.node = s.total.toNat ∧ s.total.toNat = s.freqSum

/-- Once the leaves are made, the Leaf entries are exactly one per symbol with a nonzero count, in rising order, with
that count as weight (R62, R181). -/
abbrev State.LeavesAreSymbols (s : State) : Prop :=
  s.flags.ql = true →
    (s.node.filter Node.isLeaf).map (fun e => (e.kind, e.w)) =
      s.present.map (fun a => (Kind.leaf a, (s.freqAt a).setWidth 72))

/-! Codes and bits. -/

/-- The node reached from n by the edges in order, 0 left and 1 right (R200); none past a Leaf or a node that does not
exist. -/
def descend (arena : List Node) : Index → List Bool → Option Index
  | n, [] => some n
  | n, b :: rest =>
    match arena[n.toNat]? with
    | none => none
    | some e => if e.isLeaf then none else descend arena (e.child b) rest

/-- The edges lead from n to a Leaf of symbol a. -/
def LeadsTo (arena : List Node) (n : Index) (edges : List Bool) (a : Byte) : Prop :=
  ∃ m e, descend arena n edges = some m ∧ arena[m.toNat]? = some e ∧ e.kind = .leaf a

/-- The pending bits of ACC, the oldest first: ACC[NBITS-1] down to ACC[0] (R41). -/
def State.pending (s : State) : List Bool := (List.range s.nbits.toNat).reverse.map (fun i => s.acc.getLsbD i)

end Sys2Proof.Machine
end

