-- ==== Sys2Proof/Certificates/Slice0/Obligations.lean ====
section
/-! DEFINITION. The statements for the provers, from the numbered rules of spec/. A state is any state, not only one a
run reaches, unless an invariant of `Sys2Proof/Safety.lean` is a premise; each such invariant is a statement of its own
(section "Invariants"). `s.answered` and `s.faulted` are the two ways a command ends, all else of `s` unchanged. -/

open Sys2Proof Sys2Proof.Machine

/-! Encoding. -/

/-- R110 to R113, R117: decoding the words of a legal command gives the command back, at every value of every
operand. -/
def Obligations.DecodeUndoesEncode : Prop :=
  ∀ i : Instr, i.wellFormed = true → decode (encode i).1 (encode i).2 = .ok i

/-- R117, R118: a word and W that decode to a command are that command's words; the sideband operand is the command's
where it has one (R112). -/
def Obligations.EncodeUndoesDecode : Prop :=
  ∀ (word : CommandWord) (w : Sideband) (i : Instr), decode word w = .ok i →
    encodeWord i = word ∧ i.wellFormed = true ∧
    (∀ (a : Byte) (v : Sideband), i = .ldf a v ∨ i = .rdcb a v → v = w)

/-- R117, R118: the decoder rejects exactly the commands R118 calls illegal, which are told from the table's masks. -/
def Obligations.DecoderRejectsExactlyTheIllegal : Prop :=
  ∀ (word : CommandWord) (w : Sideband), (∃ e, decode word w = .error e) ↔ IllegalCommand word w

/-- R117 and the assembled words of spec/95_test_vectors.md 2.1: a word of each unit and format. -/
def Obligations.SampleWordsDecode : Prop :=
  decode 0x00000000 0 = .ok .nop ∧ decode 0x02000061 3 = .ok (.ldf 0x61 3) ∧ decode 0x030000FF 0 = .ok (.cnt 255) ∧
  decode 0x100001FE 0 = .ok (.pqi 510) ∧ decode 0x23000000 0 = .ok .bld ∧ decode 0x32000061 7 = .ok (.rdcb 0x61 7) ∧
  decode 0x4000007A 0 = .ok (.enc 0x7A) ∧ decode 0x51000001 0 = .ok (.dbt true) ∧
  decode 0x5200001F 0 = .ok (.dby 0x1F) ∧ decode 0x13000000 0 = .error (.unknownOpcode 0x13) ∧
  decode 0x03800061 0 = .error .reservedZ ∧ decode 0x10000200 0 = .error .reservedA

/-! The sequencer. -/

/-- R10, R32, R112: a step takes the host's oldest move; where that is a word that spells a command with the CW bits of
`cmd_w`, the step is that command, run with the move taken. -/
def Obligations.StepRunsTheDecodedCommand : Prop :=
  ∀ (s : State) (word : CommandWord) (w : Sideband) (rest : List Input) (i : Instr),
    s.inputs = .command word w :: rest → decode word (narrowCount s.cfg w) = .ok i →
    step s = exec i { s with inputs := rest }

/-- R118: an illegal command raises E_ILL with its word in ERRINFO, or is refused with E_FAULTED by the faulted engine,
and nothing else changes. The premise on `w` is the port's width: `cmd_w` has CW bits (R31). -/
def Obligations.IllegalCommandFaultsOrIsRefused : Prop :=
  ∀ (s : State) (word : CommandWord) (w : Sideband) (rest : List Input),
    s.inputs = .command word w :: rest → w.toNat < 2 ^ s.cfg.bits → IllegalCommand word w →
    (s.flags.er = false → step s = .next (State.faulted { s with inputs := rest } .ill word)) ∧
    (s.flags.er = true → step s = .next (State.answered { s with inputs := rest } [] .faulted 0))

/-- R293, R310: with no move of the host nothing changes; a reset puts every piece of state at its reset value, with no
response. CFG is a constant (R67); the two channels are the model's own fields (assumption log 2, 3). -/
def Obligations.IdleAndResetMoves : Prop :=
  ∀ s : State,
    (s.inputs = [] → step s = .next s) ∧
    (∀ rest, s.inputs = .reset :: rest →
      step s = .next { State.reset with cfg := s.cfg, inputs := rest, sent := s.sent })

/-- R32, R91, R114: a step that takes a command sends its bytes and then exactly one response; a status of 8 or above
comes with data 0 (R114) and no byte (R283 for a fault, R285 for a refusal). That the step takes no other move is the
model's own: the queue of moves is changed by no command (assumption log 2). -/
def Obligations.OneResponsePerCommand : Prop :=
  ∀ (s t : State) (word : CommandWord) (w : Sideband) (rest : List Input),
    s.inputs = .command word w :: rest → step s = .next t →
    ∃ (bytes : List Byte) (st : Status) (data : Data),
      t.sent = s.sent ++ (bytes.map Sent.byte ++ [Sent.rsp ⟨st, data⟩]) ∧ t.inputs = rest ∧
      (8 ≤ st.code.toNat → data = 0 ∧ bytes = [])

/-- R33: only ENC, EFL, DBT and DBY emit bytes. -/
def Obligations.OnlyCodecCommandsEmitBytes : Prop :=
  ∀ (i : Instr) (s t : State), (∀ a, i ≠ .enc a) → i ≠ .efl → (∀ b, i ≠ .dbt b) → (∀ a, i ≠ .dby a) →
    exec i s = .next t → ∃ r, t.sent = s.sent ++ [Sent.rsp r]

/-- R10, R270, R319: no command is refused by the model, and only the tree builder's and the generator's commands can
stop it (in states no run reaches, `Obligations.ForestKeptAndNoStop`). -/
def Obligations.OnlyBuildersCanStop : Prop :=
  ∀ (i : Instr) (s : State),
    (∀ r, exec i s ≠ .refused r) ∧
    (i ≠ .mkl → i ≠ .mrg → i ≠ .fin → i ≠ .bld → i ≠ .gen → ∃ t, exec i s = .next t)

/-! Faults. -/

/-- R285: the faulted engine runs NOP (R141), CLR (R142, R67) and the reads as usual and answers (E_FAULTED, 0) to
everything else, changing nothing. That CLR leaves the two channels as they are is the model's own (assumption log 2,
3). Illegal words are in `Obligations.IllegalCommandFaultsOrIsRefused`. -/
def Obligations.FaultedEngineAccepts : Prop :=
  ∀ (i : Instr) (s : State), s.flags.er = true →
    (i ≠ .nop → i ≠ .clr → readCommand i = false → exec i s = .next (s.answered [] .faulted 0)) ∧
    (readCommand i = true → ∃ st data, (st = .ok ∨ st = .empty) ∧ exec i s = .next (s.answered [] st data)) ∧
    exec .nop s = .next (s.answered [] .ok 0) ∧
    exec .clr s =
      .next (State.answered { State.reset with cfg := s.cfg, inputs := s.inputs, sent := s.sent } [] .ok 0)

/-- R272: the phase check of every command, in the unfaulted engine. -/
def Obligations.OutOfSequenceFaults : Prop :=
  ∀ s : State, s.flags.er = false →
    (s.flags.ql = true ∨ s.flags.tv = true →
      (∀ a w, exec (.ldf a w) s = .next (s.faulted .seq (encodeWord (.ldf a w)))) ∧
      (∀ a, exec (.cnt a) s = .next (s.faulted .seq (encodeWord (.cnt a)))) ∧
      exec .mkl s = .next (s.faulted .seq 0x20000000) ∧ exec .bld s = .next (s.faulted .seq 0x23000000)) ∧
    (s.flags.tv = true →
      (∀ n, exec (.pqi n) s = .next (s.faulted .seq (encodeWord (.pqi n)))) ∧
      exec .pqx s = .next (s.faulted .seq 0x11000000)) ∧
    (s.flags.ql = false ∨ s.flags.tv = true → exec .mrg s = .next (s.faulted .seq 0x21000000)) ∧
    (s.flags.ql = false ∨ s.flags.tv = true ∨ 1 < s.heap.length ∨ s.xcnt ≠ 0 →
      exec .fin s = .next (s.faulted .seq 0x22000000)) ∧
    (s.flags.tv = false →
      exec .gen s = .next (s.faulted .seq 0x30000000) ∧ exec .dst s = .next (s.faulted .seq 0x50000000)) ∧
    (s.flags.cv = false →
      (∀ a, exec (.enc a) s = .next (s.faulted .seq (encodeWord (.enc a)))) ∧
      exec .efl s = .next (s.faulted .seq 0x41000000)) ∧
    (s.flags.ds = false →
      (∀ b, exec (.dbt b) s = .next (s.faulted .seq (encodeWord (.dbt b)))) ∧
      (∀ a, exec (.dby a) s = .next (s.faulted .seq (encodeWord (.dby a)))) ∧
      exec .den s = .next (s.faulted .seq 0x53000000))

/-- R283, R284: a command that latches a fault has written the three fault registers and sent (code, 0), and nothing
else. -/
def Obligations.FaultsArePrecise : Prop :=
  ∀ (i : Instr) (s t : State), s.flags.er = false → exec i s = .next t → t.flags.er = true →
    ∃ c, t = s.faulted c (encodeWord i)

/-- R285, R286: once a fault is latched, no command but CLR changes any state; each only sends its response. -/
def Obligations.FaultedStateLeftOnlyByClr : Prop :=
  ∀ (i : Instr) (s t : State), s.flags.er = true → i ≠ .clr → exec i s = .next t →
    ∃ r, t = { s with sent := s.sent ++ [Sent.rsp r] }

/-- R49, R50: every step keeps ERRCODE and ERRINFO at 0 while ER = 0 and ERRCODE at 8 to 14 while ER = 1. -/
def Obligations.FaultRecordKept : Prop :=
  ∀ s t : State, s.FaultRecordOk → step s = .next t → t.FaultRecordOk

/-! Control and frequency table. -/

/-- R141: NOP answers (OK, 0) in any state and changes nothing. -/
def Obligations.NopChangesNothing : Prop :=
  encodeWord .nop = 0 ∧ ∀ s : State, exec .nop s = .next (s.answered [] .ok 0)

/-- R142: CLR puts every piece of state at its value of R67 in any state, faulted or not, and answers (OK, 0). CFG is
the constant CW (R67); the two channels are the model's own fields (assumption log 2, 3). -/
def Obligations.ClrRestoresReset : Prop :=
  encodeWord .clr = 0x01000000 ∧
  ∀ s : State, exec .clr s =
    .next (State.answered { State.reset with cfg := s.cfg, inputs := s.inputs, sent := s.sent } [] .ok 0)

/-- R143: LDF replaces one counter by the CW bits of W; E_SEQ once the leaves have been made. -/
def Obligations.LdfLoadsOneCounter : Prop :=
  ∀ (a : Byte) (w : Sideband) (s : State), s.flags.er = false →
    encodeWord (.ldf a w) = 0x02000000#32 ||| a.setWidth 32 ∧
    (s.flags.ql = true ∨ s.flags.tv = true → exec (.ldf a w) s = .next (s.faulted .seq (encodeWord (.ldf a w)))) ∧
    (s.flags.ql = false → s.flags.tv = false →
      ∃ t, exec (.ldf a w) s = .next t ∧ (t.freqAt a).toNat = w.toNat % 2 ^ s.cfg.bits ∧
        (∀ b, b ≠ a → t.freqAt b = s.freqAt b) ∧
        t = { s with freq := t.freq, sent := s.sent ++ [Sent.rsp ⟨.ok, 0⟩] })

/-- R144: CNT adds one to one counter; E_OVF at 2^CW - 1, the counter unchanged; E_SEQ once the leaves have been made.
The premise on the counter is its width (`Obligations.StorageKept`). -/
def Obligations.CntCountsOneByte : Prop :=
  ∀ (a : Byte) (s : State), s.flags.er = false → (s.freqAt a).toNat < 2 ^ s.cfg.bits →
    encodeWord (.cnt a) = 0x03000000#32 ||| a.setWidth 32 ∧
    (s.flags.ql = true ∨ s.flags.tv = true → exec (.cnt a) s = .next (s.faulted .seq (encodeWord (.cnt a)))) ∧
    (s.flags.ql = false → s.flags.tv = false →
      ((s.freqAt a).toNat = 2 ^ s.cfg.bits - 1 → exec (.cnt a) s = .next (s.faulted .ovf (encodeWord (.cnt a)))) ∧
      ((s.freqAt a).toNat ≠ 2 ^ s.cfg.bits - 1 →
        ∃ t, exec (.cnt a) s = .next t ∧ (t.freqAt a).toNat = (s.freqAt a).toNat + 1 ∧
          (∀ b, b ≠ a → t.freqAt b = s.freqAt b) ∧
          t = { s with freq := t.freq, sent := s.sent ++ [Sent.rsp ⟨.ok, 0⟩] }))

/-- R145: RDF answers the counter, in every phase and in the faulted state, and changes nothing. -/
def Obligations.RdfReadsOneCounter : Prop :=
  ∀ (a : Byte) (s : State), encodeWord (.rdf a) = 0x04000000#32 ||| a.setWidth 32 ∧
    exec (.rdf a) s = .next (s.answered [] .ok ((s.freqAt a).setWidth 72))

/-- R146 with the register numbers of R51: RDS answers the register zero-extended, in every phase and in the faulted
state, and changes nothing; STATUS has DD computed (R48); a number above 12 is an illegal encoding (R118). NCNT and HSZ
are the numbers of entries, 9 bits. -/
def Obligations.RdsReadsTheRegister : Prop :=
  ∀ (s : State),
    (∀ r : Byte, encodeWord (.rds r) = 0x05000000#32 ||| r.setWidth 32) ∧
    exec (.rds 0) s = .next (s.answered [] .ok (BitVec.ofNat 72 s.cfg.bits)) ∧
    exec (.rds 1) s = .next (s.answered [] .ok (BitVec.ofNat 72
      (s.flags.ql.toNat + 2 * s.flags.tv.toNat + 4 * s.flags.em.toNat + 8 * s.flags.dg.toNat + 16 * s.flags.cv.toNat +
        32 * s.flags.ds.toNat + 64 * (s.flags.ds && decide (s.emitted = s.total)).toNat + 128 * s.flags.er.toNat))) ∧
    exec (.rds 2) s = .next (s.answered [] .ok (s.errcode.setWidth 72)) ∧
    exec (.rds 3) s = .next (s.answered [] .ok (s.errinfo.setWidth 72)) ∧
    exec (.rds 4) s = .next (s.answered [] .ok (BitVec.ofNat 72 (s.node.length % 512))) ∧
    exec (.rds 5) s = .next (s.answered [] .ok (BitVec.ofNat 72 (s.heap.length % 512))) ∧
    exec (.rds 6) s = .next (s.answered [] .ok (s.root.setWidth 72)) ∧
    exec (.rds 7) s = .next (s.answered [] .ok s.total) ∧
    exec (.rds 8) s = .next (s.answered [] .ok (s.acc.setWidth 72)) ∧
    exec (.rds 9) s = .next (s.answered [] .ok (s.nbits.setWidth 72)) ∧
    exec (.rds 10) s = .next (s.answered [] .ok (s.cur.setWidth 72)) ∧
    exec (.rds 11) s = .next (s.answered [] .ok s.emitted) ∧
    exec (.rds 12) s = .next (s.answered [] .ok (s.xcnt.setWidth 72)) ∧
    (∀ r : Byte, 12 < r.toNat →
      (s.flags.er = false → exec (.rds r) s = .next (s.faulted .ill (encodeWord (.rds r)))) ∧
      (s.flags.er = true → exec (.rds r) s = .next (s.answered [] .faulted 0)))

/-! Priority queue. -/

/-- R161, R162, R163: the comparison and the two heap procedures, line by line. PQ.insert puts the node at slot HSZ and
sifts it up from there; PQ.extractMin returns HEAP[0], moves the last entry to slot 0 and sifts it down from there. One
round of the sift-up swaps past a parent that is strictly heavier and stops at slot 0 and below any other parent. One
round of the sift-down takes for `s` the left child 2i+1 where it is below HSZ and strictly lighter than slot i, else i;
for `j` the right child 2i+2 where it is below HSZ and strictly lighter than slot `s`, else `s`; it stops where j is i
and else swaps. The bound on the number of rounds that the model's recursion carries does not show, as long as it is no
smaller than the number of rounds there can be. -/
def Obligations.SiftLoopsFollowTheRules : Prop :=
  (∀ (arena : List Node) (x y : Index),
    lighter arena x y = true ↔ (nodeIn arena x).w.toNat < (nodeIn arena y).w.toNat) ∧
  ∀ (lt : Index → Index → Bool),
    (∀ (heap : List Index) (n : Index),
      heapInsert lt heap n = siftUp lt heap.length (heap ++ [n]) heap.length) ∧
    heapExtract lt [] = none ∧ (∀ m, heapExtract lt [m] = some (m, [])) ∧
    (∀ (m last : Index) (mid : List Index),
      heapExtract lt (m :: (mid ++ [last])) = some (m, siftDown lt (mid.length + 1) (last :: mid) 0)) ∧
    ∀ (fuel : Nat) (heap : List Index) (i : Nat) (x : Index), heap[i]? = some x →
      (i = 0 → siftUp lt fuel heap i = heap) ∧
      (∀ y, 0 < i → i ≤ fuel → heap[(i - 1) / 2]? = some y →
        siftUp lt fuel heap i =
          if lt x y then siftUp lt ((i - 1) / 2) ((heap.set i y).set ((i - 1) / 2) x) ((i - 1) / 2) else heap) ∧
      (∀ (s j : Nat) (z y : Index), heap.length ≤ fuel + i →
        ((s = 2 * i + 1 ∧ ∃ l, heap[2 * i + 1]? = some l ∧ lt l x = true) ∨
          (s = i ∧ ∀ l, heap[2 * i + 1]? = some l → lt l x = false)) →
        heap[s]? = some z →
        ((j = 2 * i + 2 ∧ ∃ r, heap[2 * i + 2]? = some r ∧ lt r z = true) ∨
          (j = s ∧ ∀ r, heap[2 * i + 2]? = some r → lt r z = false)) →
        heap[j]? = some y →
        siftDown lt fuel heap i =
          if j = i then heap else siftDown lt heap.length ((heap.set i y).set j x) j)

/-- R160, R162, R63: PQ.insert adds the node once, loses none, and keeps the heap order. -/
def Obligations.InsertKeepsTheHeap : Prop :=
  ∀ (arena : List Node) (heap : List Index) (n : Index), HeapOrdered arena heap →
    HeapOrdered arena (heapInsert (lighter arena) heap n) ∧ (heapInsert (lighter arena) heap n).Perm (n :: heap)

/-- R160, R163, R63: PQ.extractMin on a queue that is not empty returns a node no heavier than any in the queue, removes
it and no other, and keeps the heap order. -/
def Obligations.ExtractTakesTheLeast : Prop :=
  ∀ (arena : List Node) (heap : List Index), HeapOrdered arena heap → heap ≠ [] →
    ∃ m rest, heapExtract (lighter arena) heap = some (m, rest) ∧ heap.Perm (m :: rest) ∧ HeapOrdered arena rest ∧
      ∀ n ∈ heap, (nodeIn arena m).w.toNat ≤ (nodeIn arena n).w.toNat

/-- R166, R274: PQI gives a node the host holds back to the queue: its tag is Q, XCNT is one less, and it is inserted by
PQ.insert. E_SEQ once the tree is finished, E_NODE for a node the host does not hold. With 256 entries PQ.insert raises
E_QFULL (R275); that the fault then stands over the state from before PQI's own writes is DEDUCED (assumption log 9). -/
def Obligations.PqiInsertsTheNode : Prop :=
  ∀ (n : Index) (s : State), s.flags.er = false →
    encodeWord (.pqi n) = 0x10000000#32 ||| n.setWidth 32 ∧
    (s.flags.tv = true → exec (.pqi n) s = .next (s.faulted .seq (encodeWord (.pqi n)))) ∧
    (s.flags.tv = false →
      (¬ (∃ e, s.node[n.toNat]? = some e ∧ e.own = .x) →
        exec (.pqi n) s = .next (s.faulted .node (encodeWord (.pqi n)))) ∧
      ((∃ e, s.node[n.toNat]? = some e ∧ e.own = .x) →
        (256 ≤ s.heap.length → exec (.pqi n) s = .next (s.faulted .qfull (encodeWord (.pqi n)))) ∧
        (s.heap.length < 256 →
          ∃ t, exec (.pqi n) s = .next t ∧ t.heap = heapInsert (lighter s.node) s.heap n ∧
            t.node.length = s.node.length ∧
            (∀ (m : Nat) (e : Node), s.node[m]? = some e →
              t.node[m]? = some (if m = n.toNat then { e with own := .q } else e)) ∧
            t = { s with
              node := t.node
              heap := t.heap
              xcnt := s.xcnt - 1
              sent := s.sent ++ [Sent.rsp ⟨.ok, 0⟩] })))

/-- R167: PQX takes the least node out of the queue by PQ.extractMin: its tag is X, XCNT is one more, and the response
is its index; EMPTY on an empty queue, nothing changed; E_SEQ once the tree is finished. The premise that the queue
holds existing nodes is an invariant (`Obligations.LinkedKept`). -/
def Obligations.PqxExtractsTheLeast : Prop :=
  ∀ s : State, s.flags.er = false → (∀ n ∈ s.heap, n.toNat < s.node.length) →
    encodeWord .pqx = 0x11000000 ∧
    (s.flags.tv = true → exec .pqx s = .next (s.faulted .seq 0x11000000)) ∧
    (s.flags.tv = false →
      (s.heap = [] → exec .pqx s = .next (s.answered [] .empty 0)) ∧
      (s.heap ≠ [] →
        ∃ m rest t, heapExtract (lighter s.node) s.heap = some (m, rest) ∧ exec .pqx s = .next t ∧
          t.node.length = s.node.length ∧
          (∀ (j : Nat) (e : Node), s.node[j]? = some e →
            t.node[j]? = some (if j = m.toNat then { e with own := .x } else e)) ∧
          t = { s with
            node := t.node
            heap := rest
            xcnt := s.xcnt + 1
            sent := s.sent ++ [Sent.rsp ⟨.ok, m.setWidth 72⟩] }))

/-- R168: RDH answers a slot of HEAP, EMPTY at or above HSZ, in every phase and in the faulted state, and changes
nothing. -/
def Obligations.RdhReadsTheSlot : Prop :=
  ∀ (i : Index) (s : State), encodeWord (.rdh i) = 0x12000000#32 ||| i.setWidth 32 ∧
    (s.heap.length ≤ i.toNat → exec (.rdh i) s = .next (s.answered [] .empty 0)) ∧
    (∀ n, s.heap[i.toNat]? = some n → exec (.rdh i) s = .next (s.answered [] .ok (n.setWidth 72)))

/-! Tree builder. -/

/-- R181: from a run whose leaves have not been made, MKL makes one Leaf per present symbol in rising order, inserts
each, sets TOTAL to the sum of the counters and QL, and answers the number of leaves. That NODE and HEAP are empty
before MKL is an invariant (`Obligations.ForestKeptAndNoStop`), as is the counters' width. -/
def Obligations.MklMakesTheLeaves : Prop :=
  ∀ s : State, s.flags.er = false →
    encodeWord .mkl = 0x20000000 ∧
    (s.flags.ql = true ∨ s.flags.tv = true → exec .mkl s = .next (s.faulted .seq 0x20000000)) ∧
    (s.flags.ql = false → s.flags.tv = false → s.node = [] → s.heap = [] →
      (∀ a, (s.freqAt a).toNat < 2 ^ s.cfg.bits) →
      ∃ t, exec .mkl s = .next t ∧
        t.node = s.present.map (fun a => ⟨.leaf a, (s.freqAt a).setWidth 72, .q⟩) ∧
        t.heap = (List.range s.present.length).foldl
          (fun heap n => heapInsert (lighter t.node) heap (BitVec.ofNat 9 n)) [] ∧
        t.total.toNat = s.freqSum ∧
        t = { s with
          node := t.node
          heap := t.heap
          total := t.total
          flags := { s.flags with ql := true }
          sent := s.sent ++ [Sent.rsp ⟨.ok, BitVec.ofNat 72 s.present.length⟩] })

/-- R182: MRG extracts two nodes, the first becoming the left child, tags both P, allocates their parent with the sum
of their weights and inserts it; EMPTY, nothing changed, with fewer than two nodes; E_SEQ before MKL and after FIN. The
premises on the arena and the queue are invariants (`Obligations.LinkedKept`, `Obligations.ForestKeptAndNoStop`). -/
def Obligations.MrgMergesTheTwoLeast : Prop :=
  ∀ s : State, s.flags.er = false →
    encodeWord .mrg = 0x21000000 ∧
    (s.flags.ql = false ∨ s.flags.tv = true → exec .mrg s = .next (s.faulted .seq 0x21000000)) ∧
    (s.flags.ql = true → s.flags.tv = false →
      (s.heap.length < 2 → exec .mrg s = .next (s.answered [] .empty 0)) ∧
      (2 ≤ s.heap.length → s.heap.length ≤ 256 → s.node.length < 511 → (∀ n ∈ s.heap, n.toNat < s.node.length) →
        ∃ a b h1 h2 t, heapExtract (lighter s.node) s.heap = some (a, h1) ∧
          heapExtract (lighter s.node) h1 = some (b, h2) ∧ exec .mrg s = .next t ∧
          t.node.length = s.node.length + 1 ∧
          (∀ (j : Nat) (e : Node), s.node[j]? = some e →
            t.node[j]? = some (if j = a.toNat ∨ j = b.toNat then { e with own := .p } else e)) ∧
          t.node[s.node.length]? =
            some ⟨.internal a b, narrowWeight s.cfg ((s.nodeAt a).w + (s.nodeAt b).w), .q⟩ ∧
          t.heap = heapInsert (lighter t.node) h2 (BitVec.ofNat 9 s.node.length) ∧
          t = { s with
            node := t.node
            heap := t.heap
            sent := s.sent ++ [Sent.rsp ⟨.ok, BitVec.ofNat 72 s.node.length⟩] }))

/-- R183, R187, R188: FIN with no node left reports the empty build; with a Leaf left it makes the synthetic root, an
Internal node whose two child fields name the Leaf and whose weight is the Leaf's; with an Internal node left that node
is the root. E_SEQ while merges remain or the host holds a node. -/
def Obligations.FinNamesTheRoot : Prop :=
  ∀ s : State, s.flags.er = false →
    encodeWord .fin = 0x22000000 ∧
    (s.flags.ql = false ∨ s.flags.tv = true ∨ 1 < s.heap.length ∨ s.xcnt ≠ 0 →
      exec .fin s = .next (s.faulted .seq 0x22000000)) ∧
    (s.flags.ql = true → s.flags.tv = false → s.xcnt = 0 →
      (s.heap = [] →
        exec .fin s = .next (State.answered { s with root := 0, flags := { s.flags with em := true, tv := true } }
          [] .empty 0)) ∧
      (∀ (m : Index) (e : Node), s.heap = [m] → s.node[m.toNat]? = some e →
        (e.isLeaf = false →
          ∃ t, exec .fin s = .next t ∧ t.node.length = s.node.length ∧
            (∀ (j : Nat) (f : Node), s.node[j]? = some f →
              t.node[j]? = some (if j = m.toNat then { f with own := .r } else f)) ∧
            t = { s with
              node := t.node
              heap := []
              root := m
              flags := { s.flags with tv := true }
              sent := s.sent ++ [Sent.rsp ⟨.ok, m.setWidth 72⟩] }) ∧
        (e.isLeaf = true → s.node.length < 511 →
          ∃ t, exec .fin s = .next t ∧ t.node.length = s.node.length + 1 ∧
            (∀ (j : Nat) (f : Node), s.node[j]? = some f →
              t.node[j]? = some (if j = m.toNat then { f with own := .p } else f)) ∧
            t.node[s.node.length]? = some ⟨.internal m m, narrowWeight s.cfg e.w, .r⟩ ∧
            t = { s with
              node := t.node
              heap := []
              root := BitVec.ofNat 9 s.node.length
              flags := { s.flags with dg := true, tv := true }
              sent := s.sent ++ [Sent.rsp ⟨.ok, BitVec.ofNat 72 s.node.length⟩] })))

/-- R184: "The state after BLD equals the state after `MKL`, then `MRG` repeated until it answers EMPTY, then `FIN`",
and BLD's response is FIN's. -/
def Obligations.BldIsTheStagedBuild : Prop :=
  ∀ (s s1 s2 s3 : State) (k : Nat) (r : Response), s.flags.er = false →
    exec .mkl s = .next s1 → s1.flags.er = false → mergeTimes k s1 = some s2 →
    exec .mrg s2 = .next (s2.answered [] .empty 0) →
    exec .fin s2 = .next s3 → s3.flags.er = false → s3.sent = s2.sent ++ [Sent.rsp r] →
    exec .bld s = .next { s3 with sent := s.sent ++ [Sent.rsp r] }

/-- R184, R187, R188, R189: from a run whose leaves have not been made, BLD completes: the queue is empty, TV is set, EM
exactly when no symbol is present and DG exactly when one is, the arena has no entry, two entries, or 2K - 1 for K
symbols, and TOTAL is the sum of the counters; the response is EMPTY or the root. E_SEQ once the leaves have been
made. -/
def Obligations.BldBuildsTheTree : Prop :=
  ∀ s : State, s.flags.er = false →
    encodeWord .bld = 0x23000000 ∧
    (s.flags.ql = true ∨ s.flags.tv = true → exec .bld s = .next (s.faulted .seq 0x23000000)) ∧
    (s.PhaseOrder → s.Forest → s.flags.ql = false → (∀ a, (s.freqAt a).toNat < 2 ^ s.cfg.bits) →
      ∃ t, exec .bld s = .next t ∧
        t.node.length =
          (if s.present.length = 0 then 0 else if s.present.length = 1 then 2 else 2 * s.present.length - 1) ∧
        t.root.toNat = t.node.length - 1 ∧ t.total.toNat = s.freqSum ∧
        t = { s with
          node := t.node
          heap := []
          root := t.root
          total := t.total
          flags := { s.flags with
            ql := true
            tv := true
            em := decide (s.present.length = 0)
            dg := decide (s.present.length = 1) }
          sent := s.sent ++ [Sent.rsp
            (if s.present.length = 0 then ⟨.empty, 0⟩ else ⟨.ok, t.root.setWidth 72⟩)] })

/-- R185: RDNW answers a node's weight, EMPTY at or above NCNT, in every phase and in the faulted state, and changes
nothing. -/
def Obligations.RdnwReadsTheWeight : Prop :=
  ∀ (n : Index) (s : State), encodeWord (.rdnw n) = 0x24000000#32 ||| n.setWidth 32 ∧
    (s.node.length ≤ n.toNat → exec (.rdnw n) s = .next (s.answered [] .empty 0)) ∧
    (∀ e, s.node[n.toNat]? = some e → exec (.rdnw n) s = .next (s.answered [] .ok e.w))

/-- R186: RDNL answers l in bits 8:0, r in 17:9, sym in 25:18, k in 26 and own in 28:27, zeros above; EMPTY at or above
NCNT; in every phase and in the faulted state, changing nothing. -/
def Obligations.RdnlReadsTheLinks : Prop :=
  ∀ (n : Index) (s : State), encodeWord (.rdnl n) = 0x25000000#32 ||| n.setWidth 32 ∧
    (s.node.length ≤ n.toNat → exec (.rdnl n) s = .next (s.answered [] .empty 0)) ∧
    (∀ e, s.node[n.toNat]? = some e →
      ∃ d : Data, exec (.rdnl n) s = .next (s.answered [] .ok d) ∧ d.extractLsb' 0 9 = e.left ∧
        d.extractLsb' 9 9 = e.right ∧ d.extractLsb' 18 8 = e.sym ∧ d.extractLsb' 26 1 = e.k ∧
        d.extractLsb' 27 2 = e.own.bits ∧ d.toNat < 2 ^ 29)

/-! Code table generator. -/

/-- R201, R187, R204: GEN of an empty build writes an empty table, GEN of a degenerate build the code "0" for the one
symbol and no other entry; E_SEQ before the build is finished. -/
def Obligations.GenOfDegenerateBuilds : Prop :=
  ∀ s : State, s.flags.er = false →
    encodeWord .gen = 0x30000000 ∧
    (s.flags.tv = false → exec .gen s = .next (s.faulted .seq 0x30000000)) ∧
    (s.flags.tv = true →
      (s.flags.em = true →
        ∃ t, exec .gen s = .next t ∧ (∀ a, t.codeAt a = Code.none) ∧
          t = { s with
            code := t.code
            flags := { s.flags with cv := true }
            sent := s.sent ++ [Sent.rsp ⟨.ok, 0⟩] }) ∧
      (s.flags.em = false → s.flags.dg = true →
        ∃ t, exec .gen s = .next t ∧
          (∀ a, t.codeAt a = if a = (s.nodeAt (s.nodeAt s.root).left).sym then ⟨1, 0⟩ else Code.none) ∧
          t = { s with
            code := t.code
            flags := { s.flags with cv := true }
            sent := s.sent ++ [Sent.rsp ⟨.ok, 1⟩] }))

/-- R200, R201, R202, R205 (1), R208: GEN of a finished tree of two or more leaves completes; the code of every symbol
with a Leaf is the path from ROOT to it, a symbol without one has no entry, and the response counts the leaves. -/
def Obligations.GenCodesAreTreePaths : Prop :=
  ∀ s : State, s.PhaseOrder → s.Linked → s.Forest → s.flags.er = false → s.flags.tv = true → s.flags.em = false →
    s.flags.dg = false →
    ∃ t, exec .gen s = .next t ∧
      (∀ a, (∃ e ∈ s.node, e.kind = .leaf a) →
        0 < (t.codeAt a).len.toNat ∧ LeadsTo s.node s.root (t.codeAt a).bits a) ∧
      (∀ a, ¬ (∃ e ∈ s.node, e.kind = .leaf a) → t.codeAt a = Code.none) ∧
      t = { s with
        code := t.code
        flags := { s.flags with cv := true }
        sent := s.sent ++ [Sent.rsp ⟨.ok, BitVec.ofNat 72 (leafSymbols s.node).length⟩] }

/-- R205 (2): "for all pairs of distinct symbols present in a tree, neither code is a prefix of the other". -/
def Obligations.GenCodesArePrefixFree : Prop :=
  ∀ s : State, s.PhaseOrder → s.Linked → s.Forest → s.flags.er = false → s.flags.tv = true →
    ∃ t, exec .gen s = .next t ∧
      ∀ a b, a ≠ b → 0 < (t.codeAt a).len.toNat → 0 < (t.codeAt b).len.toNat →
        ¬ (t.codeAt a).bits <+: (t.codeAt b).bits

/-- R206, R207: RDC answers the length of a code, RDCB bits 32k+31 to 32k of its value, 0 above bit 254; in every phase
and in the faulted state, changing nothing; a slice number above 7 is an illegal encoding (R118). -/
def Obligations.RdcAndRdcbReadTheCode : Prop :=
  ∀ (a : Byte) (k : Sideband) (s : State),
    encodeWord (.rdc a) = 0x31000000#32 ||| a.setWidth 32 ∧ encodeWord (.rdcb a k) = 0x32000000#32 ||| a.setWidth 32 ∧
    exec (.rdc a) s = .next (s.answered [] .ok ((s.codeAt a).len.setWidth 72)) ∧
    (k.toNat ≤ 7 →
      ∃ d : Data, exec (.rdcb a k) s = .next (s.answered [] .ok d) ∧ d.toNat < 2 ^ 32 ∧
        ∀ j, j < 32 → d.getLsbD j = (s.codeAt a).val.getLsbD (32 * k.toNat + j)) ∧
    (7 < k.toNat →
      (s.flags.er = false → exec (.rdcb a k) s = .next (s.faulted .ill (encodeWord (.rdcb a k)))) ∧
      (s.flags.er = true → exec (.rdcb a k) s = .next (s.answered [] .faulted 0)))

/-! Bitstream encoder. -/

/-- R216, R81, R82, R218: ENC appends the bits of the code, root edge first, to the pending bits; what fills whole bytes
is emitted most significant bit first and counted in the response, the rest stays pending, with zeros above it in ACC
where there were (R64). E_NOCODE for a symbol without a code, E_SEQ before GEN. -/
def Obligations.EncPacksTheCode : Prop :=
  ∀ (a : Byte) (s : State), s.flags.er = false →
    encodeWord (.enc a) = 0x40000000#32 ||| a.setWidth 32 ∧
    (s.flags.cv = false → exec (.enc a) s = .next (s.faulted .seq (encodeWord (.enc a)))) ∧
    (s.flags.cv = true →
      ((s.codeAt a).len = 0 → exec (.enc a) s = .next (s.faulted .nocode (encodeWord (.enc a)))) ∧
      ((s.codeAt a).len ≠ 0 →
        ∃ (t : State) (bytes : List Byte), exec (.enc a) s = .next t ∧
          bytes.flatMap byteBits ++ t.pending = s.pending ++ (s.codeAt a).bits ∧ (s.EncoderOk → t.EncoderOk) ∧
          t = { s with
            acc := t.acc
            nbits := t.nbits
            sent := s.sent ++ (bytes.map Sent.byte ++ [Sent.rsp ⟨.ok, BitVec.ofNat 72 bytes.length⟩]) }))

/-- R217, R86: EFL emits the pending bits followed by zeros as one byte, and nothing with no pending bit; E_SEQ before
GEN. -/
def Obligations.EflPadsTheLastByte : Prop :=
  ∀ s : State, s.flags.er = false →
    encodeWord .efl = 0x41000000 ∧
    (s.flags.cv = false → exec .efl s = .next (s.faulted .seq 0x41000000)) ∧
    (s.flags.cv = true →
      (s.nbits = 0 → exec .efl s = .next (s.answered [] .ok 0)) ∧
      (s.nbits ≠ 0 →
        ∃ b : Byte, byteBits b = s.pending ++ List.replicate (8 - s.nbits.toNat) false ∧
          exec .efl s = .next (State.answered { s with acc := 0, nbits := 0 } [b] .ok 1)))

/-- R64: every step keeps ACC below 2^NBITS. -/
def Obligations.EncoderRegistersKept : Prop :=
  ∀ s t : State, s.EncoderOk → step s = .next t → t.EncoderOk

/-! Bitstream decoder. -/

/-- R232: DST puts the cursor at ROOT, EMITTED at 0 and sets DS; E_SEQ before the build is finished. -/
def Obligations.DstStartsTheDecoder : Prop :=
  ∀ s : State, s.flags.er = false →
    encodeWord .dst = 0x50000000 ∧
    (s.flags.tv = false → exec .dst s = .next (s.faulted .seq 0x50000000)) ∧
    (s.flags.tv = true →
      exec .dst s = .next (State.answered
        { s with cur := s.root, emitted := 0, flags := { s.flags with ds := true } } [] .ok 0))

/-- R231, R233: DBT ignores the bit once all symbols are out; else it moves to the child the bit names, and at a Leaf
emits its symbol, counts it and returns to ROOT. E_SEQ before DST. The premises on EMITTED and TOTAL are invariants
(`Obligations.StorageKept`, `Obligations.PhaseOrderKept`). -/
def Obligations.DbtTakesOneEdge : Prop :=
  ∀ (b : Bool) (s : State), s.flags.er = false →
    encodeWord (.dbt b) = 0x51000000#32 ||| BitVec.ofNat 32 b.toNat ∧
    (s.flags.ds = false → exec (.dbt b) s = .next (s.faulted .seq (encodeWord (.dbt b)))) ∧
    (s.flags.ds = true → s.emitted.toNat ≤ s.total.toNat → s.total.toNat < 2 ^ s.cfg.weightBits →
      (s.emitted = s.total → exec (.dbt b) s = .next (s.answered [] .ok 0)) ∧
      (s.emitted ≠ s.total →
        (∀ a, (s.nodeAt ((s.nodeAt s.cur).child b)).kind = .leaf a →
          exec (.dbt b) s =
            .next (State.answered { s with emitted := s.emitted + 1, cur := s.root } [a] .ok 1)) ∧
        ((s.nodeAt ((s.nodeAt s.cur).child b)).isLeaf = false →
          exec (.dbt b) s = .next (State.answered { s with cur := (s.nodeAt s.cur).child b } [] .ok 0))))

/-- R234: "`DBY a` has exactly the effect and output of the eight commands `DBT a[7]`, ..., `DBT a[0]` and its data is
the sum of theirs"; E_SEQ before DST. -/
def Obligations.DbyIsEightDbt : Prop :=
  ∀ (a : Byte) (s : State), s.flags.er = false →
    encodeWord (.dby a) = 0x52000000#32 ||| a.setWidth 32 ∧
    (s.flags.ds = false → exec (.dby a) s = .next (s.faulted .seq (encodeWord (.dby a)))) ∧
    (s.flags.ds = true →
      ∃ u news, dbtTimes [a[7], a[6], a[5], a[4], a[3], a[2], a[1], a[0]] s = some u ∧ u.sent = s.sent ++ news ∧
        exec (.dby a) s = .next { u with
          sent := s.sent ++ ((outBytes news).map Sent.byte ++
            [Sent.rsp ⟨.ok, BitVec.ofNat 72 ((responses news).map (fun r => r.data.toNat)).sum⟩]) })

/-- R235, R277: DEN ends a decode that has emitted TOTAL symbols, clearing DS; E_TRUNC while symbols are missing; E_SEQ
without DST. -/
def Obligations.DenChecksTheCount : Prop :=
  ∀ s : State, s.flags.er = false →
    encodeWord .den = 0x53000000 ∧
    (s.flags.ds = false → exec .den s = .next (s.faulted .seq 0x53000000)) ∧
    (s.flags.ds = true →
      (s.emitted ≠ s.total → exec .den s = .next (s.faulted .trunc 0x53000000)) ∧
      (s.emitted = s.total →
        exec .den s = .next (State.answered { s with flags := { s.flags with ds := false } } [] .ok 0)))

/-- R236: once TOTAL symbols are out every later bit and byte is ignored, whatever its value. -/
def Obligations.DecoderIgnoresPadding : Prop :=
  ∀ s : State, s.flags.er = false → s.flags.ds = true → s.emitted = s.total →
    (∀ b, exec (.dbt b) s = .next (s.answered [] .ok 0)) ∧ (∀ a, exec (.dby a) s = .next (s.answered [] .ok 0))

/-- R231, R237 ("walking a path from ROOT lands on its Leaf and nowhere earlier"): from the root, with symbols still to
come, the bits of a path to a Leaf emit its symbol alone and bring the cursor back to the root. -/
def Obligations.PathBitsEmitTheSymbol : Prop :=
  ∀ (s : State) (bits : List Bool) (a : Byte), s.flags.er = false → s.flags.ds = true → s.cur = s.root →
    s.emitted.toNat < s.total.toNat → s.total.toNat < 2 ^ s.cfg.weightBits → bits ≠ [] →
    LeadsTo s.node s.root bits a →
    ∃ u news, dbtTimes bits s = some u ∧ u.sent = s.sent ++ news ∧ outBytes news = [a] ∧
      u = { s with emitted := s.emitted + 1, sent := u.sent }

/-! Whole-machine rules. -/

/-- R88: RDF, RDS, RDH, RDNW, RDNL, RDC and RDCB answer and change nothing, in any state. -/
def Obligations.ReadsHaveNoSideEffect : Prop :=
  ∀ (i : Instr) (s : State), readCommand i = true →
    ∃ st data, (st = .ok ∨ st = .empty) ∧ exec i s = .next (s.answered [] st data)

/-- R59, R37 to R45, R47: which commands but CLR write which memory and which data register. -/
def Obligations.WritersOfEachState : Prop :=
  ∀ (i : Instr) (s t : State), i ≠ .clr → exec i s = .next t →
    t.cfg = s.cfg ∧ t.inputs = s.inputs ∧
    ((∀ a w, i ≠ .ldf a w) → (∀ a, i ≠ .cnt a) → t.freq = s.freq) ∧
    (i ≠ .mkl → i ≠ .mrg → i ≠ .fin → i ≠ .bld → i ≠ .pqx → (∀ n, i ≠ .pqi n) →
      t.node = s.node ∧ t.heap = s.heap) ∧
    (i ≠ .gen → t.code = s.code) ∧
    (i ≠ .fin → i ≠ .bld → t.root = s.root) ∧ (i ≠ .mkl → i ≠ .bld → t.total = s.total) ∧
    ((∀ a, i ≠ .enc a) → i ≠ .efl → t.acc = s.acc ∧ t.nbits = s.nbits) ∧
    (i ≠ .dst → (∀ b, i ≠ .dbt b) → (∀ a, i ≠ .dby a) → t.cur = s.cur ∧ t.emitted = s.emitted) ∧
    (i ≠ .pqx → (∀ n, i ≠ .pqi n) → t.xcnt = s.xcnt)

/-- R46, R48, R54, R55: within a run the flags but DS only go from 0 to 1; FREQ is frozen once QL is set; an entry of
NODE keeps its kind and weight; NODE, HEAP, ROOT and TOTAL are frozen once TV is set. -/
def Obligations.FrozenTablesStay : Prop :=
  ∀ (i : Instr) (s t : State), i ≠ .clr → exec i s = .next t →
    (s.flags.ql = true → t.flags.ql = true) ∧ (s.flags.tv = true → t.flags.tv = true) ∧
    (s.flags.em = true → t.flags.em = true) ∧ (s.flags.dg = true → t.flags.dg = true) ∧
    (s.flags.cv = true → t.flags.cv = true) ∧ (s.flags.er = true → t.flags.er = true) ∧
    (s.flags.ql = true → t.freq = s.freq) ∧
    (∀ (n : Nat) (e : Node), s.node[n]? = some e → ∃ e', t.node[n]? = some e' ∧ e'.kind = e.kind ∧ e'.w = e.w) ∧
    (s.flags.tv = true → t.node = s.node ∧ t.heap = s.heap ∧ t.root = s.root ∧ t.total = s.total)

/-! Invariants. -/

/-- R67, R310, R311: after a reset, and after CLR, every memory and register is at its reset value, CFG as it was, and
the output ports are at rest. -/
def Obligations.ResetValues : Prop :=
  ∀ (s t : State), (∃ rest, s.inputs = .reset :: rest ∧ step s = .next t) ∨ exec .clr s = .next t →
    (∀ a, t.freqAt a = 0) ∧ t.node = [] ∧ t.heap = [] ∧ (∀ a, (t.codeAt a).len = 0 ∧ (t.codeAt a).val = 0) ∧
    t.ncnt = 0 ∧ t.hsz = 0 ∧ t.root = 0 ∧ t.xcnt = 0 ∧ t.cur = 0 ∧ t.total = 0 ∧ t.emitted = 0 ∧ t.acc = 0 ∧
    t.nbits = 0 ∧ t.status = 0 ∧ t.errcode = 0 ∧ t.errinfo = 0 ∧ t.cfg = s.cfg ∧ t.ports = ⟨true, false, false, false⟩

/-- The reset state meets every invariant stated below. -/
def Obligations.ResetMeetsTheInvariants : Prop :=
  State.reset.StorageOk ∧ State.reset.EncoderOk ∧ State.reset.FaultRecordOk ∧ State.reset.PhaseOrder ∧
  State.reset.Linked ∧ State.reset.Forest ∧ HeapOrdered State.reset.node State.reset.heap ∧ State.reset.WeightsAddUp ∧
  State.reset.LeavesAreSymbols

/-- R6, R14, R17, R30: every step keeps every value within its width and NODE and HEAP within their capacities. That FREQ
and CODE are lists in canonical form, and that a value stands in 64 or 72 bits whatever its width, is the model's own
representation (assumption log 11, 7), which every step keeps as well. -/
def Obligations.StorageKept : Prop :=
  ∀ s t : State, s.StorageOk → step s = .next t → t.StorageOk

/-- R48, R65: every step keeps the order of the phase flags and EMITTED at or below TOTAL while DS is set. -/
def Obligations.PhaseOrderKept : Prop :=
  ∀ s t : State, s.PhaseOrder → step s = .next t → t.PhaseOrder

/-- R61, R65: every step keeps the arena acyclic, the queue on existing nodes, and ROOT and CUR on Internal nodes. The
order of the phases is an invariant of its own (`Obligations.PhaseOrderKept`). -/
def Obligations.LinkedKept : Prop :=
  ∀ s t : State, s.PhaseOrder → s.Linked → step s = .next t → t.Linked

/-- R63: every step keeps the heap order. -/
def Obligations.HeapOrderKept : Prop :=
  ∀ s t : State, s.Linked → HeapOrdered s.node s.heap → step s = .next t → HeapOrdered t.node t.heap

/-- R60, R62, R208: from every state that meets the forest invariant a step answers a next state, never a stop, and that
state meets it too. -/
def Obligations.ForestKeptAndNoStop : Prop :=
  ∀ s : State, s.PhaseOrder → s.Linked → s.Forest → ∃ t, step s = .next t ∧ t.PhaseOrder ∧ t.Linked ∧ t.Forest

/-- R17, R40, R62: every step keeps the weights of the forest roots adding up to TOTAL and TOTAL to the counters. -/
def Obligations.WeightsKept : Prop :=
  ∀ s t : State, s.StorageOk → s.PhaseOrder → s.Linked → s.Forest → s.WeightsAddUp → step s = .next t →
    t.WeightsAddUp

/-- R54, R62, R181: every step keeps the leaves of the arena those of the symbols with a nonzero count. -/
def Obligations.LeavesKept : Prop :=
  ∀ s t : State, s.StorageOk → s.Forest → s.LeavesAreSymbols → step s = .next t → t.LeavesAreSymbols

/-! The host's container. -/

/-- R250, R251, R257: the header has HB bytes; a container splits back into its counters and its payload, in either byte
order; a sequence of bytes shorter than the header is refused. -/
def Obligations.ContainerSplitsBack : Prop :=
  ∀ (cw : CounterWidth) (order : ByteOrder) (counters : List Count) (payload : List Byte),
    (counters.length = 256 → (∀ c ∈ counters, c.toNat < 2 ^ cw.bits) →
      (headerBytes cw order counters).length = 256 * cw.bits / 8 ∧
      splitContainer cw order (containerBytes cw order counters payload) = some (counters, payload)) ∧
    (payload.length < 256 * cw.bits / 8 → splitContainer cw order payload = none)
end

