-- ==== Sys2Proof/Laws/Decode.lean ====
section
/-! SUPPORT. The laws of the command word: the fields of an assembled word, and each format read back from the field it
writes (spec/30_encoding.md rules R110, R111). -/

namespace Sys2Proof

@[simp] theorem opField_assemble (op : Byte) (a : BitVec 16) : opField (assemble op a) = op := by
  ext i hi
  have h2 : 24 + i < 32 := by omega
  have h3 : a.getLsbD (24 + i) = false := BitVec.getLsbD_of_ge a _ (by omega)
  simp [opField, assemble, hi, h2, h3]

@[simp] theorem zField_assemble (op : Byte) (a : BitVec 16) : zField (assemble op a) = 0 := by
  ext i hi
  have h1 : 16 + i < 24 := by omega
  simp [zField, assemble, h1]

@[simp] theorem aField_assemble (op : Byte) (a : BitVec 16) : aField (assemble op a) = a := by
  ext i hi
  have h1 : i < 24 := by omega
  simp [aField, assemble, h1, hi]
  omega

/-- A word is the assembly of its fields when Z is 0. -/
theorem assemble_fields (word : CommandWord) (h : zField word = 0) :
    assemble (opField word) (aField word) = word := by
  have hz : ∀ j, j < 8 → word.getLsbD (16 + j) = false := by
    intro j hj
    have := congrArg (fun b : BitVec 8 => b.getLsbD j) h
    simpa [zField, hj] using this
  ext i hi
  simp only [assemble, opField, aField]
  by_cases h1 : i < 16
  · have h2 : i < 24 := by omega
    simp [h1, h2, hi]
  · by_cases h2 : i < 24
    · have := hz (i - 16) (by omega)
      rw [show 16 + (i - 16) = i by omega] at this
      simp [h1, h2, hi] at this ⊢
      exact this
    · have h3 : i - 24 < 8 := by omega
      have h4 : 24 + (i - 24) = i := by omega
      simp [h1, h2, h3, h4, hi]

@[simp] theorem formatZ_zero (i : Instr) : formatZ 0 i = .ok i := rfl

@[simp] theorem formatS_fieldS (s : Byte) (mk : Byte → Instr) : formatS (fieldS s) mk = .ok (mk s) := by
  have h1 : (fieldS s).extractLsb' 8 8 = 0 := by
    ext i hi
    simp [fieldS]
  have h2 : (fieldS s).extractLsb' 0 8 = s := by
    ext i hi
    simp [fieldS, hi]
    omega
  simp [formatS, h1, h2]

@[simp] theorem formatN_fieldN (n : Index) (mk : Index → Instr) : formatN (fieldN n) mk = .ok (mk n) := by
  have h1 : (fieldN n).extractLsb' 9 7 = 0 := by
    ext i hi
    simp [fieldN]
  have h2 : (fieldN n).extractLsb' 0 9 = n := by
    ext i hi
    simp [fieldN, hi]
    omega
  simp [formatN, h1, h2]

@[simp] theorem formatB_fieldB (b : Bool) (mk : Bool → Instr) : formatB (fieldB b) mk = .ok (mk b) := by
  cases b <;> rfl

end Sys2Proof
end

