-- ==== Sys2Proof/Laws/State.lean ====
section
/-! SUPPORT. One lemma per field per named update of the state, true by unfolding, so that no later proof unfolds a
record update. -/

namespace Sys2Proof.Machine

/-! Responding: `State.send`. -/

@[simp] theorem State.send_cfg (s : State) (bytes : List Byte) (st : Status) (data : Data) : (s.send bytes st data).cfg = s.cfg := rfl
@[simp] theorem State.send_freq (s : State) (bytes : List Byte) (st : Status) (data : Data) : (s.send bytes st data).freq = s.freq := rfl
@[simp] theorem State.send_node (s : State) (bytes : List Byte) (st : Status) (data : Data) : (s.send bytes st data).node = s.node := rfl
@[simp] theorem State.send_heap (s : State) (bytes : List Byte) (st : Status) (data : Data) : (s.send bytes st data).heap = s.heap := rfl
@[simp] theorem State.send_code (s : State) (bytes : List Byte) (st : Status) (data : Data) : (s.send bytes st data).code = s.code := rfl
@[simp] theorem State.send_root (s : State) (bytes : List Byte) (st : Status) (data : Data) : (s.send bytes st data).root = s.root := rfl
@[simp] theorem State.send_total (s : State) (bytes : List Byte) (st : Status) (data : Data) : (s.send bytes st data).total = s.total := rfl
@[simp] theorem State.send_acc (s : State) (bytes : List Byte) (st : Status) (data : Data) : (s.send bytes st data).acc = s.acc := rfl
@[simp] theorem State.send_nbits (s : State) (bytes : List Byte) (st : Status) (data : Data) : (s.send bytes st data).nbits = s.nbits := rfl
@[simp] theorem State.send_cur (s : State) (bytes : List Byte) (st : Status) (data : Data) : (s.send bytes st data).cur = s.cur := rfl
@[simp] theorem State.send_emitted (s : State) (bytes : List Byte) (st : Status) (data : Data) : (s.send bytes st data).emitted = s.emitted := rfl
@[simp] theorem State.send_xcnt (s : State) (bytes : List Byte) (st : Status) (data : Data) : (s.send bytes st data).xcnt = s.xcnt := rfl
@[simp] theorem State.send_flags (s : State) (bytes : List Byte) (st : Status) (data : Data) : (s.send bytes st data).flags = s.flags := rfl
@[simp] theorem State.send_errcode (s : State) (bytes : List Byte) (st : Status) (data : Data) : (s.send bytes st data).errcode = s.errcode := rfl
@[simp] theorem State.send_errinfo (s : State) (bytes : List Byte) (st : Status) (data : Data) : (s.send bytes st data).errinfo = s.errinfo := rfl
@[simp] theorem State.send_inputs (s : State) (bytes : List Byte) (st : Status) (data : Data) : (s.send bytes st data).inputs = s.inputs := rfl
@[simp] theorem State.send_sent (s : State) (bytes : List Byte) (st : Status) (data : Data) : (s.send bytes st data).sent = s.sent ++ bytes.map Sent.byte ++ [Sent.rsp ⟨st, data⟩] := rfl

/-! An answer as the claims write it: `State.answered`. -/

@[simp] theorem State.answered_cfg (s : State) (bytes : List Byte) (st : Status) (data : Data) : (s.answered bytes st data).cfg = s.cfg := rfl
@[simp] theorem State.answered_freq (s : State) (bytes : List Byte) (st : Status) (data : Data) : (s.answered bytes st data).freq = s.freq := rfl
@[simp] theorem State.answered_node (s : State) (bytes : List Byte) (st : Status) (data : Data) : (s.answered bytes st data).node = s.node := rfl
@[simp] theorem State.answered_heap (s : State) (bytes : List Byte) (st : Status) (data : Data) : (s.answered bytes st data).heap = s.heap := rfl
@[simp] theorem State.answered_code (s : State) (bytes : List Byte) (st : Status) (data : Data) : (s.answered bytes st data).code = s.code := rfl
@[simp] theorem State.answered_root (s : State) (bytes : List Byte) (st : Status) (data : Data) : (s.answered bytes st data).root = s.root := rfl
@[simp] theorem State.answered_total (s : State) (bytes : List Byte) (st : Status) (data : Data) : (s.answered bytes st data).total = s.total := rfl
@[simp] theorem State.answered_acc (s : State) (bytes : List Byte) (st : Status) (data : Data) : (s.answered bytes st data).acc = s.acc := rfl
@[simp] theorem State.answered_nbits (s : State) (bytes : List Byte) (st : Status) (data : Data) : (s.answered bytes st data).nbits = s.nbits := rfl
@[simp] theorem State.answered_cur (s : State) (bytes : List Byte) (st : Status) (data : Data) : (s.answered bytes st data).cur = s.cur := rfl
@[simp] theorem State.answered_emitted (s : State) (bytes : List Byte) (st : Status) (data : Data) : (s.answered bytes st data).emitted = s.emitted := rfl
@[simp] theorem State.answered_xcnt (s : State) (bytes : List Byte) (st : Status) (data : Data) : (s.answered bytes st data).xcnt = s.xcnt := rfl
@[simp] theorem State.answered_flags (s : State) (bytes : List Byte) (st : Status) (data : Data) : (s.answered bytes st data).flags = s.flags := rfl
@[simp] theorem State.answered_errcode (s : State) (bytes : List Byte) (st : Status) (data : Data) : (s.answered bytes st data).errcode = s.errcode := rfl
@[simp] theorem State.answered_errinfo (s : State) (bytes : List Byte) (st : Status) (data : Data) : (s.answered bytes st data).errinfo = s.errinfo := rfl
@[simp] theorem State.answered_inputs (s : State) (bytes : List Byte) (st : Status) (data : Data) : (s.answered bytes st data).inputs = s.inputs := rfl
@[simp] theorem State.answered_sent (s : State) (bytes : List Byte) (st : Status) (data : Data) : (s.answered bytes st data).sent = s.sent ++ (bytes.map Sent.byte ++ [Sent.rsp ⟨st, data⟩]) := rfl

/-! A fault taken: `State.faulted`. -/

@[simp] theorem State.faulted_cfg (s : State) (c : FaultCode) (word : CommandWord) : (s.faulted c word).cfg = s.cfg := rfl
@[simp] theorem State.faulted_freq (s : State) (c : FaultCode) (word : CommandWord) : (s.faulted c word).freq = s.freq := rfl
@[simp] theorem State.faulted_node (s : State) (c : FaultCode) (word : CommandWord) : (s.faulted c word).node = s.node := rfl
@[simp] theorem State.faulted_heap (s : State) (c : FaultCode) (word : CommandWord) : (s.faulted c word).heap = s.heap := rfl
@[simp] theorem State.faulted_code (s : State) (c : FaultCode) (word : CommandWord) : (s.faulted c word).code = s.code := rfl
@[simp] theorem State.faulted_root (s : State) (c : FaultCode) (word : CommandWord) : (s.faulted c word).root = s.root := rfl
@[simp] theorem State.faulted_total (s : State) (c : FaultCode) (word : CommandWord) : (s.faulted c word).total = s.total := rfl
@[simp] theorem State.faulted_acc (s : State) (c : FaultCode) (word : CommandWord) : (s.faulted c word).acc = s.acc := rfl
@[simp] theorem State.faulted_nbits (s : State) (c : FaultCode) (word : CommandWord) : (s.faulted c word).nbits = s.nbits := rfl
@[simp] theorem State.faulted_cur (s : State) (c : FaultCode) (word : CommandWord) : (s.faulted c word).cur = s.cur := rfl
@[simp] theorem State.faulted_emitted (s : State) (c : FaultCode) (word : CommandWord) : (s.faulted c word).emitted = s.emitted := rfl
@[simp] theorem State.faulted_xcnt (s : State) (c : FaultCode) (word : CommandWord) : (s.faulted c word).xcnt = s.xcnt := rfl
@[simp] theorem State.faulted_flags (s : State) (c : FaultCode) (word : CommandWord) : (s.faulted c word).flags = { s.flags with er := true } := rfl
@[simp] theorem State.faulted_errcode (s : State) (c : FaultCode) (word : CommandWord) : (s.faulted c word).errcode = c.code := rfl
@[simp] theorem State.faulted_errinfo (s : State) (c : FaultCode) (word : CommandWord) : (s.faulted c word).errinfo = word := rfl
@[simp] theorem State.faulted_inputs (s : State) (c : FaultCode) (word : CommandWord) : (s.faulted c word).inputs = s.inputs := rfl
@[simp] theorem State.faulted_sent (s : State) (c : FaultCode) (word : CommandWord) : (s.faulted c word).sent = s.sent ++ [Sent.rsp ⟨.fault c, 0⟩] := rfl

/-! CLR and reset: `State.cleared`. -/

@[simp] theorem State.cleared_cfg (s : State) : s.cleared.cfg = s.cfg := rfl
@[simp] theorem State.cleared_freq (s : State) : s.cleared.freq = [] := rfl
@[simp] theorem State.cleared_node (s : State) : s.cleared.node = [] := rfl
@[simp] theorem State.cleared_heap (s : State) : s.cleared.heap = [] := rfl
@[simp] theorem State.cleared_code (s : State) : s.cleared.code = [] := rfl
@[simp] theorem State.cleared_root (s : State) : s.cleared.root = 0 := rfl
@[simp] theorem State.cleared_total (s : State) : s.cleared.total = 0 := rfl
@[simp] theorem State.cleared_acc (s : State) : s.cleared.acc = 0 := rfl
@[simp] theorem State.cleared_nbits (s : State) : s.cleared.nbits = 0 := rfl
@[simp] theorem State.cleared_cur (s : State) : s.cleared.cur = 0 := rfl
@[simp] theorem State.cleared_emitted (s : State) : s.cleared.emitted = 0 := rfl
@[simp] theorem State.cleared_xcnt (s : State) : s.cleared.xcnt = 0 := rfl
@[simp] theorem State.cleared_flags (s : State) : s.cleared.flags = Flags.clear := rfl
@[simp] theorem State.cleared_errcode (s : State) : s.cleared.errcode = 0 := rfl
@[simp] theorem State.cleared_errinfo (s : State) : s.cleared.errinfo = 0 := rfl
@[simp] theorem State.cleared_inputs (s : State) : s.cleared.inputs = s.inputs := rfl
@[simp] theorem State.cleared_sent (s : State) : s.cleared.sent = s.sent := rfl

/-! Writing a counter: `State.setFreq`. -/

@[simp] theorem State.setFreq_cfg (s : State) (a : Byte) (c : Count) : (s.setFreq a c).cfg = s.cfg := rfl
@[simp] theorem State.setFreq_freq (s : State) (a : Byte) (c : Count) : (s.setFreq a c).freq = Memory.write 0 s.freq a.toNat c := rfl
@[simp] theorem State.setFreq_node (s : State) (a : Byte) (c : Count) : (s.setFreq a c).node = s.node := rfl
@[simp] theorem State.setFreq_heap (s : State) (a : Byte) (c : Count) : (s.setFreq a c).heap = s.heap := rfl
@[simp] theorem State.setFreq_code (s : State) (a : Byte) (c : Count) : (s.setFreq a c).code = s.code := rfl
@[simp] theorem State.setFreq_root (s : State) (a : Byte) (c : Count) : (s.setFreq a c).root = s.root := rfl
@[simp] theorem State.setFreq_total (s : State) (a : Byte) (c : Count) : (s.setFreq a c).total = s.total := rfl
@[simp] theorem State.setFreq_acc (s : State) (a : Byte) (c : Count) : (s.setFreq a c).acc = s.acc := rfl
@[simp] theorem State.setFreq_nbits (s : State) (a : Byte) (c : Count) : (s.setFreq a c).nbits = s.nbits := rfl
@[simp] theorem State.setFreq_cur (s : State) (a : Byte) (c : Count) : (s.setFreq a c).cur = s.cur := rfl
@[simp] theorem State.setFreq_emitted (s : State) (a : Byte) (c : Count) : (s.setFreq a c).emitted = s.emitted := rfl
@[simp] theorem State.setFreq_xcnt (s : State) (a : Byte) (c : Count) : (s.setFreq a c).xcnt = s.xcnt := rfl
@[simp] theorem State.setFreq_flags (s : State) (a : Byte) (c : Count) : (s.setFreq a c).flags = s.flags := rfl
@[simp] theorem State.setFreq_errcode (s : State) (a : Byte) (c : Count) : (s.setFreq a c).errcode = s.errcode := rfl
@[simp] theorem State.setFreq_errinfo (s : State) (a : Byte) (c : Count) : (s.setFreq a c).errinfo = s.errinfo := rfl
@[simp] theorem State.setFreq_inputs (s : State) (a : Byte) (c : Count) : (s.setFreq a c).inputs = s.inputs := rfl
@[simp] theorem State.setFreq_sent (s : State) (a : Byte) (c : Count) : (s.setFreq a c).sent = s.sent := rfl

/-! Writing an owner tag: `State.setOwner`. -/

@[simp] theorem State.setOwner_cfg (s : State) (n : Index) (o : Owner) : (s.setOwner n o).cfg = s.cfg := rfl
@[simp] theorem State.setOwner_freq (s : State) (n : Index) (o : Owner) : (s.setOwner n o).freq = s.freq := rfl
@[simp] theorem State.setOwner_node (s : State) (n : Index) (o : Owner) : (s.setOwner n o).node = s.node.modify n.toNat (fun e => { e with own := o }) := rfl
@[simp] theorem State.setOwner_heap (s : State) (n : Index) (o : Owner) : (s.setOwner n o).heap = s.heap := rfl
@[simp] theorem State.setOwner_code (s : State) (n : Index) (o : Owner) : (s.setOwner n o).code = s.code := rfl
@[simp] theorem State.setOwner_root (s : State) (n : Index) (o : Owner) : (s.setOwner n o).root = s.root := rfl
@[simp] theorem State.setOwner_total (s : State) (n : Index) (o : Owner) : (s.setOwner n o).total = s.total := rfl
@[simp] theorem State.setOwner_acc (s : State) (n : Index) (o : Owner) : (s.setOwner n o).acc = s.acc := rfl
@[simp] theorem State.setOwner_nbits (s : State) (n : Index) (o : Owner) : (s.setOwner n o).nbits = s.nbits := rfl
@[simp] theorem State.setOwner_cur (s : State) (n : Index) (o : Owner) : (s.setOwner n o).cur = s.cur := rfl
@[simp] theorem State.setOwner_emitted (s : State) (n : Index) (o : Owner) : (s.setOwner n o).emitted = s.emitted := rfl
@[simp] theorem State.setOwner_xcnt (s : State) (n : Index) (o : Owner) : (s.setOwner n o).xcnt = s.xcnt := rfl
@[simp] theorem State.setOwner_flags (s : State) (n : Index) (o : Owner) : (s.setOwner n o).flags = s.flags := rfl
@[simp] theorem State.setOwner_errcode (s : State) (n : Index) (o : Owner) : (s.setOwner n o).errcode = s.errcode := rfl
@[simp] theorem State.setOwner_errinfo (s : State) (n : Index) (o : Owner) : (s.setOwner n o).errinfo = s.errinfo := rfl
@[simp] theorem State.setOwner_inputs (s : State) (n : Index) (o : Owner) : (s.setOwner n o).inputs = s.inputs := rfl
@[simp] theorem State.setOwner_sent (s : State) (n : Index) (o : Owner) : (s.setOwner n o).sent = s.sent := rfl

/-- What the claims call an answer is what the machine's response does. -/
theorem State.send_eq_answered (s : State) (bytes : List Byte) (st : Status) (data : Data) :
    s.send bytes st data = s.answered bytes st data := by
  simp [State.send, State.answered]

/-- What the claims call a fault taken is what the machine's `raise Fault` does (R283). -/
theorem State.raiseFault_eq_faulted (s : State) (c : FaultCode) (word : CommandWord) :
    s.raiseFault c word = s.faulted c word := by
  simp [State.raiseFault, State.send, State.faulted]

/-- The refusal of the faulted engine is an answer and nothing else (R285). -/
theorem State.refuseFaulted_eq_answered (s : State) : s.refuseFaulted = s.answered [] .faulted 0 := by
  simp [State.refuseFaulted, State.send, State.answered]

end Sys2Proof.Machine
end

