-- ==== Sys2Proof/Laws/Memory.lean ====
section
/-! SUPPORT. The laws of a memory: what a read gives after a write, and that a write keeps the canonical form. They
hold of every list of entries; only the canonical form itself has a premise. -/

namespace Sys2Proof.Machine

variable {α : Type}

@[simp] theorem Memory.read_nil (blank : α) (i : Nat) : Memory.read blank [] i = blank := rfl

theorem Memory.read_erase_same (blank : α) (m : Memory α) (i : Nat) :
    Memory.read blank (m.erase i) i = blank := by
  induction m with
  | nil => rfl
  | cons p m ih =>
    by_cases h : p.1 = i <;> simp [Memory.erase, Memory.read, h, ih]

theorem Memory.read_erase_other (blank : α) (m : Memory α) {i j : Nat} (h : j ≠ i) :
    Memory.read blank (m.erase i) j = Memory.read blank m j := by
  induction m with
  | nil => rfl
  | cons p m ih =>
    by_cases hi : p.1 = i
    · have hj : ¬ p.1 = j := fun hj => h (hj.symm.trans hi)
      simp [Memory.erase, Memory.read, hi, ih]
      intro hij
      exact absurd hij.symm h
    · by_cases hj : p.1 = j
      · simp [Memory.erase, Memory.read, hj, h]
      · simp [Memory.erase, Memory.read, hi, hj, ih]

/-- An erased index is listed nowhere. -/
theorem Memory.erase_absent (m : Memory α) (i : Nat) : ∀ p ∈ m.erase i, p.1 ≠ i := by
  induction m with
  | nil => simp [Memory.erase]
  | cons p m ih =>
    by_cases h : p.1 = i
    · simpa [Memory.erase, h] using ih
    · simp only [Memory.erase, h, if_false, List.mem_cons]
      rintro q (rfl | hq)
      · exact h
      · exact ih q hq

theorem Memory.erase_subset (m : Memory α) (i : Nat) : ∀ p ∈ m.erase i, p ∈ m := by
  induction m with
  | nil => simp [Memory.erase]
  | cons p m ih =>
    by_cases h : p.1 = i
    · simp only [Memory.erase, h, if_true]
      exact fun q hq => List.mem_cons_of_mem _ (ih q hq)
    · simp only [Memory.erase, h, if_false, List.mem_cons]
      rintro q (rfl | hq)
      · exact .inl rfl
      · exact .inr (ih q hq)

theorem Memory.read_insert_same (blank : α) (m : Memory α) (i : Nat) (v : α) (h : ∀ p ∈ m, p.1 ≠ i) :
    Memory.read blank (m.insert i v) i = v := by
  induction m with
  | nil => simp [Memory.insert, Memory.read]
  | cons p m ih =>
    have hp : p.1 ≠ i := h p (by simp)
    by_cases hlt : i < p.1
    · simp [Memory.insert, Memory.read, hlt]
    · simp [Memory.insert, Memory.read, hlt, hp, ih (fun q hq => h q (by simp [hq]))]

theorem Memory.read_insert_other (blank : α) (m : Memory α) {i j : Nat} (v : α) (h : j ≠ i) :
    Memory.read blank (m.insert i v) j = Memory.read blank m j := by
  induction m with
  | nil => simp [Memory.insert, Memory.read, h.symm]
  | cons p m ih =>
    by_cases hlt : i < p.1
    · simp [Memory.insert, Memory.read, hlt, h.symm]
    · simp [Memory.insert, Memory.read, hlt, ih]

/-- A read of the entry just written gives what was written (R91). -/
@[simp] theorem Memory.read_write_same [DecidableEq α] (blank : α) (m : Memory α) (i : Nat) (v : α) :
    Memory.read blank (Memory.write blank m i v) i = v := by
  by_cases h : v = blank
  · simp [Memory.write, h, Memory.read_erase_same]
  · simp [Memory.write, h, Memory.read_insert_same blank _ i v (Memory.erase_absent m i)]

/-- A write leaves every other entry alone. -/
theorem Memory.read_write_other [DecidableEq α] (blank : α) (m : Memory α) {i j : Nat} (v : α) (h : j ≠ i) :
    Memory.read blank (Memory.write blank m i v) j = Memory.read blank m j := by
  by_cases hv : v = blank
  · simp [Memory.write, hv, Memory.read_erase_other blank m h]
  · simp [Memory.write, hv, Memory.read_insert_other blank _ v h, Memory.read_erase_other blank m h]

/-- The canonical form, as a proposition. -/
theorem Memory.wf_iff [DecidableEq α] (blank : α) (size : Nat) (m : Memory α) :
    Memory.wf blank size m = true ↔
      m.Pairwise (fun p q => p.1 < q.1) ∧ ∀ p ∈ m, p.1 < size ∧ p.2 ≠ blank := by
  simp [Memory.wf]

theorem Memory.erase_pairwise (m : Memory α) (i : Nat) (h : m.Pairwise (fun p q => p.1 < q.1)) :
    (m.erase i).Pairwise (fun p q => p.1 < q.1) := by
  induction m with
  | nil => simp [Memory.erase]
  | cons p m ih =>
    obtain ⟨hp, hm⟩ := List.pairwise_cons.mp h
    by_cases hi : p.1 = i
    · simpa [Memory.erase, hi] using ih hm
    · simp only [Memory.erase, hi, if_false]
      exact List.pairwise_cons.mpr ⟨fun q hq => hp q (Memory.erase_subset m i q hq), ih hm⟩

theorem Memory.mem_insert (m : Memory α) (i : Nat) (v : α) (p : Nat × α) :
    p ∈ m.insert i v ↔ p = (i, v) ∨ p ∈ m := by
  induction m with
  | nil => simp [Memory.insert]
  | cons q m ih =>
    by_cases hlt : i < q.1
    · simp [Memory.insert, hlt]
    · simp only [Memory.insert, hlt, if_false, List.mem_cons, ih]
      exact or_left_comm

theorem Memory.insert_pairwise (m : Memory α) (i : Nat) (v : α) (h : m.Pairwise (fun p q => p.1 < q.1))
    (ha : ∀ p ∈ m, p.1 ≠ i) : (m.insert i v).Pairwise (fun p q => p.1 < q.1) := by
  induction m with
  | nil => simp [Memory.insert]
  | cons q m ih =>
    obtain ⟨hq, hm⟩ := List.pairwise_cons.mp h
    by_cases hlt : i < q.1
    · simp only [Memory.insert, hlt, if_true]
      refine List.pairwise_cons.mpr ⟨fun p hp => ?_, h⟩
      rcases List.mem_cons.mp hp with rfl | hp
      · exact hlt
      · exact lt_trans hlt (hq p hp)
    · simp only [Memory.insert, hlt, if_false]
      refine List.pairwise_cons.mpr ⟨fun p hp => ?_, ih hm (fun p hp => ha p (by simp [hp]))⟩
      rcases (Memory.mem_insert m i v p).mp hp with rfl | hp
      · exact lt_of_le_of_ne (not_lt.mp hlt) (ha q (by simp))
      · exact hq p hp

/-- A write keeps the canonical form. -/
theorem Memory.wf_write [DecidableEq α] (blank : α) (size : Nat) (m : Memory α) (i : Nat) (v : α) (hi : i < size)
    (h : Memory.wf blank size m = true) : Memory.wf blank size (Memory.write blank m i v) = true := by
  rw [Memory.wf_iff] at h ⊢
  by_cases hv : v = blank
  · simp only [Memory.write, hv, if_true]
    exact ⟨Memory.erase_pairwise m i h.1, fun p hp => h.2 p (Memory.erase_subset m i p hp)⟩
  · simp only [Memory.write, hv, if_false]
    refine ⟨Memory.insert_pairwise _ i v (Memory.erase_pairwise m i h.1) (Memory.erase_absent m i), fun p hp => ?_⟩
    rcases (Memory.mem_insert _ i v p).mp hp with rfl | hp
    · exact ⟨hi, hv⟩
    · exact h.2 p (Memory.erase_subset m i p hp)

/-- What a write can list: what was listed, and what was written. -/
theorem Memory.mem_write [DecidableEq α] (blank : α) (m : Memory α) (i : Nat) (v : α) (p : Nat × α)
    (h : p ∈ Memory.write blank m i v) : p = (i, v) ∨ p ∈ m := by
  by_cases hv : v = blank
  · simp only [Memory.write, hv, if_true] at h
    exact .inr (Memory.erase_subset m i p h)
  · simp only [Memory.write, hv, if_false] at h
    exact ((Memory.mem_insert _ i v p).mp h).imp_right (Memory.erase_subset m i p)

/-- The memories after reset have the canonical form (R67). -/
theorem Memory.wf_nil [DecidableEq α] (blank : α) (size : Nat) : Memory.wf blank size ([] : Memory α) = true := rfl

@[simp] theorem State.freqAt_setFreq_same (s : State) (a : Byte) (c : Count) : (s.setFreq a c).freqAt a = c := by
  simp [State.freqAt]

theorem State.freqAt_setFreq_other (s : State) {a b : Byte} (c : Count) (h : b ≠ a) :
    (s.setFreq a c).freqAt b = s.freqAt b := by
  have hn : b.toNat ≠ a.toNat := fun hn => h (BitVec.eq_of_toNat_eq hn)
  exact Memory.read_write_other 0 s.freq c hn

/-- Reading an existing entry of the arena. -/
theorem nodeIn_of_getElem {arena : List Node} {n : Index} {e : Node} (h : arena[n.toNat]? = some e) :
    nodeIn arena n = e := by
  simp [nodeIn, h]

@[simp] theorem State.setOwner_length (s : State) (n : Index) (o : Owner) :
    (s.setOwner n o).node.length = s.node.length := by
  simp

/-- An owner tag is the only thing a write of it changes in an existing entry (R55). -/
theorem nodeIn_setOwner (s : State) (m n : Index) (o : Owner) (h : m.toNat < s.node.length) :
    nodeIn (s.setOwner n o).node m =
      if m = n then { nodeIn s.node m with own := o } else nodeIn s.node m := by
  have hm : s.node[m.toNat]? = some s.node[m.toNat] := List.getElem?_eq_getElem h
  by_cases hmn : m = n
  · subst hmn
    simp [nodeIn, hm]
  · have hne : n.toNat ≠ m.toNat := fun hn => hmn (BitVec.eq_of_toNat_eq hn.symm)
    simp [nodeIn, hmn, hne, hm]

end Sys2Proof.Machine
end

