-- ==== Sys2Proof/Laws/Operands.lean ====
section
/-! SUPPORT. The laws of the operand forms: what narrowing leaves, the fields of an entry, the bits of codes and
bytes. -/

namespace Sys2Proof.Machine

/-- Narrowing keeps the value modulo 2^CW. -/
theorem narrowCount_toNat (cw : CounterWidth) (v : Count) : (narrowCount cw v).toNat = v.toNat % 2 ^ cw.bits := by
  have h : 2 ^ cw.bits ≤ 2 ^ 64 := Nat.pow_le_pow_right (by decide) (by cases cw <;> decide)
  have hlt : v.toNat % 2 ^ cw.bits < 2 ^ cw.bits := Nat.mod_lt _ (Nat.two_pow_pos _)
  rw [narrowCount, BitVec.toNat_setWidth, BitVec.toNat_setWidth]
  exact Nat.mod_eq_of_lt (lt_of_lt_of_le hlt h)

/-- Narrowing keeps the value modulo 2^WW. -/
theorem narrowWeight_toNat (cw : CounterWidth) (v : Weight) :
    (narrowWeight cw v).toNat = v.toNat % 2 ^ cw.weightBits := by
  have h : 2 ^ cw.weightBits ≤ 2 ^ 72 := Nat.pow_le_pow_right (by decide) (by cases cw <;> decide)
  have hlt : v.toNat % 2 ^ cw.weightBits < 2 ^ cw.weightBits := Nat.mod_lt _ (Nat.two_pow_pos _)
  rw [narrowWeight, BitVec.toNat_setWidth, BitVec.toNat_setWidth]
  exact Nat.mod_eq_of_lt (lt_of_lt_of_le hlt h)

theorem narrowCount_lt (cw : CounterWidth) (v : Count) : (narrowCount cw v).toNat < 2 ^ cw.bits := by
  rw [narrowCount_toNat]
  exact Nat.mod_lt _ (Nat.two_pow_pos _)

theorem narrowWeight_lt (cw : CounterWidth) (v : Weight) : (narrowWeight cw v).toNat < 2 ^ cw.weightBits := by
  rw [narrowWeight_toNat]
  exact Nat.mod_lt _ (Nat.two_pow_pos _)

/-- A value of CW bits is not changed by narrowing. -/
theorem narrowCount_of_lt {cw : CounterWidth} {v : Count} (h : v.toNat < 2 ^ cw.bits) : narrowCount cw v = v :=
  BitVec.eq_of_toNat_eq (by rw [narrowCount_toNat, Nat.mod_eq_of_lt h])

/-- A value of WW bits is not changed by narrowing. -/
theorem narrowWeight_of_lt {cw : CounterWidth} {v : Weight} (h : v.toNat < 2 ^ cw.weightBits) :
    narrowWeight cw v = v :=
  BitVec.eq_of_toNat_eq (by rw [narrowWeight_toNat, Nat.mod_eq_of_lt h])

theorem maxCount_toNat (cw : CounterWidth) : (maxCount cw).toNat = 2 ^ cw.bits - 1 := by
  cases cw <;> decide

@[simp] theorem byteBits_length (a : Byte) : (byteBits a).length = 8 := by
  simp [byteBits]

@[simp] theorem codeBits_length (c : Code) : c.bits.length = c.len.toNat := by
  simp [Code.bits]

/-- The fields of a Leaf (R55). -/
theorem Node.fields_of_leaf {e : Node} {a : Byte} (h : e.kind = .leaf a) :
    e.k = 0 ∧ e.sym = a ∧ e.left = 0 ∧ e.right = 0 := by
  simp [Node.k, Node.sym, Node.left, Node.right, h]

/-- The fields of an Internal node (R55). -/
theorem Node.fields_of_internal {e : Node} {l r : Index} (h : e.kind = .internal l r) :
    e.k = 1 ∧ e.sym = 0 ∧ e.left = l ∧ e.right = r := by
  simp [Node.k, Node.sym, Node.left, Node.right, h]

/-- The code of a fault is 8 to 14 (R270). -/
theorem FaultCode.code_range (c : FaultCode) : 8 ≤ c.code.toNat ∧ c.code.toNat ≤ 14 := by
  cases c <;> decide

end Sys2Proof.Machine
end

