-- ==== Sys2Proof/Laws/Ops.lean ====
section
/-! SUPPORT. What the common frame of a command can answer, said once: its cases, and when it runs the command's own
part (spec/30_encoding.md rule R125). -/

namespace Sys2Proof.Machine

/-- A command's frame is passed when the engine is not faulted, or accepts the command all the same; the command is
legal; and its phase check holds (R125 steps 1 to 4). -/
def passes (i : Instr) (s : State) : Prop :=
  (s.flags.er = true → acceptedWhenFaulted i = true) ∧ i.wellFormed = true ∧ phaseOk i s = true

/-- An accepted command is legal and has no phase check (R285, R272). -/
theorem accepted_passes {i : Instr} (s : State) (h : acceptedWhenFaulted i = true) : passes i s := by
  refine ⟨fun _ => h, ?_, ?_⟩
  · cases i <;> simp_all [acceptedWhenFaulted, Instr.wellFormed]
  · cases i <;> simp_all [acceptedWhenFaulted, phaseOk]

/-- A command that passes the frame ends as its own part says (R125 steps 5 to 7). -/
theorem command_of_passes {i : Instr} {s : State} (body : State → Effect) (h : passes i s) :
    command i body s = conclude (encodeWord i) s (body s) := by
  obtain ⟨hg, hw, hp⟩ := h
  have : (s.flags.er && !acceptedWhenFaulted i) = false := by
    cases he : s.flags.er <;> simp_all
  simp [command, this, hw, hp]

/-- The faulted gate (R285). -/
theorem command_refused {i : Instr} {s : State} (body : State → Effect) (he : s.flags.er = true)
    (ha : acceptedWhenFaulted i = false) : command i body s = .next (s.answered [] .faulted 0) := by
  simp [command, he, ha, State.refuseFaulted_eq_answered]

/-- An illegal command, the engine not faulted (R271). -/
theorem command_illegal {i : Instr} {s : State} (body : State → Effect) (he : s.flags.er = false)
    (hw : i.wellFormed = false) : command i body s = .next (s.faulted .ill (encodeWord i)) := by
  simp [command, he, hw, State.raiseFault_eq_faulted]

/-- The phase check (R272). -/
theorem command_out_of_sequence {i : Instr} {s : State} (body : State → Effect) (he : s.flags.er = false)
    (hw : i.wellFormed = true) (hp : phaseOk i s = false) :
    command i body s = .next (s.faulted .seq (encodeWord i)) := by
  simp [command, he, hw, hp, State.raiseFault_eq_faulted]

/-- Every command ends in one of four ways: refused by the faulted engine, illegal, out of sequence, or as its own part
says. -/
theorem command_cases (i : Instr) (body : State → Effect) (s : State) :
    (s.flags.er = true ∧ acceptedWhenFaulted i = false ∧ command i body s = .next (s.answered [] .faulted 0)) ∨
    (s.flags.er = false ∧ i.wellFormed = false ∧ command i body s = .next (s.faulted .ill (encodeWord i))) ∨
    (s.flags.er = false ∧ i.wellFormed = true ∧ phaseOk i s = false ∧
      command i body s = .next (s.faulted .seq (encodeWord i))) ∨
    (passes i s ∧ command i body s = conclude (encodeWord i) s (body s)) := by
  cases he : s.flags.er with
  | true =>
    cases ha : acceptedWhenFaulted i with
    | false => exact .inl ⟨rfl, rfl, command_refused body he ha⟩
    | true =>
      have hp := accepted_passes s ha
      exact .inr (.inr (.inr ⟨hp, command_of_passes body hp⟩))
  | false =>
    cases hw : i.wellFormed with
    | false => exact .inr (.inl ⟨rfl, rfl, command_illegal body he hw⟩)
    | true =>
      cases hp : phaseOk i s with
      | false => exact .inr (.inr (.inl ⟨rfl, rfl, rfl, command_out_of_sequence body he hw hp⟩))
      | true =>
        have h : passes i s := ⟨fun h => by simp [he] at h, hw, hp⟩
        exact .inr (.inr (.inr ⟨h, command_of_passes body h⟩))

@[simp] theorem conclude_ok (word : CommandWord) (s : State) (d : Done) :
    conclude word s (.ok d) = .next (d.state.answered d.bytes d.st d.data) := by
  simp [conclude, State.send_eq_answered]

@[simp] theorem conclude_engine (word : CommandWord) (s : State) (c : FaultCode) :
    conclude word s (.error (.engine c)) = .next (s.faulted c word) := by
  simp [conclude, State.raiseFault_eq_faulted]

@[simp] theorem conclude_model (word : CommandWord) (s : State) (f : Fault) :
    conclude word s (.error (.model f)) = .fault f := rfl

/-- A command that answers a next state has responded from its own part, or has taken a fault over the state from
before it. -/
theorem conclude_next {word : CommandWord} {s t : State} {e : Effect} (h : conclude word s e = .next t) :
    (∃ d, e = .ok d ∧ t = d.state.answered d.bytes d.st d.data) ∨
    (∃ c, e = .error (.engine c) ∧ t = s.faulted c word) := by
  match e with
  | .ok d => exact .inl ⟨d, rfl, by simpa using h.symm⟩
  | .error (.engine c) => exact .inr ⟨c, rfl, by simpa using h.symm⟩
  | .error (.model f) => simp at h

end Sys2Proof.Machine
end

