-- ==== Sys2Proof/Laws/PerInstr.lean ====
section
/-! SUPPORT. A family of statements made per command (LAWS.json): the word of a command matches its row of the opcode
table of spec/30_encoding.md rule R117. -/

namespace Sys2Proof.Laws.RowMatch

/-- The number of a command's row in `opcodeTable`, the order of R117. -/
def row : Instr → Nat
  | .nop => 0
  | .clr => 1
  | .ldf _ _ => 2
  | .cnt _ => 3
  | .rdf _ => 4
  | .rds _ => 5
  | .pqi _ => 6
  | .pqx => 7
  | .rdh _ => 8
  | .mkl => 9
  | .mrg => 10
  | .fin => 11
  | .bld => 12
  | .rdnw _ => 13
  | .rdnl _ => 14
  | .gen => 15
  | .rdc _ => 16
  | .rdcb _ _ => 17
  | .enc _ => 18
  | .efl => 19
  | .dst => 20
  | .dbt _ => 21
  | .dby _ => 22
  | .den => 23

/-- "a word w spells the command when `w & mask = match`" (R117): the word of the command matches its own row. -/
def Statement (i : Instr) : Prop :=
  ∃ r, opcodeTable[row i]? = some r ∧ encodeWord i &&& r.mask = r.pattern

/-- The mask of formats S and SW: every bit but A[7:0]. -/
theorem mask_S : ∀ i : Fin 32, (0xFFFFFF00#32).getLsbD i.val = decide (8 ≤ i.val) := by decide

/-- The mask of format N: every bit but A[8:0]. -/
theorem mask_N : ∀ i : Fin 32, (0xFFFFFE00#32).getLsbD i.val = decide (9 ≤ i.val) := by decide

theorem matches_S (op : Byte) (a : Byte) : assemble op (fieldS a) &&& 0xFFFFFF00#32 = assemble op 0 := by
  apply BitVec.eq_of_getLsbD_eq
  intro i hi
  rw [BitVec.getLsbD_and, mask_S ⟨i, hi⟩]
  by_cases h : i < 8
  · have h24 : i < 24 := by omega
    simp [assemble, h24, Nat.not_le.mpr h]
  · simp [assemble, fieldS, Nat.not_lt.mp h]

theorem matches_N (op : Byte) (n : Index) : assemble op (fieldN n) &&& 0xFFFFFE00#32 = assemble op 0 := by
  apply BitVec.eq_of_getLsbD_eq
  intro i hi
  rw [BitVec.getLsbD_and, mask_N ⟨i, hi⟩]
  by_cases h : i < 9
  · have h24 : i < 24 := by omega
    simp [assemble, h24, Nat.not_le.mpr h]
  · simp [assemble, fieldN, Nat.not_lt.mp h]

theorem nop : Statement .nop := ⟨_, rfl, by decide⟩
theorem clr : Statement .clr := ⟨_, rfl, by decide⟩
theorem ldf (a : Byte) (w : Sideband) : Statement (.ldf a w) := ⟨_, rfl, matches_S 0x02 a⟩
theorem cnt (a : Byte) : Statement (.cnt a) := ⟨_, rfl, matches_S 0x03 a⟩
theorem rdf (a : Byte) : Statement (.rdf a) := ⟨_, rfl, matches_S 0x04 a⟩
theorem rds (r : Byte) : Statement (.rds r) := ⟨_, rfl, matches_S 0x05 r⟩
theorem pqi (n : Index) : Statement (.pqi n) := ⟨_, rfl, matches_N 0x10 n⟩
theorem pqx : Statement .pqx := ⟨_, rfl, by decide⟩
theorem rdh (i : Index) : Statement (.rdh i) := ⟨_, rfl, matches_N 0x12 i⟩
theorem mkl : Statement .mkl := ⟨_, rfl, by decide⟩
theorem mrg : Statement .mrg := ⟨_, rfl, by decide⟩
theorem fin : Statement .fin := ⟨_, rfl, by decide⟩
theorem bld : Statement .bld := ⟨_, rfl, by decide⟩
theorem rdnw (n : Index) : Statement (.rdnw n) := ⟨_, rfl, matches_N 0x24 n⟩
theorem rdnl (n : Index) : Statement (.rdnl n) := ⟨_, rfl, matches_N 0x25 n⟩
theorem gen : Statement .gen := ⟨_, rfl, by decide⟩
theorem rdc (a : Byte) : Statement (.rdc a) := ⟨_, rfl, matches_S 0x31 a⟩
theorem rdcb (a : Byte) (k : Sideband) : Statement (.rdcb a k) := ⟨_, rfl, matches_S 0x32 a⟩
theorem enc (a : Byte) : Statement (.enc a) := ⟨_, rfl, matches_S 0x40 a⟩
theorem efl : Statement .efl := ⟨_, rfl, by decide⟩
theorem dst : Statement .dst := ⟨_, rfl, by decide⟩
theorem dbt (b : Bool) : Statement (.dbt b) := ⟨_, rfl, by cases b <;> decide⟩
theorem dby (a : Byte) : Statement (.dby a) := ⟨_, rfl, matches_S 0x52 a⟩
theorem den : Statement .den := ⟨_, rfl, by decide⟩

end Sys2Proof.Laws.RowMatch
end

