-- ==== Sys2Proof/Laws/Queue.lean ====
section
/-! SUPPORT. The laws of the priority queue: a swap, a sift, an insertion and an extraction rearrange HEAP and lose or
invent nothing (spec/41_priority_queue.md rule R160), and the loops' round bounds do not show (assumption log 16). -/

namespace Sys2Proof.Machine

/-- Swapping two existing slots rearranges the list. -/
theorem swapSlots_perm {heap : List Index} {i j : Nat} {x y : Index} (hx : heap[i]? = some x)
    (hy : heap[j]? = some y) : (swapSlots heap i j x y).Perm heap := by
  obtain ⟨hi, rfl⟩ := List.getElem?_eq_some_iff.mp hx
  obtain ⟨hj, rfl⟩ := List.getElem?_eq_some_iff.mp hy
  exact List.set_set_perm hi hj

@[simp] theorem swapSlots_length (heap : List Index) (i j : Nat) (x y : Index) :
    (swapSlots heap i j x y).length = heap.length := by
  simp [swapSlots]

/-- One selection of R163: `c` where both slots exist and c's node is strictly lighter, else `s`. -/
theorem lighterSlot_cases (lt : Index → Index → Bool) (heap : List Index) (c s : Nat) :
    (lighterSlot lt heap c s = c ∧ ∃ x y, heap[c]? = some x ∧ heap[s]? = some y ∧ lt x y = true) ∨
    (lighterSlot lt heap c s = s ∧ ∀ x y, heap[c]? = some x → heap[s]? = some y → lt x y = false) := by
  simp only [lighterSlot]
  split
  · next x y hx hy => cases h : lt x y <;> simp_all
  · next h => exact .inr ⟨rfl, fun x y hx hy => (h x y hx hy).elim⟩

/-- A node sinks to a higher slot or stays. -/
theorem sinkSlot_lt {lt : Index → Index → Bool} {heap : List Index} {i : Nat} (h : sinkSlot lt heap i ≠ i) :
    i < sinkSlot lt heap i := by
  simp only [sinkSlot] at h ⊢
  rcases lighterSlot_cases lt heap (2 * i + 2) (lighterSlot lt heap (2 * i + 1) i) with ⟨h2, -⟩ | ⟨h2, -⟩ <;>
    rw [h2] at h ⊢
  · omega
  · rcases lighterSlot_cases lt heap (2 * i + 1) i with ⟨h1, -⟩ | ⟨h1, -⟩ <;> rw [h1] at h ⊢ <;> omega

/-- The bound of the sift-up does not show once it is no smaller than the slot. -/
theorem siftUp_fuel {lt : Index → Index → Bool} {fuel fuel' : Nat} {heap : List Index} {i : Nat} (h : i ≤ fuel)
    (h' : i ≤ fuel') : siftUp lt fuel heap i = siftUp lt fuel' heap i := by
  induction fuel generalizing fuel' heap i with
  | zero =>
    obtain rfl : i = 0 := by omega
    cases fuel' <;> simp [siftUp]
  | succ fuel ih =>
    cases fuel' with
    | zero =>
      obtain rfl : i = 0 := by omega
      simp [siftUp]
    | succ fuel' =>
      simp only [siftUp]
      split
      · rfl
      · have : ∀ hp, siftUp lt fuel hp ((i - 1) / 2) = siftUp lt fuel' hp ((i - 1) / 2) := fun hp =>
          ih (by omega) (by omega)
        simp only [this]

/-- A sift-down from no slot of HEAP changes nothing. -/
theorem siftDown_of_length_le {lt : Index → Index → Bool} {heap : List Index} {i : Nat} (fuel : Nat)
    (h : heap.length ≤ i) : siftDown lt fuel heap i = heap := by
  cases fuel with
  | zero => rfl
  | succ fuel => simp only [siftDown, List.getElem?_eq_none h, ite_self]

/-- The bound of the sift-down does not show once it reaches HSZ from the slot. -/
theorem siftDown_fuel {lt : Index → Index → Bool} {fuel fuel' : Nat} {heap : List Index} {i : Nat}
    (h : heap.length ≤ fuel + i) (h' : heap.length ≤ fuel' + i) :
    siftDown lt fuel heap i = siftDown lt fuel' heap i := by
  induction fuel generalizing fuel' heap i with
  | zero => rw [siftDown_of_length_le _ (by omega), siftDown_of_length_le _ (by omega)]
  | succ fuel ih =>
    cases fuel' with
    | zero => rw [siftDown_of_length_le _ (by omega), siftDown_of_length_le _ (by omega)]
    | succ fuel' =>
      simp only [siftDown]
      split
      · rfl
      · next hne =>
        have := sinkSlot_lt hne
        split
        · exact ih (by simp only [swapSlots_length]; omega) (by simp only [swapSlots_length]; omega)
        · rfl

/-- A sift-up rearranges HEAP. -/
theorem siftUp_perm (lt : Index → Index → Bool) (fuel : Nat) (heap : List Index) (i : Nat) :
    (siftUp lt fuel heap i).Perm heap := by
  induction fuel generalizing heap i with
  | zero => exact .refl _
  | succ fuel ih =>
    simp only [siftUp]
    split
    · exact .refl _
    · split
      · next x y hx hy =>
        split
        · exact (ih _ _).trans (swapSlots_perm hx hy)
        · exact .refl _
      · exact .refl _

/-- A sift-down rearranges HEAP. -/
theorem siftDown_perm (lt : Index → Index → Bool) (fuel : Nat) (heap : List Index) (i : Nat) :
    (siftDown lt fuel heap i).Perm heap := by
  induction fuel generalizing heap i with
  | zero => exact .refl _
  | succ fuel ih =>
    simp only [siftDown]
    split
    · exact .refl _
    · split
      · next x y hx hy => exact (ih _ _).trans (swapSlots_perm hx hy)
      · exact .refl _

/-- PQ.insert adds the node and nothing else. -/
theorem heapInsert_perm (lt : Index → Index → Bool) (heap : List Index) (n : Index) :
    (heapInsert lt heap n).Perm (n :: heap) :=
  (siftUp_perm lt _ _ _).trans (List.perm_append_singleton n heap)

@[simp] theorem heapInsert_length (lt : Index → Index → Bool) (heap : List Index) (n : Index) :
    (heapInsert lt heap n).length = heap.length + 1 := by
  simpa using (heapInsert_perm lt heap n).length_eq

/-- PQ.extractMin answers nothing exactly on an empty queue. -/
theorem heapExtract_eq_none {lt : Index → Index → Bool} {heap : List Index} :
    heapExtract lt heap = none ↔ heap = [] := by
  cases heap with
  | nil => simp [heapExtract]
  | cons m rest =>
    simp only [heapExtract]
    split <;> simp

/-- PQ.extractMin takes the node in slot 0. -/
theorem heapExtract_head {lt : Index → Index → Bool} {heap rest : List Index} {m : Index}
    (h : heapExtract lt heap = some (m, rest)) : heap.head? = some m := by
  cases heap with
  | nil => simp [heapExtract] at h
  | cons a tail =>
    simp only [heapExtract] at h
    split at h <;> simp_all

/-- PQ.extractMin removes the node it returns and nothing else. -/
theorem heapExtract_perm {lt : Index → Index → Bool} {heap rest : List Index} {m : Index}
    (h : heapExtract lt heap = some (m, rest)) : heap.Perm (m :: rest) := by
  cases heap with
  | nil => simp [heapExtract] at h
  | cons a tail =>
    simp only [heapExtract] at h
    split at h
    · next hl =>
      simp only [Option.some.injEq, Prod.mk.injEq] at h
      obtain ⟨rfl, rfl⟩ := h
      simp [List.getLast?_eq_none_iff.mp hl]
    · next top hl =>
      simp only [Option.some.injEq, Prod.mk.injEq] at h
      obtain ⟨rfl, rfl⟩ := h
      have ht : tail = tail.dropLast ++ [top] := (List.dropLast_append_getLast? top hl).symm
      have hp : tail.Perm (top :: tail.dropLast) := by
        conv_lhs => rw [ht]
        exact List.perm_append_singleton top _
      exact .cons a (hp.trans (siftDown_perm lt _ _ _).symm)

/-- PQ.insert writes HEAP only, and only with room in the queue (R162, R275). -/
theorem pqInsert_ok {n : Index} {s t : State} (h : pqInsert n s = .ok t) :
    s.heap.length < Config.qcap ∧ t = { s with heap := heapInsert (lighter s.node) s.heap n } := by
  simp only [pqInsert] at h
  split at h
  · next hl => exact ⟨hl, by simpa using h.symm⟩
  · simp at h

theorem pqInsert_of_room {n : Index} {s : State} (h : s.heap.length < Config.qcap) :
    pqInsert n s = .ok { s with heap := heapInsert (lighter s.node) s.heap n } := by
  simp [pqInsert, h]

/-- PQ.extractMin writes HEAP only. -/
theorem pqExtract_some {s t : State} {m : Index} (h : pqExtract s = some (m, t)) :
    ∃ rest, heapExtract (lighter s.node) s.heap = some (m, rest) ∧ t = { s with heap := rest } := by
  simp only [pqExtract] at h
  split at h
  · simp at h
  · next a rest he =>
    simp only [Option.some.injEq, Prod.mk.injEq] at h
    obtain ⟨rfl, rfl⟩ := h
    exact ⟨rest, he, rfl⟩

theorem pqExtract_eq_none {s : State} : pqExtract s = none ↔ s.heap = [] := by
  rw [← heapExtract_eq_none (lt := lighter s.node), pqExtract]
  split <;> simp_all

end Sys2Proof.Machine
end

