-- ==== Sys2Proof/Laws/Step.lean ====
section
/-! SUPPORT. The three moves of a step (spec/00_scope.md rule R10, spec/70_reset_and_hazards.md rule R310). -/

namespace Sys2Proof.Machine

theorem step_idle {s : State} (h : s.inputs = []) : step s = .next s := by
  simp [step, sequence, h]

theorem step_command {s : State} {word : CommandWord} {w : Sideband} {rest : List Input}
    (h : s.inputs = .command word w :: rest) :
    step s = runCommand word (narrowCount s.cfg w) { s with inputs := rest } := by
  simp [step, sequence, h]

theorem step_reset {s : State} {rest : List Input} (h : s.inputs = .reset :: rest) :
    step s = .next { s.cleared with inputs := rest } := by
  simp [step, sequence, h]

/-- A command word that spells a command runs it; one that spells none is illegal (R118). -/
theorem runCommand_of_ok {word : CommandWord} {w : Sideband} {i : Instr} (s : State) (h : decode word w = .ok i) :
    runCommand word w s = exec i s := by
  simp [runCommand, h]

theorem runCommand_of_error {word : CommandWord} {w : Sideband} {e : DecodeError} (s : State)
    (h : decode word w = .error e) : runCommand word w s = illegalCommand word s := by
  simp [runCommand, h]

/-- The command's own part, for every command: `exec` is the common frame around it (R140). -/
def effectOf (i : Instr) (s : State) : Effect :=
  match i with
  | .nop => .ok (Done.ok s 0)
  | .clr => .ok (Done.ok s.cleared 0)
  | .ldf a w => ldfEffect a w s
  | .cnt a => cntEffect a s
  | .rdf a => .ok (Done.ok s ((s.freqAt a).setWidth 72))
  | .rds r => rdsEffect r s
  | .pqi n => pqiEffect n s
  | .pqx => pqxEffect s
  | .rdh i => rdhEffect i s
  | .mkl => mklEffect s
  | .mrg => mrgEffect s
  | .fin => finEffect s
  | .bld => bldEffect s
  | .rdnw n => rdnwEffect n s
  | .rdnl n => rdnlEffect n s
  | .gen => genEffect s
  | .rdc a => .ok (Done.ok s ((s.codeAt a).len.setWidth 72))
  | .rdcb a k => .ok (Done.ok s (((s.codeAt a).slice k).setWidth 72))
  | .enc a => encEffect a s
  | .efl => eflEffect s
  | .dst => .ok (Done.ok { s with cur := s.root, emitted := 0, flags := { s.flags with ds := true } } 0)
  | .dbt b => decodeEffect [b] s
  | .dby a => decodeEffect (byteBits a) s
  | .den => denEffect s

/-- Every meaning is the common frame around the command's own part (R140), so a claim over all commands goes through
`command_cases` once. -/
theorem exec_eq_command (i : Instr) (s : State) : exec i s = command i (effectOf i) s := by
  cases i <;> rfl

end Sys2Proof.Machine
end

