-- ==== Sys2Proof/Laws/Stream.lean ====
section
/-! SUPPORT. The laws of the encoder's packer, of DecodeBit and of Walk (spec/44_encoder.md, spec/45_decoder.md,
spec/43_code_generator.md). -/

namespace Sys2Proof.Machine

/-- A round of ENC leaves 0 to 7 bits pending (R42). -/
theorem Packer.push_nbits {p : Packer} (h : p.nbits < 8) (b : Bool) : (p.push b).nbits < 8 := by
  simp only [Packer.push]
  split
  · exact Nat.zero_lt_succ 7
  · show p.nbits + 1 < 8
    omega

theorem Packer.pushAll_nbits {p : Packer} (h : p.nbits < 8) (bits : List Bool) : (p.pushAll bits).nbits < 8 := by
  induction bits generalizing p with
  | nil => exact h
  | cons b rest ih => exact ih (Packer.push_nbits h b)

/-- The packer loses no bit and invents none: eight for each byte emitted, the rest pending (R218). -/
theorem Packer.push_count {p : Packer} (b : Bool) :
    8 * (p.push b).bytes.length + (p.push b).nbits = 8 * p.bytes.length + p.nbits + 1 := by
  simp only [Packer.push]
  split
  · next h =>
    simp only [List.length_append, List.length_singleton]
    omega
  · rfl

theorem Packer.pushAll_count {p : Packer} (bits : List Bool) :
    8 * (p.pushAll bits).bytes.length + (p.pushAll bits).nbits = 8 * p.bytes.length + p.nbits + bits.length := by
  induction bits generalizing p with
  | nil => rfl
  | cons b rest ih =>
    have h := ih (p := p.push b)
    rw [Packer.push_count] at h
    simp only [Packer.pushAll, List.foldl_cons, List.length_cons] at h ⊢
    omega

/-- DecodeBit writes CUR and EMITTED only (R231). -/
theorem decodeBit_frame (b : Bool) (s : State) :
    (decodeBit b s).1 = { s with cur := (decodeBit b s).1.cur, emitted := (decodeBit b s).1.emitted } := by
  simp only [decodeBit]
  split
  · rfl
  · split <;> rfl

theorem decodeBits_frame (bits : List Bool) (s : State) :
    (decodeBits bits s).1 =
      { s with cur := (decodeBits bits s).1.cur, emitted := (decodeBits bits s).1.emitted } := by
  induction bits generalizing s with
  | nil => rfl
  | cons b rest ih =>
    have h1 := decodeBit_frame b s
    have h2 := ih (decodeBit b s).1
    simp only [decodeBits]
    generalize (decodeBit b s).1 = t at h1 h2 ⊢
    generalize (decodeBits rest t).1 = u at h2 ⊢
    rw [h1] at h2
    exact h2

/-- DecodeBit ignores a bit once all symbols are out (R231). -/
theorem decodeBit_done {b : Bool} {s : State} (h : s.emitted = s.total) : decodeBit b s = (s, []) := by
  simp [decodeBit, h]

/-- DecodeBit emits at most one symbol (R231). -/
theorem decodeBit_length (b : Bool) (s : State) : (decodeBit b s).2.length ≤ 1 := by
  simp only [decodeBit]
  split
  · exact Nat.zero_le 1
  · split
    · exact Nat.le_refl 1
    · exact Nat.zero_le 1

/-- Bits decoded in two parts (R234). -/
theorem decodeBits_append (xs ys : List Bool) (s : State) :
    decodeBits (xs ++ ys) s =
      ((decodeBits ys (decodeBits xs s).1).1, (decodeBits xs s).2 ++ (decodeBits ys (decodeBits xs s).1).2) := by
  induction xs generalizing s with
  | nil => rfl
  | cons b rest ih =>
    simp only [List.cons_append, decodeBits, ih, List.append_assoc]

/-- Walk keeps the canonical form of CODE. -/
theorem walk_wf {arena : List Node} {fuel : Nat} {n : Index} {len : Nat} {v : BitVec 255} {g g' : Walked}
    (h : walk arena fuel n len v g = some g') (hg : Memory.wf Code.none 256 g.code = true) :
    Memory.wf Code.none 256 g'.code = true := by
  induction fuel generalizing n len v g g' with
  | zero => simp [walk] at h
  | succ fuel ih =>
    simp only [walk] at h
    split at h
    · simp only [Option.some.injEq] at h
      subst h
      exact Memory.wf_write _ _ _ _ _ (BitVec.isLt _) hg
    · split at h
      · next g1 h1 => exact ih h (ih h1 hg)
      · simp at h

end Sys2Proof.Machine
end

