-- ==== Sys2Proof/Laws/Tree.lean ====
section
/-! SUPPORT. What each stage of the tree builder does when it answers, said once (spec/42_tree_builder.md rules R181 to
R184): which fields it writes, and how the arena grows. -/

namespace Sys2Proof.Machine

/-- An allocation appends one entry, and only where the arena has room (R37). -/
theorem allocate_ok {k : Kind} {w : Weight} {o : Owner} {s t : State} (h : allocate k w o s = .ok t) :
    s.node.length < Config.ncap ∧ t = { s with node := s.node ++ [⟨k, narrowWeight s.cfg w, o⟩] } := by
  simp only [allocate] at h
  split at h
  · next hl => exact ⟨hl, by simpa using h.symm⟩
  · simp at h

/-- A queued allocation appends an entry with tag Q and inserts its index, which was NCNT. -/
theorem allocateQueued_ok {k : Kind} {w : Weight} {s t : State} (h : allocateQueued k w s = .ok t) :
    s.node.length < Config.ncap ∧ s.heap.length < Config.qcap ∧
    t = { s with
      node := s.node ++ [⟨k, narrowWeight s.cfg w, .q⟩]
      heap := heapInsert (lighter (s.node ++ [⟨k, narrowWeight s.cfg w, .q⟩])) s.heap s.ncnt } := by
  simp only [allocateQueued] at h
  split at h
  · next u ha =>
    obtain ⟨hl, rfl⟩ := allocate_ok ha
    obtain ⟨hq, rfl⟩ := pqInsert_ok h
    exact ⟨hl, hq, rfl⟩
  · simp at h

theorem allocateQueued_of_room {k : Kind} {w : Weight} {s : State} (hl : s.node.length < Config.ncap)
    (hq : s.heap.length < Config.qcap) :
    allocateQueued k w s = .ok { s with
      node := s.node ++ [⟨k, narrowWeight s.cfg w, .q⟩]
      heap := heapInsert (lighter (s.node ++ [⟨k, narrowWeight s.cfg w, .q⟩])) s.heap s.ncnt } := by
  simp only [allocateQueued, allocate, hl, if_true]
  rw [pqInsert_of_room (by exact hq)]

/-- The loop of MKL writes NODE and HEAP only. -/
theorem makeLeaves_frame {symbolsLeft : List Byte} {total w : Weight} {s t : State}
    (h : makeLeaves symbolsLeft total s = .ok (w, t)) : t = { s with node := t.node, heap := t.heap } := by
  induction symbolsLeft generalizing total s with
  | nil =>
    simp only [makeLeaves, Except.ok.injEq, Prod.mk.injEq] at h
    obtain ⟨-, rfl⟩ := h
    rfl
  | cons a rest ih =>
    simp only [makeLeaves] at h
    split at h
    · exact ih h
    · split at h
      · next u hu =>
        obtain ⟨-, -, rfl⟩ := allocateQueued_ok hu
        have := ih h
        exact this
      · simp at h

/-- MKL writes NODE, HEAP, TOTAL and FLAG.QL only (R181). -/
theorem loadQueue_frame {s t : State} (h : loadQueue s = .ok t) :
    t = { s with node := t.node, heap := t.heap, total := t.total, flags := { s.flags with ql := true } } := by
  simp only [loadQueue] at h
  split at h
  · next total u hu =>
    simp only [Except.ok.injEq] at h
    subst h
    have := makeLeaves_frame hu
    generalize u.node = ns, u.heap = hs at this
    subst this
    rfl
  · simp at h

/-- One merge, whole (R182): the two nodes extracted, their tags, the new entry, the queue after it. -/
theorem mergeTwo_some {s t : State} (h : mergeTwo s = .ok (some t)) :
    ∃ a b h1 h2,
      heapExtract (lighter s.node) s.heap = some (a, h1) ∧ heapExtract (lighter s.node) h1 = some (b, h2) ∧
      s.node.length < Config.ncap ∧ h2.length < Config.qcap ∧
      t = { s with
        node := ((s.setOwner a .p).setOwner b .p).node ++
          [⟨.internal a b, narrowWeight s.cfg ((s.nodeAt a).w + (s.nodeAt b).w), .q⟩]
        heap := heapInsert (lighter (((s.setOwner a .p).setOwner b .p).node ++
          [⟨.internal a b, narrowWeight s.cfg ((s.nodeAt a).w + (s.nodeAt b).w), .q⟩])) h2 s.ncnt } := by
  simp only [mergeTwo] at h
  split at h
  · simp at h
  · next a s1 h1 =>
    obtain ⟨r1, he1, rfl⟩ := pqExtract_some h1
    split at h
    · simp at h
    · next b s2 h2 =>
      obtain ⟨r2, he2, rfl⟩ := pqExtract_some h2
      split at h
      · next u hu =>
        obtain ⟨hl, hq, rfl⟩ := allocateQueued_ok hu
        simp only [Except.ok.injEq, Option.some.injEq] at h
        subst h
        refine ⟨a, b, r1, r2, he1, he2, by simpa using hl, hq, ?_⟩
        simp [State.nodeAt, State.ncnt, State.setOwner]
      · simp at h

/-- MRG answers EMPTY exactly with fewer than two nodes in the queue (R182). -/
theorem mergeTwo_none {s : State} : mergeTwo s = .ok none ↔ s.heap.length < 2 := by
  simp only [mergeTwo]
  split
  · next h => simp [pqExtract_eq_none.mp h]
  · next a s1 h1 =>
    obtain ⟨r1, he1, rfl⟩ := pqExtract_some h1
    have hp := (heapExtract_perm he1).length_eq
    split
    · next h =>
      have : r1 = [] := pqExtract_eq_none.mp h
      subst this
      simp [hp]
    · next b s2 h2 =>
      obtain ⟨r2, he2, rfl⟩ := pqExtract_some h2
      have hq := (heapExtract_perm he2).length_eq
      simp only [List.length_cons] at hp hq
      have : ¬ s.heap.length < 2 := by
        have : r1.length = r2.length + 1 := hq
        omega
      split <;> simp [this]

/-- A merge takes two nodes out of the queue and puts one in: "Each MRG lowers HSZ by one" (R182). -/
theorem mergeTwo_heap_length {s t : State} (h : mergeTwo s = .ok (some t)) : s.heap.length = t.heap.length + 1 := by
  obtain ⟨a, b, h1, h2, he1, he2, -, -, rfl⟩ := mergeTwo_some h
  have hp := (heapExtract_perm he1).length_eq
  have hq := (heapExtract_perm he2).length_eq
  simp only [List.length_cons] at hp hq
  simp [hp, hq]

/-- The synthetic root (R188): one entry more, its two child fields naming the one Leaf. -/
theorem syntheticRoot_ok {m : Index} {s t : State} (h : syntheticRoot m s = .ok t) :
    s.node.length < Config.ncap ∧
    t = { s with
      node := (s.setOwner m .p).node ++ [⟨.internal m m, narrowWeight s.cfg (s.nodeAt m).w, .r⟩]
      root := s.ncnt
      flags := { s.flags with dg := true, tv := true } } := by
  simp only [syntheticRoot] at h
  split at h
  · next u hu =>
    obtain ⟨hl, rfl⟩ := allocate_ok hu
    simp only [Except.ok.injEq] at h
    subst h
    exact ⟨by simpa using hl, rfl⟩
  · simp at h

end Sys2Proof.Machine
end

