-- ==== Sys2Proof/Tests/Slice0.lean ====
section
/-! SUPPORT. Tests, each about one operation or one step on a small state, the expected values from
spec/95_test_vectors.md or worked out from the rules named; and for every obligation with hypotheses a witness, a
concrete state and operands that meet them (theorems `witness_…`). -/

namespace Sys2Proof.Tests

open Sys2Proof Sys2Proof.Machine

/-! States of the run over "aaabbc" (spec/95_test_vectors.md 3.1 to 3.3), of "bbb" (3.4) and of the empty input (3.6). -/

/-- What an observation `f` sees of the state after an outcome; none after a stop. -/
def after {α : Type} (o : Host.Outcome State Fault Refusal) (f : State → α) : Option α :=
  match o with
  | .next t => some (f t)
  | .fault _ => none
  | .refused _ => none

/-- The one response (status number, data) with no byte. -/
def answer (st : Status) (data : Data) : List Sent := [.rsp ⟨st, data⟩]

/-- After `CNTS "aaabbc"`. -/
def counted : State := { State.reset with freq := [(0x61, 3), (0x62, 2), (0x63, 1)] }

/-- The leaves of "aaabbc" with their owners. -/
def leaves (a b c : Owner) : List Node := [⟨.leaf 0x61, 3, a⟩, ⟨.leaf 0x62, 2, b⟩, ⟨.leaf 0x63, 1, c⟩]

/-- The arena of "aaabbc" before FIN, and after it. -/
def arena (root : Owner) : List Node := leaves .p .p .p ++ [⟨.internal 2 1, 3, .p⟩, ⟨.internal 0 3, 6, root⟩]

/-- After MKL. -/
def loaded : State :=
  { counted with
    node := leaves .q .q .q
    heap := [2, 0, 1]
    total := 6
    flags := { Flags.clear with ql := true } }

/-- After MKL and PQX. -/
def held : State := { loaded with node := leaves .q .q .x, heap := [1, 0], xcnt := 1 }

/-- After MKL, MRG, MRG. -/
def merged : State := { loaded with node := arena .q, heap := [4] }

/-- After BLD. -/
def built : State :=
  { loaded with
    node := arena .r
    heap := []
    root := 4
    flags := { Flags.clear with ql := true, tv := true } }

/-- After BLD, GEN. -/
def coded : State :=
  { built with code := [(0x61, ⟨1, 0⟩), (0x62, ⟨2, 3⟩), (0x63, ⟨2, 2⟩)], flags := { built.flags with cv := true } }

/-- After BLD, DST. -/
def decoding : State := { built with cur := 4, flags := { built.flags with ds := true } }

/-- After BLD, DST and the bits of "aaabb". -/
def nearEnd : State := { decoding with emitted := 5 }

/-- After BLD, DST and all six symbols. -/
def atEnd : State := { decoding with emitted := 6 }

/-- "bbb" after MKL. -/
def loneLeaf : State :=
  { State.reset with
    freq := [(0x62, 3)]
    node := [⟨.leaf 0x62, 3, .q⟩]
    heap := [0]
    total := 3
    flags := { Flags.clear with ql := true } }

/-- "bbb" after BLD, the degenerate build. -/
def lone : State :=
  { loneLeaf with
    node := [⟨.leaf 0x62, 3, .p⟩, ⟨.internal 0 0, 3, .r⟩]
    heap := []
    root := 1
    flags := { Flags.clear with ql := true, tv := true, dg := true } }

/-- The empty input after BLD. -/
def emptyBuild : State := { State.reset with flags := { Flags.clear with ql := true, tv := true, em := true } }

/-- `LDF 'a', 0xFFFFFFFF` at reset: a full counter. -/
def full : State := { State.reset with freq := [(0x61, 0xFFFFFFFF)] }

/-- The engine in the faulted state of 3.5. -/
def broken : State :=
  { full with flags := { Flags.clear with er := true }, errcode := 10, errinfo := 0x03000061 }

/-! Well-formedness: an ill-formed term for each check, which the check refuses (R118). -/

theorem test_wellFormed_rds : (Instr.rds 12).wellFormed = true ∧ (Instr.rds 13).wellFormed = false := by decide

theorem test_wellFormed_rdcb : (Instr.rdcb 0x61 7).wellFormed = true ∧ (Instr.rdcb 0x61 8).wellFormed = false := by
  decide

theorem test_illformed_refused :
    after (exec (.rds 13) State.reset) State.errcode = some 8 ∧
    after (exec (.rdcb 0x61 8) State.reset) State.errcode = some 8 ∧
    after (exec (.rds 13) broken) State.sent = some (answer .faulted 0) := by decide

/-! Decoding: a word of every command, assembled in 2.1 of the vectors, the fields as R110 and R111 place them. -/

theorem test_decode_control :
    decode 0b00000000_00000000_00000000_00000000 0 = .ok .nop ∧
    decode 0b00000001_00000000_00000000_00000000 0 = .ok .clr ∧
    decode 0b00000010_00000000_00000000_01100001 3 = .ok (.ldf 0x61 3) ∧
    decode 0b00000011_00000000_00000000_11111111 0 = .ok (.cnt 0xFF) ∧
    decode 0b00000100_00000000_00000000_00000000 0 = .ok (.rdf 0) ∧
    decode 0b00000101_00000000_00000000_00001100 0 = .ok (.rds 12) := by decide

theorem test_decode_queue :
    decode 0b00010000_00000000_00000001_11111110 0 = .ok (.pqi 510) ∧
    decode 0b00010001_00000000_00000000_00000000 0 = .ok .pqx ∧
    decode 0b00010010_00000000_00000000_11111111 0 = .ok (.rdh 255) := by decide

theorem test_decode_tree :
    decode 0b00100000_00000000_00000000_00000000 0 = .ok .mkl ∧
    decode 0b00100001_00000000_00000000_00000000 0 = .ok .mrg ∧
    decode 0b00100010_00000000_00000000_00000000 0 = .ok .fin ∧
    decode 0b00100011_00000000_00000000_00000000 0 = .ok .bld ∧
    decode 0b00100100_00000000_00000000_00000100 0 = .ok (.rdnw 4) ∧
    decode 0b00100101_00000000_00000001_11111110 0 = .ok (.rdnl 510) := by decide

theorem test_decode_codes :
    decode 0b00110000_00000000_00000000_00000000 0 = .ok .gen ∧
    decode 0b00110001_00000000_00000000_01100001 0 = .ok (.rdc 0x61) ∧
    decode 0b00110010_00000000_00000000_01100001 7 = .ok (.rdcb 0x61 7) ∧
    decode 0b01000000_00000000_00000000_01111010 0 = .ok (.enc 0x7A) ∧
    decode 0b01000001_00000000_00000000_00000000 0 = .ok .efl := by decide

theorem test_decode_decoder :
    decode 0b01010000_00000000_00000000_00000000 0 = .ok .dst ∧
    decode 0b01010001_00000000_00000000_00000001 0 = .ok (.dbt true) ∧
    decode 0b01010001_00000000_00000000_00000000 0 = .ok (.dbt false) ∧
    decode 0b01010010_00000000_00000000_00011111 0 = .ok (.dby 0x1F) ∧
    decode 0b01010011_00000000_00000000_00000000 0 = .ok .den := by decide

/-- The illegal words of 2.1. -/
theorem test_decode_illegal :
    decode 0x06000000 0 = .error (.unknownOpcode 0x06) ∧ decode 0xFF000000 0 = .error (.unknownOpcode 0xFF) ∧
    decode 0x13000000 0 = .error (.unknownOpcode 0x13) ∧ decode 0x00010000 0 = .error .reservedZ ∧
    decode 0x03800061 0 = .error .reservedZ ∧ decode 0x20000001 0 = .error .reservedA ∧
    decode 0x00008000 0 = .error .reservedA ∧ decode 0x03000100 0 = .error .reservedA ∧
    decode 0x10000200 0 = .error .reservedA ∧ decode 0x51000002 0 = .error .reservedA ∧
    decode 0x0500000D 0 = .error (.reservedRegister 13) ∧ decode 0x050000FF 0 = .error (.reservedRegister 255) ∧
    decode 0x32000061 8 = .error (.reservedSlice 8) := by decide

/-- No two rows of the table of R117 match one word: two patterns differ at a bit both masks hold. -/
theorem test_rows_disjoint :
    opcodeTable.Pairwise (fun r q => r.pattern &&& q.mask &&& r.mask ≠ q.pattern &&& q.mask &&& r.mask) := by
  decide

theorem test_decodeTableWord :
    decodeTableWord 32 0x52FF = none ∧ decodeTableWord 32 0x5200001F = some (.dby 0x1F) ∧
    decodeTableWord 32 0x20000000 = some .mkl := by decide

/-- The first step after reset runs the word placed for it. -/
theorem test_first_step :
    after (step (State.reset.withFetchWord 32 0x020000FF)) State.sent = some (answer .ok 0) ∧
    after (step (State.reset.withFetchWord 32 0x23000000)) State.sent = some (answer .empty 0) ∧
    after (step (State.reset.withFetchWord 32 0x30000000)) State.errinfo = some 0x30000000 := by decide +kernel

/-! The sequencer (R32, R118, R310). -/

theorem test_step_takes_oldest :
    after (step { full with inputs := [.command 0x04000061 0, .reset] }) (fun t => (t.sent, t.inputs)) =
      some (answer .ok 0xFFFFFFFF, [.reset]) := by decide

theorem test_step_illegal :
    after (step { State.reset with inputs := [.command 0x06000000 0] })
      (fun t => (t.sent, t.errcode, t.errinfo, t.status)) = some (answer (.fault .ill) 0, 8, 0x06000000, 0x80) := by
  decide

theorem test_step_reset : after (step { broken with inputs := [.reset] }) id = some State.reset := by decide

/-- W has CW bits (R112): with CW = 8 the bits above are not of the channel. -/
theorem test_step_narrows_w :
    after (step { State.reset with cfg := .w8, inputs := [.command 0x02000061 0x1FF] }) (fun t => t.freqAt 0x61) =
      some 0xFF := by decide

/-! Control and frequency table (2.2, 3.5). -/

theorem test_nop : after (exec .nop broken) (fun t => (t.sent, t.errcode)) = some (answer .ok 0, 10) := by
  decide

theorem test_clr :
    after (exec .clr broken) (fun t => (t.sent, t.status, t.errcode, t.errinfo, t.freqAt 0x61)) =
      some (answer .ok 0, 0, 0, 0, 0) := by decide

theorem test_ldf_overwrites :
    after (exec (.ldf 0x61 7) counted) (fun t => (t.freqAt 0x61, t.freqAt 0x62, t.sent)) = some (7, 2, answer .ok 0) ∧
    after (exec (.ldf 0x61 0) counted) State.freq = some [(0x62, 2), (0x63, 1)] := by decide

theorem test_ldf_after_mkl :
    after (exec (.ldf 0x01 1) loaded) (fun t => (t.sent, t.status, t.errinfo)) =
      some (answer (.fault .seq) 0, 0x81, 0x02000001) := by decide

theorem test_cnt : after (exec (.cnt 0x61) counted) (fun t => (t.freqAt 0x61, t.sent)) = some (4, answer .ok 0) := by
  decide

theorem test_cnt_overflow :
    after (exec (.cnt 0x61) full) (fun t => (t.sent, t.status, t.errcode, t.errinfo, t.freqAt 0x61)) =
      some (answer (.fault .ovf) 0, 0x80, 10, 0x03000061, 0xFFFFFFFF) := by decide

theorem test_rdf :
    after (exec (.rdf 0x61) broken) State.sent = some (answer .ok 0xFFFFFFFF) ∧
    after (exec (.rdf 0x64) counted) State.sent = some (answer .ok 0) := by decide

theorem test_rds :
    after (exec (.rds 0) State.reset) State.sent = some (answer .ok 0x20) ∧
    after (exec (.rds 3) broken) State.sent = some (answer .ok 0x03000061) ∧
    after (exec (.rds 4) built) State.sent = some (answer .ok 5) ∧
    after (exec (.rds 12) held) State.sent = some (answer .ok 1) := by decide

theorem test_rds_status :
    after (exec (.rds 1) atEnd) State.sent = some (answer .ok 0x63) ∧
    after (exec (.rds 1) lone) State.sent = some (answer .ok 0x0B) ∧
    after (exec (.rds 1) emptyBuild) State.sent = some (answer .ok 0x07) ∧
    after (exec (.rds 1) coded) State.sent = some (answer .ok 0x13) := by decide

/-! Priority queue (2.3, 3.3). -/

theorem test_insert_ties :
    [1, 2, 3, 4].foldl (fun h n => heapInsert (fun _ _ => false) h n) [0] = ([0, 1, 2, 3, 4] : List Index) := by
  decide

/-- The order of ties on "abcde": 0, then 4 from [4, 1, 2, 3]. -/
theorem test_extract_ties :
    heapExtract (fun _ _ => false) [0, 1, 2, 3, 4] = some (0, [4, 1, 2, 3]) ∧
    heapExtract (fun _ _ => false) [4, 1, 2, 3] = some (4, [3, 1, 2]) := by decide

theorem test_pqx :
    after (exec .pqx loaded) (fun t => (t.sent, t.heap, t.node, t.xcnt)) =
      some (answer .ok 2, [1, 0], leaves .q .q .x, 1) ∧
    after (exec .pqx State.reset) State.sent = some (answer .empty 0) := by decide

theorem test_pqx_after_bld :
    after (exec .pqx built) (fun t => (t.sent, t.status)) = some (answer (.fault .seq) 0, 0x83) := by decide

theorem test_pqi :
    after (exec (.pqi 2) held) (fun t => (t.sent, t.heap, t.node, t.xcnt)) =
      some (answer .ok 0, [2, 0, 1], leaves .q .q .q, 0) := by decide

theorem test_pqi_node :
    after (exec (.pqi 0) loaded) State.sent = some (answer (.fault .node) 0) ∧
    after (exec (.pqi 5) loaded) State.errinfo = some 0x10000005 ∧
    after (exec (.pqi 0) built) State.sent = some (answer (.fault .seq) 0) := by decide

theorem test_rdh :
    after (exec (.rdh 1) loaded) State.sent = some (answer .ok 0) ∧
    after (exec (.rdh 2) loaded) State.sent = some (answer .ok 1) ∧
    after (exec (.rdh 3) loaded) State.sent = some (answer .empty 0) := by decide

/-! Tree builder (2.4). -/

theorem test_mkl : after (exec .mkl counted) (fun t => { t with sent := [] }) = some loaded := by decide +kernel

theorem test_mkl_twice :
    after (exec .mkl loaded) State.sent = some (answer (.fault .seq) 0) ∧
    after (exec .mkl State.reset) State.sent = some (answer .ok 0) := by decide +kernel

theorem test_mrg :
    after (exec .mrg loaded) (fun t => (t.sent, t.heap, t.node)) =
      some (answer .ok 3, [0, 3], leaves .q .p .p ++ [⟨.internal 2 1, 3, .q⟩]) := by decide

theorem test_mrg_empty :
    after (exec .mrg merged) (fun t => (t.sent, t.heap)) = some (answer .empty 0, [4]) ∧
    after (exec .mrg State.reset) State.errinfo = some 0x21000000 := by decide

theorem test_fin :
    after (exec .fin merged) (fun t => { t with sent := [] }) = some built ∧
    after (exec .fin loneLeaf) (fun t => { t with sent := [] }) = some lone := by decide

theorem test_fin_faults :
    after (exec .fin loaded) (fun t => (t.sent, t.status)) = some (answer (.fault .seq) 0, 0x81) ∧
    after (exec .fin { loneLeaf with heap := [], xcnt := 1 }) State.sent = some (answer (.fault .seq) 0) := by
  decide

theorem test_bld :
    after (exec .bld counted) (fun t => ({ t with sent := [] }, t.sent)) = some (built, answer .ok 4) := by
  decide +kernel

theorem test_bld_special :
    after (exec .bld { State.reset with freq := [(0x62, 3)] }) (fun t => ({ t with sent := [] }, t.sent)) =
      some (lone, answer .ok 1) ∧
    after (exec .bld State.reset) (fun t => ({ t with sent := [] }, t.sent)) = some (emptyBuild, answer .empty 0) := by
  decide +kernel

theorem test_rdnw :
    after (exec (.rdnw 4) built) State.sent = some (answer .ok 6) ∧
    after (exec (.rdnw 5) built) State.sent = some (answer .empty 0) := by decide

theorem test_rdnl :
    after (exec (.rdnl 4) built) State.sent = some (answer .ok 0x1C000600) ∧
    after (exec (.rdnl 3) built) State.sent = some (answer .ok 0x14000202) ∧
    after (exec (.rdnl 2) built) State.sent = some (answer .ok 0x118C0000) ∧
    after (exec (.rdnl 2) held) State.sent = some (answer .ok 0x098C0000) := by decide

/-! Code table generator (2.5). -/

theorem test_gen : after (exec .gen built) (fun t => ({ t with sent := [] }, t.sent)) = some (coded, answer .ok 3) := by
  decide

theorem test_gen_special :
    after (exec .gen lone) (fun t => (t.code, t.sent, t.status)) = some ([(0x62, ⟨1, 0⟩)], answer .ok 1, 0x1B) ∧
    after (exec .gen emptyBuild) (fun t => (t.code, t.sent, t.status)) = some ([], answer .ok 0, 0x17) := by
  decide

theorem test_rdc :
    after (exec (.rdc 0x62) coded) State.sent = some (answer .ok 2) ∧
    after (exec (.rdc 0x64) coded) State.sent = some (answer .ok 0) := by decide

theorem test_rdcb :
    after (exec (.rdcb 0x62 0) coded) State.sent = some (answer .ok 3) ∧
    after (exec (.rdcb 0x63 0) coded) State.sent = some (answer .ok 2) ∧
    after (exec (.rdcb 0x62 1) coded) State.sent = some (answer .ok 0) := by decide

/-- Slice 7 holds bits 254 to 224 of the value and a 0 above them (R207). -/
theorem test_rdcb_top :
    after (exec (.rdcb 0x61 7) { coded with code := [(0x61, ⟨255, BitVec.allOnes 255⟩)] }) State.sent =
      some (answer .ok 0x7FFFFFFF) := by decide

/-! Bitstream encoder (2.6). -/

theorem test_enc :
    after (exec (.enc 0x63) { coded with acc := 0b0001111, nbits := 7 }) (fun t => (t.sent, t.acc, t.nbits)) =
      some ([.byte 0x1F, .rsp ⟨.ok, 1⟩], 0, 1) ∧
    after (exec (.enc 0x62) { coded with acc := 0b000, nbits := 3 }) (fun t => (t.sent, t.acc, t.nbits)) =
      some (answer .ok 0, 0b00011, 5) := by decide

theorem test_enc_nocode :
    after (exec (.enc 0x7A) { coded with nbits := 1 }) (fun t => (t.sent, t.errinfo, t.nbits, t.status)) =
      some (answer (.fault .nocode) 0, 0x4000007A, 1, 0x93) := by decide

theorem test_efl :
    after (exec .efl { coded with acc := 3, nbits := 2 }) (fun t => (t.sent, t.acc, t.nbits)) =
      some ([.byte 0xC0, .rsp ⟨.ok, 1⟩], 0, 0) ∧
    after (exec .efl coded) State.sent = some (answer .ok 0) := by decide

theorem test_efl_phase :
    after (exec .efl built) (fun t => (t.sent, t.errinfo)) = some (answer (.fault .seq) 0, 0x41000000) := by
  decide

/-! Bitstream decoder (2.7). -/

theorem test_dst :
    after (exec .dst { built with emitted := 5, cur := 3 }) (fun t => { t with sent := [] }) = some decoding ∧
    after (exec .dst State.reset) State.errinfo = some 0x50000000 := by decide

theorem test_dbt :
    after (exec (.dbt true) decoding) (fun t => (t.sent, t.cur, t.emitted)) = some (answer .ok 0, 3, 0) ∧
    after (exec (.dbt false) decoding) (fun t => (t.sent, t.cur, t.emitted)) =
      some ([.byte 0x61, .rsp ⟨.ok, 1⟩], 4, 1) := by decide

/-- Both child fields of the synthetic root name the Leaf (R236). -/
theorem test_dbt_synthetic :
    after (exec (.dbt true) { lone with cur := 1, flags := { lone.flags with ds := true } }) State.sent =
      some [.byte 0x62, .rsp ⟨.ok, 1⟩] := by decide

theorem test_dby :
    after (exec (.dby 0x1F) decoding) (fun t => (t.sent, t.cur, t.emitted)) =
      some ([.byte 0x61, .byte 0x61, .byte 0x61, .byte 0x62, .byte 0x62, .rsp ⟨.ok, 5⟩], 3, 5) := by decide

theorem test_dby_end :
    after (exec (.dby 0x00) { nearEnd with cur := 3 }) (fun t => (t.sent, t.cur, t.emitted)) =
      some ([.byte 0x63, .rsp ⟨.ok, 1⟩], 4, 6) ∧
    after (exec (.dby 0xFF) atEnd) (fun t => (t.sent, t.emitted)) = some (answer .ok 0, 6) := by decide

theorem test_den :
    after (exec .den atEnd) (fun t => (t.sent, t.status, t.cur, t.emitted)) = some (answer .ok 0, 0x03, 4, 6) := by
  decide

theorem test_den_short :
    after (exec .den nearEnd) (fun t => (t.sent, t.status, t.errcode, t.errinfo)) =
      some (answer (.fault .trunc) 0, 0xA3, 14, 0x53000000) := by decide

/-! The faulted state (2.8). -/

theorem test_faulted_gate :
    after (exec (.cnt 0x62) broken) (fun t => (t.sent, t.errcode, t.freq)) = some (answer .faulted 0, 10, full.freq) ∧
    after (exec .bld broken) State.sent = some (answer .faulted 0) ∧
    after (exec (.rdcb 0x61 0) broken) State.sent = some (answer .ok 0) ∧
    broken.ports = ⟨true, false, false, true⟩ := by decide

/-- E_QFULL, which no run reaches, over an arena no run builds (R275). -/
theorem test_pqi_qfull :
    after (exec (.pqi 0) { held with node := leaves .x .q .q, heap := List.replicate 256 1 })
      (fun t => (t.sent, t.xcnt, t.node)) = some (answer (.fault .qfull) 0, 1, leaves .x .q .q) := by decide +kernel

/-! The container (3.1, R251, R257). -/

theorem test_container_order :
    counterBytes .w32 .little 3 = [3, 0, 0, 0] ∧ counterBytes .w32 .big 3 = [0, 0, 0, 3] ∧
    counterBytes .w8 .little 3 = [3] ∧ countOfBytes .big [0, 0, 1, 2] = 0x102 ∧
    countOfBytes .little [2, 1, 0, 0] = 0x102 := by decide

theorem test_container_header :
    headerSize .w32 = 1024 ∧ headerSize .w8 = 256 ∧
    splitContainer .w8 .little (List.replicate 255 0) = none ∧
    (splitContainer .w8 .little (List.replicate 97 0 ++ [3, 2, 1] ++ List.replicate 156 0 ++ [0x1F, 0])).map
      (fun p => (p.1.getD 97 0, p.1.getD 99 0, p.1.length, p.2)) = some (3, 1, 256, [0x1F, 0]) := by decide +kernel

/-! Witnesses. `after_some` turns a test of one step into the existence of its next state. -/

theorem after_some {α : Type} {o : Host.Outcome State Fault Refusal} {f : State → α} {v : α}
    (h : after o f = some v) : ∃ t, o = .next t ∧ f t = v := by
  cases o with
  | next t => exact ⟨t, rfl, by simpa [after] using h⟩
  | fault _ => simp [after] at h
  | refused _ => simp [after] at h

/-- A property of every entry of a concrete arena, checked entry by entry. -/
theorem entries {P : Nat → Node → Prop} {l : List Node} (h : ∀ p ∈ l.zipIdx, P p.2 p.1) (i : Nat) (e : Node)
    (hi : l[i]? = some e) : P i e :=
  h (e, i) (List.mem_zipIdx_iff_getElem?.2 hi)

/-- A state with the host's next move. -/
def State.given (s : State) (ins : List Input) : State := { s with inputs := ins }

theorem given_linked {s : State} {ins : List Input} (h : s.Linked) : (State.given s ins).Linked :=
  ⟨h.1, h.2, h.3, h.4, h.5⟩

theorem given_forest {s : State} {ins : List Input} (h : s.Forest) : (State.given s ins).Forest :=
  ⟨h.1, h.2, h.3, h.4, h.5, h.6, h.7, h.8, h.9, h.10, h.11, h.12, h.13⟩

theorem built_linked : built.Linked where
  arena_fits := by simp [built, arena, leaves, Config.ncap]
  heap_exists := by simp [built]
  children_below := by
    intro i e l r hi hk
    refine entries (P := fun i e => ∀ l r, e.kind = .internal l r → l.toNat < i ∧ r.toNat < i) ?_ i e hi l r hk
    simp [built, arena, leaves, List.zipIdx]
  root_internal := fun _ _ => ⟨⟨.internal 0 3, 6, .r⟩, 0, 3, rfl, rfl⟩
  cursor_internal := by simp [built, loaded, Flags.clear]

theorem built_forest : built.Forest where
  heap_nodup := by simp [built]
  heap_queued := by
    refine fun n => ⟨by simp [built], fun ⟨e, he, ho⟩ => absurd ho ?_⟩
    refine entries (P := fun _ e => e.own ≠ .q) ?_ _ e he
    simp [built, arena, leaves, List.zipIdx]
  held_by_host := by decide
  has_parent := by
    intro i e hi ho
    refine entries (P := fun i e => e.own = .p → ∃ (j : Nat) (e' : Node) (l r : Index), built.node[j]? = some e' ∧
      e'.kind = .internal l r ∧ (l.toNat = i ∨ r.toNat = i)) ?_ i e hi ho
    simp only [built, arena, leaves, List.zipIdx, List.cons_append, List.nil_append, List.forall_mem_cons]
    exact ⟨fun _ => ⟨4, _, 0, 3, rfl, rfl, .inl rfl⟩, fun _ => ⟨3, _, 2, 1, rfl, rfl, .inr rfl⟩,
      fun _ => ⟨3, _, 2, 1, rfl, rfl, .inl rfl⟩, fun _ => ⟨4, _, 0, 3, rfl, rfl, .inr rfl⟩, by simp⟩
  leaves_first := by decide
  symbols_rising := by decide
  not_loaded := by simp [built]
  roots_left := by decide
  degenerate := by simp [built, Flags.clear]
  finished := fun _ => ⟨rfl, rfl⟩
  root_tag := by
    intro i e hi
    refine entries (P := fun i e => e.own = .r ↔ built.flags.tv = true ∧ built.flags.em = false ∧ i = built.root.toNat)
      ?_ i e hi
    simp [built, arena, leaves, List.zipIdx, Flags.clear]
  empty_build := by simp [built, Flags.clear]
  heights := by
    refine fun _ => ⟨fun i => if i = 4 then 2 else if i = 3 then 1 else 0, ?_, by decide⟩
    intro i e l r hi hk
    refine entries (P := fun i e => ∀ l r, e.kind = .internal l r →
      (if l.toNat = 4 then 2 else if l.toNat = 3 then 1 else 0) < (if i = 4 then 2 else if i = 3 then 1 else 0) ∧
      (if r.toNat = 4 then 2 else if r.toNat = 3 then 1 else 0) < (if i = 4 then 2 else if i = 3 then 1 else 0))
      ?_ i e hi l r hk
    simp [built, arena, leaves, List.zipIdx]

theorem loaded_linked : loaded.Linked where
  arena_fits := by simp [loaded, leaves, Config.ncap]
  heap_exists := by simp [loaded, leaves]
  children_below := by
    intro i e l r hi hk
    refine entries (P := fun i e => ∀ l r, e.kind = .internal l r → l.toNat < i ∧ r.toNat < i) ?_ i e hi l r hk
    simp [loaded, leaves, List.zipIdx]
  root_internal := by simp [loaded, Flags.clear]
  cursor_internal := by simp [loaded, Flags.clear]

theorem loaded_forest : loaded.Forest where
  heap_nodup := by decide
  heap_queued := by
    refine fun n => ⟨fun h => ?_, fun ⟨e, he, _⟩ => ?_⟩
    · have h' : n = 2 ∨ n = 0 ∨ n = 1 := by simpa [loaded] using h
      obtain rfl | rfl | rfl := h' <;> exact ⟨_, rfl, rfl⟩
    · have h : n.toNat < 3 := (List.getElem?_eq_some_iff.1 he).1
      have all : ∀ k : Fin 3, BitVec.ofNat 9 k.val ∈ loaded.heap := by decide
      simpa using all ⟨n.toNat, h⟩
  held_by_host := by decide
  has_parent := by
    intro i e hi ho
    refine absurd ho (entries (P := fun _ e => e.own ≠ .p) ?_ i e hi)
    simp [loaded, leaves, List.zipIdx]
  leaves_first := by decide
  symbols_rising := by decide
  not_loaded := by simp [loaded]
  roots_left := by decide
  degenerate := by simp [loaded, Flags.clear]
  finished := by simp [loaded, Flags.clear]
  root_tag := by
    intro i e hi
    refine entries (P := fun i e => e.own = .r ↔ loaded.flags.tv = true ∧ loaded.flags.em = false ∧
      i = loaded.root.toNat) ?_ i e hi
    simp [loaded, leaves, List.zipIdx, Flags.clear]
  empty_build := by simp [loaded, Flags.clear]
  heights := by
    refine fun _ => ⟨fun _ => 0, ?_, by decide⟩
    intro i e l r hi hk
    refine absurd hk (entries (P := fun _ e => e.kind ≠ .internal l r) ?_ i e hi)
    simp [loaded, leaves, List.zipIdx]

theorem loaded_heapOrdered : HeapOrdered loaded.node loaded.heap := by
  rintro (_ | _ | _ | i) x y h hx hy <;> simp_all [loaded, leaves]
  · subst hx hy; decide
  · subst hx hy; decide

/-- A build that has not begun has an empty arena: the forest invariant at `counted`. -/
theorem counted_forest : counted.Forest where
  heap_nodup := by decide
  heap_queued := by simp [counted, State.reset]
  held_by_host := by decide
  has_parent := by simp [counted, State.reset]
  leaves_first := by decide
  symbols_rising := by decide
  not_loaded := fun _ => ⟨rfl, rfl⟩
  roots_left := by decide
  degenerate := by simp [counted, State.reset, Flags.clear]
  finished := fun _ => ⟨rfl, rfl⟩
  root_tag := by simp [counted, State.reset]
  empty_build := fun _ _ => rfl
  heights := fun _ => ⟨fun _ => 0, by simp [counted, State.reset], by decide⟩

/-- Every invariant at a state in the middle of a build, one step from its next. -/
theorem witness_invariants_kept :
    ∃ s t : State, s = State.given loaded [.command 0x21000000 0] ∧ step s = .next t ∧ s.StorageOk ∧ s.EncoderOk ∧
      s.FaultRecordOk ∧ s.PhaseOrder ∧ s.Linked ∧ s.Forest ∧ HeapOrdered s.node s.heap ∧ s.WeightsAddUp ∧
      s.LeavesAreSymbols := by
  obtain ⟨t, ht, -⟩ := after_some (o := step (State.given loaded [.command 0x21000000 0])) (f := State.heap)
    (v := [0, 3]) (by decide)
  exact ⟨_, t, rfl, ht, by decide, by decide, by decide, by decide, given_linked loaded_linked,
    given_forest loaded_forest, loaded_heapOrdered, by decide +kernel, by decide +kernel⟩

/-- The premises of the finished tree's statements, and of BLD's. -/
theorem witness_GenCodesAreTreePaths :
    built.PhaseOrder ∧ built.Linked ∧ built.Forest ∧ built.flags.er = false ∧ built.flags.tv = true ∧
    built.flags.em = false ∧ built.flags.dg = false :=
  ⟨by decide, built_linked, built_forest, rfl, rfl, rfl, rfl⟩

theorem witness_BldBuildsTheTree :
    counted.PhaseOrder ∧ counted.Forest ∧ counted.flags.er = false ∧ counted.flags.ql = false ∧
    ∀ a, (counted.freqAt a).toNat < 2 ^ counted.cfg.bits := by
  refine ⟨by decide, counted_forest, rfl, rfl, ?_⟩
  intro a
  simp only [State.freqAt, counted, Memory.read]
  split
  · decide
  split
  · decide
  split <;> decide

/-! Witnesses of the other statements, in the order of Obligations.lean, one conjunct for each clause. -/

/-- The operands at the ends of their ranges. -/
theorem witness_encoding :
    (Instr.rds 12).wellFormed = true ∧ (Instr.rdcb 0xFF 7).wellFormed = true ∧ (Instr.pqi 511).wellFormed = true ∧
    decode 0x320000FF 7 = .ok (.rdcb 0xFF 7) ∧ decode 0x020000FF 0xFFFFFFFFFFFFFFFF = .ok (.ldf 0xFF 0xFFFFFFFFFFFFFFFF) ∧
    decode 0x100001FF 5 = .ok (.pqi 511) := by decide

theorem witness_StepRunsTheDecodedCommand :
    (State.given counted [.command 0x02000061 0x100000003, .reset]).inputs = [.command 0x02000061 0x100000003, .reset] ∧
    decode 0x02000061 (narrowCount .w32 0x100000003) = .ok (.ldf 0x61 3) := by decide

theorem witness_IllegalCommand :
    IllegalCommand 0x06000000 0 ∧ IllegalCommand 0x0500000D 0 ∧ IllegalCommand 0x32000061 8 ∧
    IllegalCommand 0x32000061 0xFF ∧ (0xFF : Sideband).toNat < 2 ^ CounterWidth.w8.bits ∧
    counted.flags.er = false ∧ broken.flags.er = true := by
  unfold IllegalCommand
  decide

/-- The edge of each limit: the largest legal register and slice. -/
theorem witness_LegalAtTheEdge : ¬ IllegalCommand 0x0500000C 0 ∧ ¬ IllegalCommand 0x32000061 7 := by
  unfold IllegalCommand
  decide

theorem witness_IdleAndResetMoves : built.inputs = [] ∧ (State.given broken [.reset]).inputs = .reset :: [] := by decide

theorem witness_OneResponsePerCommand :
    (∃ t, step (State.given nearEnd [.command 0x5200001F 0]) = .next t ∧ t.sent.length = 2) ∧
    (∃ t, step (State.given broken [.command 0x03000062 0]) = .next t ∧ t.sent = [.rsp ⟨.faulted, 0⟩]) ∧
    8 ≤ Status.faulted.code.toNat ∧ 8 ≤ (Status.fault .ill).code.toNat :=
  ⟨after_some (f := fun t => t.sent.length) (by decide), after_some (f := State.sent) (by decide), by decide,
    by decide⟩

theorem witness_OnlyCodecCommandsEmitBytes :
    (∀ a, Instr.rdh 0 ≠ .enc a) ∧ Instr.rdh 0 ≠ .efl ∧ (∀ b, Instr.rdh 0 ≠ .dbt b) ∧ (∀ a, Instr.rdh 0 ≠ .dby a) ∧
    ∃ t, exec (.rdh 0) loaded = .next t ∧ t.sent = answer .ok 2 :=
  ⟨by simp, by simp, by simp, by simp, after_some (f := State.sent) (by decide)⟩

theorem witness_OnlyBuildersCanStop :
    Instr.den ≠ .mkl ∧ Instr.den ≠ .mrg ∧ Instr.den ≠ .fin ∧ Instr.den ≠ .bld ∧ Instr.den ≠ .gen := by decide

/-- The model's stop, if an outcome is one. -/
def stopOf (o : Host.Outcome State Fault Refusal) : Option Fault :=
  match o with
  | .next _ => none
  | .fault f => some f
  | .refused _ => none

/-- The stop of the model, in a state no run reaches: a full arena and two nodes in the queue. -/
theorem test_arenaFull :
    stopOf (exec .mrg { loaded with node := List.replicate 511 ⟨.leaf 0, 1, .q⟩, heap := [0, 1] }) =
      some .arenaFull := by decide +kernel

theorem witness_FaultedEngineAccepts :
    broken.flags.er = true ∧ readCommand (.rds 12) = true ∧ readCommand (.rdcb 0x61 7) = true ∧
    readCommand (.rds 13) = false ∧ readCommand (.cnt 0) = false ∧ Instr.cnt 0 ≠ .nop ∧ Instr.cnt 0 ≠ .clr := by decide

theorem witness_OutOfSequenceFaults :
    loaded.flags.er = false ∧ loaded.flags.ql = true ∧ built.flags.tv = true ∧ State.reset.flags.ql = false ∧
    1 < loaded.heap.length ∧ held.xcnt ≠ 0 ∧ loaded.flags.tv = false ∧ built.flags.cv = false ∧
    coded.flags.ds = false := by decide

theorem witness_FaultsArePrecise :
    State.reset.flags.er = false ∧
    ∃ t, exec .gen State.reset = .next t ∧ (t.flags.er, t.errinfo) = (true, 0x30000000) :=
  ⟨rfl, after_some (f := fun t => (t.flags.er, t.errinfo)) (by decide)⟩

theorem witness_FaultedStateLeftOnlyByClr :
    broken.flags.er = true ∧ Instr.bld ≠ .clr ∧ ∃ t, exec .bld broken = .next t ∧ t.flags = broken.flags :=
  ⟨rfl, by decide, after_some (f := State.flags) (by decide)⟩

theorem witness_FaultRecordKept : broken.FaultRecordOk ∧ ∃ t, step broken = .next t ∧ t = broken :=
  ⟨by decide, _, rfl, rfl⟩

theorem witness_LdfLoadsOneCounter :
    counted.flags.er = false ∧ counted.flags.ql = false ∧ counted.flags.tv = false ∧ loaded.flags.ql = true ∧
    built.flags.tv = true ∧ (0x62 : Byte) ≠ 0x61 := by decide

theorem witness_CntCountsOneByte :
    counted.flags.er = false ∧ (counted.freqAt 0x61).toNat < 2 ^ counted.cfg.bits ∧ counted.flags.ql = false ∧
    counted.flags.tv = false ∧ (counted.freqAt 0x61).toNat ≠ 2 ^ counted.cfg.bits - 1 ∧
    (full.freqAt 0x61).toNat = 2 ^ full.cfg.bits - 1 ∧ full.flags.er = false ∧ loaded.flags.ql = true := by decide

theorem witness_RdsReadsTheRegister :
    12 < (13 : Byte).toNat ∧ ¬ 12 < (12 : Byte).toNat ∧ counted.flags.er = false ∧ broken.flags.er = true := by decide

/-- Sift-up: a slot with a strictly lighter node than its parent's. Sift-down, at each side of R163's two selections:
the right child strictly lighter than the left; two equal children, of which the left is taken; a left child alone; none
strictly lighter. -/
theorem witness_SiftLoopsFollowTheRules :
    (([0, 1, 2] : List Index)[2]? = some 2 ∧ 0 < 2 ∧ 2 ≤ 2 ∧ ([0, 1, 2] : List Index)[(2 - 1) / 2]? = some 0 ∧
      lighter (leaves .q .q .q) 2 0 = true) ∧
    (([0, 1, 2] : List Index)[0]? = some 0 ∧ ([0, 1, 2] : List Index).length ≤ 3 + 0 ∧
      ([0, 1, 2] : List Index)[2 * 0 + 1]? = some 1 ∧ lighter (leaves .q .q .q) 1 0 = true ∧
      ([0, 1, 2] : List Index)[2 * 0 + 2]? = some 2 ∧ lighter (leaves .q .q .q) 2 1 = true) ∧
    (lighter (leaves .q .q .q) 2 2 = false ∧ ([0, 2, 2] : List Index)[2 * 0 + 1]? = some 2 ∧
      ([0, 2, 2] : List Index)[2 * 0 + 2]? = some 2 ∧ lighter (leaves .q .q .q) 2 0 = true) ∧
    (([0, 1] : List Index)[2 * 0 + 1]? = some 1 ∧ ([0, 1] : List Index)[2 * 0 + 2]? = none) ∧
    ([2, 1, 0] : List Index)[2 * 0 + 1]? = some 1 ∧ lighter (leaves .q .q .q) 1 2 = false ∧
      ([2, 1, 0] : List Index)[2 * 0 + 2]? = some 0 ∧ lighter (leaves .q .q .q) 0 2 = false := by decide

/-- Two equally light children: the left one rises (R163). -/
theorem test_siftDown_left_first :
    siftDown (fun x y => decide (x.toNat % 4 < y.toNat % 4)) 3 [3, 1, 5] 0 = [1, 3, 5] ∧
    siftDown (fun x y => decide (x.toNat % 4 < y.toNat % 4)) 3 [3, 2, 5] 0 = [5, 2, 3] := by decide

theorem witness_ExtractTakesTheLeast : HeapOrdered loaded.node loaded.heap ∧ loaded.heap ≠ [] :=
  ⟨loaded_heapOrdered, by decide⟩

theorem witness_PqiInsertsTheNode :
    held.flags.er = false ∧ held.flags.tv = false ∧ held.node[(2 : Index).toNat]? = some ⟨.leaf 0x63, 1, .x⟩ ∧
    held.heap.length < 256 ∧ held.node[(3 : Index).toNat]? = none ∧ built.flags.tv = true ∧
    256 ≤ (List.replicate 256 (1 : Index)).length := by decide +kernel

theorem witness_PqxExtractsTheLeast :
    loaded.flags.er = false ∧ (∀ n ∈ loaded.heap, n.toNat < loaded.node.length) ∧ loaded.flags.tv = false ∧
    loaded.heap ≠ [] ∧ State.reset.heap = [] ∧ built.flags.tv = true := by decide

theorem witness_RdhReadsTheSlot :
    loaded.heap.length ≤ (3 : Index).toNat ∧ loaded.heap[(2 : Index).toNat]? = some 1 := by decide

theorem witness_MklMakesTheLeaves :
    counted.flags.er = false ∧ counted.flags.ql = false ∧ counted.flags.tv = false ∧ counted.node = [] ∧
    counted.heap = [] ∧ (∀ a, (counted.freqAt a).toNat < 2 ^ counted.cfg.bits) ∧ loaded.flags.ql = true :=
  ⟨rfl, rfl, rfl, rfl, rfl, witness_BldBuildsTheTree.2.2.2.2, rfl⟩

theorem witness_MrgMergesTheTwoLeast :
    loaded.flags.er = false ∧ loaded.flags.ql = true ∧ loaded.flags.tv = false ∧ 2 ≤ loaded.heap.length ∧
    loaded.heap.length ≤ 256 ∧ loaded.node.length < 511 ∧ (∀ n ∈ loaded.heap, n.toNat < loaded.node.length) ∧
    merged.heap.length < 2 ∧ State.reset.flags.ql = false := by decide

theorem witness_FinNamesTheRoot :
    merged.flags.er = false ∧ merged.flags.ql = true ∧ merged.flags.tv = false ∧ merged.xcnt = 0 ∧
    merged.heap = [4] ∧ merged.node[(4 : Index).toNat]? = some ⟨.internal 0 3, 6, .q⟩ ∧ loneLeaf.xcnt = 0 ∧
    loneLeaf.heap = [0] ∧ loneLeaf.node[(0 : Index).toNat]? = some ⟨.leaf 0x62, 3, .q⟩ ∧
    loneLeaf.node.length < 511 ∧ 1 < loaded.heap.length ∧ held.xcnt ≠ 0 := by decide

/-- FIN's empty clause: "MKL at reset" leaves QL set and no node. -/
theorem witness_FinNamesNoRoot :
    ∃ s, exec .mkl State.reset = .next s ∧ (s.flags, s.heap, s.xcnt) = ({ Flags.clear with ql := true }, [], 0) :=
  after_some (f := fun s => (s.flags, s.heap, s.xcnt)) (by decide +kernel)

/-- The staged build of "aaabbc", with two merges. -/
theorem witness_BldIsTheStagedBuild :
    ∃ s1 s2 s3, exec .mkl counted = .next s1 ∧ mergeTimes 2 s1 = some s2 ∧
      exec .mrg s2 = .next (s2.answered [] .empty 0) ∧ exec .fin s2 = .next s3 ∧ s3.flags.er = false ∧
      s3.sent = s2.sent ++ [.rsp ⟨.ok, 4⟩] := by
  refine ⟨{ loaded with sent := answer .ok 3 }, { merged with sent := answer .ok 3 ++ answer .ok 3 ++ answer .ok 4 },
    { built with sent := answer .ok 3 ++ answer .ok 3 ++ answer .ok 4 ++ answer .ok 4 }, ?_, ?_, ?_, ?_, rfl, rfl⟩
  · obtain ⟨t, h, rfl⟩ := after_some (o := exec .mkl counted) (f := id) (v := { loaded with sent := answer .ok 3 })
      (by decide +kernel)
    exact h
  · decide
  · rfl
  · rfl

theorem witness_RdnwReadsTheWeight :
    built.node.length ≤ (5 : Index).toNat ∧ built.node[(4 : Index).toNat]? = some ⟨.internal 0 3, 6, .r⟩ := by decide

theorem witness_GenOfDegenerateBuilds :
    lone.flags.er = false ∧ lone.flags.tv = true ∧ lone.flags.em = false ∧ lone.flags.dg = true ∧
    emptyBuild.flags.tv = true ∧ emptyBuild.flags.em = true ∧ loaded.flags.tv = false := by decide

/-- The finished tree of "aaabbc" meets the premises, and two of its symbols have codes. -/
theorem witness_GenCodesArePrefixFree :
    (∃ t, exec .gen built = .next t ∧ (t.codeAt 0x61, t.codeAt 0x63) = (⟨1, 0⟩, ⟨2, 2⟩)) ∧ (0x61 : Byte) ≠ 0x63 ∧
    0 < (1 : BitVec 8).toNat :=
  ⟨after_some (f := fun t => (t.codeAt 0x61, t.codeAt 0x63)) (by decide), by decide, by decide⟩

theorem witness_RdcAndRdcbReadTheCode :
    (7 : Sideband).toNat ≤ 7 ∧ 7 < (8 : Sideband).toNat ∧ coded.flags.er = false ∧ broken.flags.er = true := by decide

theorem witness_EncPacksTheCode :
    coded.flags.er = false ∧ coded.flags.cv = true ∧ (coded.codeAt 0x63).len ≠ 0 ∧ (coded.codeAt 0x7A).len = 0 ∧
    built.flags.cv = false := by decide

theorem witness_EflPadsTheLastByte :
    coded.nbits = 0 ∧ { coded with acc := 3, nbits := 2 }.nbits ≠ 0 ∧ coded.flags.cv = true ∧ coded.flags.er = false ∧
    built.flags.cv = false := by decide

theorem witness_DstStartsTheDecoder :
    built.flags.er = false ∧ built.flags.tv = true ∧ loaded.flags.tv = false := by decide

theorem witness_DbtTakesOneEdge :
    decoding.flags.er = false ∧ decoding.flags.ds = true ∧ decoding.emitted.toNat ≤ decoding.total.toNat ∧
    decoding.total.toNat < 2 ^ decoding.cfg.weightBits ∧ decoding.emitted ≠ decoding.total ∧
    (decoding.nodeAt ((decoding.nodeAt decoding.cur).child false)).kind = .leaf 0x61 ∧
    (decoding.nodeAt ((decoding.nodeAt decoding.cur).child true)).isLeaf = false ∧ atEnd.emitted = atEnd.total ∧
    built.flags.ds = false := by decide

theorem witness_DbyIsEightDbt : decoding.flags.er = false ∧ decoding.flags.ds = true ∧ built.flags.ds = false := by
  decide

theorem witness_DenChecksTheCount :
    atEnd.flags.er = false ∧ atEnd.flags.ds = true ∧ atEnd.emitted = atEnd.total ∧
    nearEnd.emitted ≠ nearEnd.total ∧ nearEnd.flags.ds = true ∧ built.flags.ds = false := by decide

theorem witness_PathBitsEmitTheSymbol :
    decoding.flags.er = false ∧ decoding.flags.ds = true ∧ decoding.cur = decoding.root ∧
    decoding.emitted.toNat < decoding.total.toNat ∧ decoding.total.toNat < 2 ^ decoding.cfg.weightBits ∧
    LeadsTo decoding.node decoding.root [true, false] 0x63 :=
  ⟨rfl, rfl, rfl, by decide, by decide, 2, _, rfl, rfl, rfl⟩

theorem witness_WritersOfEachState :
    Instr.pqx ≠ .clr ∧ ∃ t, exec .pqx loaded = .next t ∧ (t.freq, t.heap) = (loaded.freq, [1, 0]) :=
  ⟨by decide, after_some (f := fun t => (t.freq, t.heap)) (by decide)⟩

theorem witness_ResetValues :
    (∃ t, step (State.given broken [.reset]) = .next t) ∧ ∃ t, exec .clr broken = .next t := ⟨⟨_, rfl⟩, _, rfl⟩

/-- 256 counters of CW = 8 at its largest value, and a sequence one byte too short. -/
theorem witness_ContainerSplitsBack :
    (List.replicate 256 (255 : Count)).length = 256 ∧
    (∀ c ∈ List.replicate 256 (255 : Count), c.toNat < 2 ^ CounterWidth.w8.bits) ∧
    (List.replicate 255 (0 : Byte)).length < 256 * CounterWidth.w8.bits / 8 := by
  refine ⟨List.length_replicate, ?_, by rw [List.length_replicate]; decide⟩
  intro c hc
  rw [List.eq_of_mem_replicate hc]
  decide

theorem witness_DecoderIgnoresPadding :
    atEnd.flags.er = false ∧ atEnd.flags.ds = true ∧ atEnd.emitted = atEnd.total := by decide

theorem witness_ReadsHaveNoSideEffect : readCommand (.rdh 511) = true ∧ readCommand (.rds 12) = true := by decide

theorem witness_FrozenTablesStay :
    built.flags.ql = true ∧ built.flags.tv = true ∧
    ∃ t, exec .gen built = .next t ∧ (t.node, t.flags.cv) = (built.node, true) :=
  ⟨rfl, rfl, after_some (f := fun t => (t.node, t.flags.cv)) (by decide)⟩

theorem witness_EncoderRegistersKept :
    { coded with acc := 3, nbits := 2 }.EncoderOk ∧
    ∃ t, step (State.given { coded with acc := 3, nbits := 2 } [.command 0x40000062 0]) = .next t ∧
      (t.acc, t.nbits) = (0b1111, 4) :=
  ⟨by decide, after_some (f := fun t => (t.acc, t.nbits)) (by decide)⟩

end Sys2Proof.Tests
end

section
/-! SUPPORT. The step. What a command's own part can write, said once, and the two shapes of an induction over the
machine: an invariant of every step, and one of every merge of BLD. -/

namespace Sys2Proof.Machine

/-- The three ways FIN names a root (R183): none, the synthetic one above a Leaf, or the one Internal node left. -/
inductive Finishes (s : State) : State → Prop
  | empty : s.heap = [] → Finishes s { s with root := 0, flags := { s.flags with em := true, tv := true } }
  | synthetic {m rest t} : heapExtract (lighter s.node) s.heap = some (m, rest) →
      syntheticRoot m { s with heap := rest } = .ok t → Finishes s t
  | root {m rest} : heapExtract (lighter s.node) s.heap = some (m, rest) →
      Finishes s { s.setOwner m .r with heap := rest, root := m, flags := { s.flags with tv := true } }

/-- What the own part of a command that responds leaves written, one constructor for each kind of write. -/
inductive Writes : Instr → State → State → Prop
  | nothing {i s} : Writes i s s
  | clear {s} : Writes .clr s s.cleared
  | counter {i s} {a : Byte} (v : Count) : (i = .cnt a ∨ ∃ w, i = .ldf a w) →
      Writes i s (s.setFreq a (narrowCount s.cfg v))
  | insert {n s t} : n.toNat < s.node.length → (s.nodeAt n).own = .x →
      pqInsert n { s.setOwner n .q with xcnt := s.xcnt - 1 } = .ok t → Writes (.pqi n) s t
  | extract {s m rest} : heapExtract (lighter s.node) s.heap = some (m, rest) →
      Writes .pqx s { s.setOwner m .x with heap := rest, xcnt := s.xcnt + 1 }
  | leaves {s t} : loadQueue s = .ok t → Writes .mkl s t
  | merge {s t} : mergeTwo s = .ok (some t) → Writes .mrg s t
  | finish {s t} : Finishes s t → Writes .fin s t
  | build {s t u v} : loadQueue s = .ok t → mergeAll t.heap.length t = .ok u → u.finishOpen = true →
      Finishes u v → Writes .bld s v
  | table {s g} : codeTable s = some g →
      Writes .gen s { s with code := g.code, flags := { s.flags with cv := true } }
  | pack {i s} (acc : Byte) (nbits : BitVec 3) : ((∃ a, i = .enc a) ∨ i = .efl) →
      Writes i s { s with acc := acc, nbits := nbits }
  | start {s} : Writes .dst s { s with cur := s.root, emitted := 0, flags := { s.flags with ds := true } }
  | decode {i s} (bits : List Bool) : ((∃ b, i = .dbt b) ∨ ∃ a, i = .dby a) → Writes i s (decodeBits bits s).1
  | stop {s} : Writes .den s { s with flags := { s.flags with ds := false } }

theorem finEffect_finishes {s : State} {d : Done} (h : finEffect s = .ok d) : Finishes s d.state := by
  simp only [finEffect] at h
  split at h
  · next he =>
    cases h
    exact .empty (pqExtract_eq_none.mp he)
  · next m t he =>
    obtain ⟨rest, hx, rfl⟩ := pqExtract_some he
    split at h
    · split at h
      · next u hu =>
        cases h
        exact .synthetic hx hu
      · cases h
    · cases h
      exact .root hx

theorem bldEffect_writes {s : State} {d : Done} (h : bldEffect s = .ok d) : Writes .bld s d.state := by
  simp only [bldEffect] at h
  split at h
  · cases h
  · next t ht =>
    split at h
    · cases h
    · next u hu =>
      split at h
      · next ho => exact .build ht hu ho (finEffect_finishes h)
      · cases h

theorem pqiEffect_writes {n : Index} {s : State} {d : Done} (h : pqiEffect n s = .ok d) :
    Writes (.pqi n) s d.state := by
  simp only [pqiEffect] at h
  split at h
  · next hn =>
    split at h
    · next t ht =>
      cases h
      exact .insert hn.1 hn.2 ht
    · cases h
  · cases h

theorem pqxEffect_writes {s : State} {d : Done} (h : pqxEffect s = .ok d) : Writes .pqx s d.state := by
  simp only [pqxEffect] at h
  split at h
  · cases h
    exact .nothing
  · next m t he =>
    obtain ⟨rest, hx, rfl⟩ := pqExtract_some he
    cases h
    exact .extract hx

theorem mklEffect_writes {s : State} {d : Done} (h : mklEffect s = .ok d) : Writes .mkl s d.state := by
  simp only [mklEffect] at h
  split at h
  · next t ht =>
    cases h
    exact .leaves ht
  · cases h

theorem mrgEffect_writes {s : State} {d : Done} (h : mrgEffect s = .ok d) : Writes .mrg s d.state := by
  simp only [mrgEffect] at h
  split at h
  · next t ht =>
    cases h
    exact .merge ht
  · cases h
    exact .nothing
  · cases h

theorem genEffect_writes {s : State} {d : Done} (h : genEffect s = .ok d) : Writes .gen s d.state := by
  simp only [genEffect] at h
  split at h
  · next g hg =>
    cases h
    exact .table hg
  · cases h

theorem cntEffect_writes {a : Byte} {s : State} {d : Done} (h : cntEffect a s = .ok d) :
    Writes (.cnt a) s d.state := by
  simp only [cntEffect] at h
  split at h
  · cases h
  · cases h
    exact .counter _ (.inl rfl)

theorem encEffect_writes {a : Byte} {s : State} {d : Done} (h : encEffect a s = .ok d) :
    Writes (.enc a) s d.state := by
  simp only [encEffect] at h
  split at h
  · cases h
  · cases h
    exact .pack _ _ (.inl ⟨a, rfl⟩)

theorem eflEffect_writes {s : State} {d : Done} (h : eflEffect s = .ok d) : Writes .efl s d.state := by
  simp only [eflEffect] at h
  split at h
  · cases h
    exact .nothing
  · cases h
    exact .pack _ _ (.inr rfl)

theorem denEffect_writes {s : State} {d : Done} (h : denEffect s = .ok d) : Writes .den s d.state := by
  simp only [denEffect] at h
  split at h
  · cases h
    exact .stop
  · cases h

/-- A read of a register or of an entry that may not exist writes nothing (R88). -/
theorem rdsEffect_state {r : Byte} {s : State} {d : Done} (h : rdsEffect r s = .ok d) : d.state = s := by
  simp only [rdsEffect] at h
  split at h <;> cases h
  rfl

theorem rdhEffect_state {n : Index} {s : State} {d : Done} (h : rdhEffect n s = .ok d) : d.state = s := by
  simp only [rdhEffect] at h
  split at h <;> cases h <;> rfl

theorem rdnwEffect_state {n : Index} {s : State} {d : Done} (h : rdnwEffect n s = .ok d) : d.state = s := by
  simp only [rdnwEffect] at h
  split at h <;> cases h <;> rfl

theorem rdnlEffect_state {n : Index} {s : State} {d : Done} (h : rdnlEffect n s = .ok d) : d.state = s := by
  simp only [rdnlEffect] at h
  split at h <;> cases h <;> rfl

theorem decodeEffect_eq (bits : List Bool) (s : State) :
    decodeEffect bits s =
      .ok ⟨(decodeBits bits s).1, (decodeBits bits s).2, .ok, BitVec.ofNat 72 (decodeBits bits s).2.length⟩ := rfl

theorem decodeEffect_state {bits : List Bool} {s : State} {d : Done} (h : decodeEffect bits s = .ok d) :
    d.state = (decodeBits bits s).1 := by
  rw [decodeEffect_eq] at h
  cases h
  rfl

/-- A command whose own part responds has written what `Writes` says and nothing else. -/
theorem effectOf_writes {i : Instr} {s : State} {d : Done} (h : effectOf i s = .ok d) : Writes i s d.state := by
  cases i with
  | nop => cases h; exact .nothing
  | clr => cases h; exact .clear
  | ldf a w => cases h; exact .counter w (.inr ⟨w, rfl⟩)
  | cnt a => exact cntEffect_writes h
  | rdf a => cases h; exact .nothing
  | rds r => rw [rdsEffect_state h]; exact .nothing
  | pqi n => exact pqiEffect_writes h
  | pqx => exact pqxEffect_writes h
  | rdh n => rw [rdhEffect_state h]; exact .nothing
  | mkl => exact mklEffect_writes h
  | mrg => exact mrgEffect_writes h
  | fin => exact .finish (finEffect_finishes h)
  | bld => exact bldEffect_writes h
  | rdnw n => rw [rdnwEffect_state h]; exact .nothing
  | rdnl n => rw [rdnlEffect_state h]; exact .nothing
  | gen => exact genEffect_writes h
  | rdc a => cases h; exact .nothing
  | rdcb a k => cases h; exact .nothing
  | enc a => exact encEffect_writes h
  | efl => exact eflEffect_writes h
  | dst => cases h; exact .start
  | dbt b => rw [effectOf] at h; rw [decodeEffect_state h]; exact .decode [b] (.inl ⟨b, rfl⟩)
  | dby a => rw [effectOf] at h; rw [decodeEffect_state h]; exact .decode (byteBits a) (.inr ⟨a, rfl⟩)
  | den => exact denEffect_writes h

/-- What a command can answer: a refusal or a fault, which leave all but the record of it as it was, or its own part's
response. -/
theorem exec_next {i : Instr} {s t : State} (h : exec i s = .next t) :
    (∃ st, t = s.answered [] st 0) ∨ (∃ c word, t = s.faulted c word) ∨
    (∃ u bytes st data, passes i s ∧ Writes i s u ∧ t = u.answered bytes st data) := by
  rw [exec_eq_command] at h
  rcases command_cases i (effectOf i) s with ⟨-, -, hc⟩ | ⟨-, -, hc⟩ | ⟨-, -, -, hc⟩ | ⟨hp, hc⟩
  · cases hc.symm.trans h
    exact .inl ⟨_, rfl⟩
  · cases hc.symm.trans h
    exact .inr (.inl ⟨_, _, rfl⟩)
  · cases hc.symm.trans h
    exact .inr (.inl ⟨_, _, rfl⟩)
  · rcases conclude_next (hc.symm.trans h) with ⟨d, hd, rfl⟩ | ⟨c, -, rfl⟩
    · exact .inr (.inr ⟨d.state, d.bytes, d.st, d.data, hp, effectOf_writes hd, rfl⟩)
    · exact .inr (.inl ⟨c, _, rfl⟩)

/-- An illegal command is refused or faults. -/
theorem illegalCommand_next {word : CommandWord} {s t : State} (h : illegalCommand word s = .next t) :
    (∃ st, t = s.answered [] st 0) ∨ (∃ c word', t = s.faulted c word') := by
  simp only [illegalCommand, State.refuseFaulted_eq_answered, State.raiseFault_eq_faulted] at h
  split at h
  · cases h
    exact .inl ⟨_, rfl⟩
  · cases h
    exact .inr ⟨_, _, rfl⟩

/-- The induction over a step, packaged once: `Q` holds after every step from a `P` state when `P` gives `Q` and does not
speak of the host's moves, `Q` does not speak of responses and faults, and `Q` holds after a reset and after what every
command that passes its frame writes. -/
theorem step_establishes {P Q : State → Prop} (weaken : ∀ s, P s → Q s)
    (taken : ∀ s rest, P s → P { s with inputs := rest })
    (answered : ∀ s bytes st data, Q s → Q (s.answered bytes st data))
    (faulted : ∀ s c word, Q s → Q (s.faulted c word))
    (reset : ∀ s rest, P s → Q { s.cleared with inputs := rest })
    (written : ∀ i s u, P s → passes i s → Writes i s u → Q u)
    {s t : State} (hs : P s) (h : step s = .next t) : Q t := by
  match hin : s.inputs with
  | [] =>
    cases (step_idle hin).symm.trans h
    exact weaken s hs
  | .reset :: rest =>
    cases (step_reset hin).symm.trans h
    exact reset s rest hs
  | .command word w :: rest =>
    have hrun := (step_command hin).symm.trans h
    have hs' := taken s rest hs
    cases hd : decode word (narrowCount s.cfg w) with
    | ok i =>
      rcases exec_next ((runCommand_of_ok _ hd).symm.trans hrun) with
        ⟨st, rfl⟩ | ⟨c, word', rfl⟩ | ⟨u, bytes, st, data, hp, hw, rfl⟩
      · exact answered _ _ _ _ (weaken _ hs')
      · exact faulted _ _ _ (weaken _ hs')
      · exact answered _ _ _ _ (written i _ u hs' hp hw)
    | error e =>
      rcases illegalCommand_next ((runCommand_of_error _ hd).symm.trans hrun) with ⟨st, rfl⟩ | ⟨c, word', rfl⟩
      · exact answered _ _ _ _ (weaken _ hs')
      · exact faulted _ _ _ (weaken _ hs')

/-- What every merge keeps, the merges of BLD keep (R184). -/
theorem mergeAll_keeps {P : State → Prop} (merge : ∀ s t, P s → mergeTwo s = .ok (some t) → P t) {fuel : Nat}
    {s t : State} (hs : P s) (h : mergeAll fuel s = .ok t) : P t := by
  induction fuel generalizing s with
  | zero =>
    cases h
    exact hs
  | succ fuel ih =>
    simp only [mergeAll] at h
    split at h
    · next u hu => exact ih (merge s u hs hu) h
    · cases h
      exact hs
    · cases h

/-- Settles O5, by the two lemmas about a step that takes a command word. -/
theorem stepRunsTheDecodedCommand : Obligations.StepRunsTheDecodedCommand := by
  intro s word w rest i hin hd
  rw [step_command hin, runCommand_of_ok _ hd]

/-! The stops of the model. -/

theorem conclude_ne_refused (word : CommandWord) (s : State) (e : Effect) (r : Refusal) :
    conclude word s e ≠ .refused r := by
  match e with
  | .ok d => simp
  | .error (.engine c) => simp
  | .error (.model f) => simp

theorem command_ne_refused (i : Instr) (body : State → Effect) (s : State) (r : Refusal) :
    command i body s ≠ .refused r := by
  rcases command_cases i body s with ⟨-, -, h⟩ | ⟨-, -, h⟩ | ⟨-, -, -, h⟩ | ⟨-, h⟩
  · simp [h]
  · simp [h]
  · simp [h]
  · rw [h]
    exact conclude_ne_refused _ _ _ _

/-- A command whose own part does not stop the model answers a next state. -/
theorem command_answers {i : Instr} {body : State → Effect} {s : State} (hb : ∀ f, body s ≠ .error (.model f)) :
    ∃ t, command i body s = .next t := by
  rcases command_cases i body s with ⟨-, -, h⟩ | ⟨-, -, h⟩ | ⟨-, -, -, h⟩ | ⟨-, h⟩
  · exact ⟨_, h⟩
  · exact ⟨_, h⟩
  · exact ⟨_, h⟩
  · match he : body s with
    | .ok d => exact ⟨_, by rw [h, he, conclude_ok]⟩
    | .error (.engine c) => exact ⟨_, by rw [h, he, conclude_engine]⟩
    | .error (.model f) => exact (hb f he).elim

theorem pqInsert_ne_model (n : Index) (s : State) (f : Fault) : pqInsert n s ≠ .error (.model f) := by
  simp only [pqInsert]
  split <;> simp

theorem pqiEffect_ne_model (n : Index) (s : State) (f : Fault) : pqiEffect n s ≠ .error (.model f) := by
  simp only [pqiEffect]
  split
  · split
    · simp
    · next e he =>
      intro hf
      cases hf
      exact pqInsert_ne_model _ _ f he
  · simp

/-- Only MKL, MRG, FIN and BLD allocate and only GEN walks: no other command's own part stops the model. -/
theorem effectOf_ne_model {i : Instr} (s : State) (f : Fault) (hmkl : i ≠ .mkl) (hmrg : i ≠ .mrg) (hfin : i ≠ .fin)
    (hbld : i ≠ .bld) (hgen : i ≠ .gen) : effectOf i s ≠ .error (.model f) := by
  cases i with
  | mkl => exact absurd rfl hmkl
  | mrg => exact absurd rfl hmrg
  | fin => exact absurd rfl hfin
  | bld => exact absurd rfl hbld
  | gen => exact absurd rfl hgen
  | pqi n => exact pqiEffect_ne_model n s f
  | cnt a => simp only [effectOf, cntEffect]; split <;> simp
  | rds r => simp only [effectOf, rdsEffect]; split <;> simp
  | pqx => simp only [effectOf, pqxEffect]; split <;> simp
  | rdh n => simp only [effectOf, rdhEffect]; split <;> simp
  | rdnw n => simp only [effectOf, rdnwEffect]; split <;> simp
  | rdnl n => simp only [effectOf, rdnlEffect]; split <;> simp
  | enc a => simp only [effectOf, encEffect]; split <;> simp
  | efl => simp only [effectOf, eflEffect]; split <;> simp
  | den => simp only [effectOf, denEffect]; split <;> simp
  | dbt b => rw [effectOf, decodeEffect_eq]; simp
  | dby a => rw [effectOf, decodeEffect_eq]; simp
  | nop | clr | ldf | rdf | rdc | rdcb | dst => exact fun h => nomatch h

/-- Settles O10: the frame refuses nothing and stops only where the command's own part does, and that of the other 19
commands never does. -/
theorem onlyBuildersCanStop : Obligations.OnlyBuildersCanStop := by
  intro i s
  rw [exec_eq_command]
  exact ⟨command_ne_refused i _ s, fun hmkl hmrg hfin hbld hgen =>
    command_answers fun f => effectOf_ne_model s f hmkl hmrg hfin hbld hgen⟩

end Sys2Proof.Machine
end

section
/-! SUPPORT. The storage. Every write of a command stays within its width and capacity. -/

namespace Sys2Proof.Machine

/-- Every weight of the arena is one of WW bits (R6). -/
def WeightsFit (cw : CounterWidth) (arena : List Node) : Prop := ∀ e ∈ arena, e.w.toNat < 2 ^ cw.weightBits

theorem WeightsFit.append {cw : CounterWidth} {arena : List Node} (h : WeightsFit cw arena) (k : Kind) (w : Weight)
    (o : Owner) : WeightsFit cw (arena ++ [⟨k, narrowWeight cw w, o⟩]) := by
  intro e he
  rcases List.mem_append.mp he with he | he
  · exact h e he
  · rw [List.mem_singleton.mp he]
    exact narrowWeight_lt cw w

/-- A write of an owner tag changes no weight. -/
theorem WeightsFit.setOwner {cw : CounterWidth} {s : State} (h : WeightsFit cw s.node) (n : Index) (o : Owner) :
    WeightsFit cw (s.setOwner n o).node := by
  intro e he
  obtain ⟨j, hj⟩ := List.mem_iff_getElem?.mp he
  rw [State.setOwner_node, List.getElem?_modify] at hj
  obtain ⟨e', he', rfl⟩ := Option.map_eq_some_iff.mp hj
  have := h e' (List.mem_of_getElem? he')
  split <;> exact this

/-- The tree builder writes NODE and HEAP only: what is left to show of the storage is about these two. -/
theorem State.StorageOk.withArena {s : State} {arena : List Node} {heap : List Index} (h : s.StorageOk)
    (hw : WeightsFit s.cfg arena) (hn : arena.length ≤ Config.ncap) (hh : heap.length ≤ Config.qcap) :
    State.StorageOk { s with node := arena, heap := heap } := by
  obtain ⟨hfreq, hcode, hcount, -, htotal, hemitted, -, -⟩ := h
  exact ⟨hfreq, hcode, hcount, hw, htotal, hemitted, hn, hh⟩

theorem State.StorageOk.weightsFit {s : State} (h : s.StorageOk) : WeightsFit s.cfg s.node := by
  obtain ⟨-, -, -, hw, -⟩ := h
  exact hw

theorem State.StorageOk.arena_le {s : State} (h : s.StorageOk) : s.node.length ≤ Config.ncap := by
  obtain ⟨-, -, -, -, -, -, hn, -⟩ := h
  exact hn

theorem State.StorageOk.heap_le {s : State} (h : s.StorageOk) : s.heap.length ≤ Config.qcap := by
  obtain ⟨-, -, -, -, -, -, -, hh⟩ := h
  exact hh

/-- An extraction leaves one slot fewer. -/
theorem heapExtract_length {lt : Index → Index → Bool} {heap rest : List Index} {m : Index}
    (h : heapExtract lt heap = some (m, rest)) : heap.length = rest.length + 1 :=
  (heapExtract_perm h).length_eq

theorem allocateQueued_storageOk {k : Kind} {w : Weight} {s t : State} (hs : s.StorageOk)
    (h : allocateQueued k w s = .ok t) : t.StorageOk := by
  obtain ⟨hn, hq, rfl⟩ := allocateQueued_ok h
  refine hs.withArena (hs.weightsFit.append k w .q) ?_ ?_
  · simpa using hn
  · simpa using hq

theorem makeLeaves_storageOk {left : List Byte} {total w : Weight} {s t : State} (hs : s.StorageOk)
    (ht : total.toNat < 2 ^ s.cfg.weightBits) (h : makeLeaves left total s = .ok (w, t)) :
    t.StorageOk ∧ w.toNat < 2 ^ t.cfg.weightBits := by
  induction left generalizing total s with
  | nil =>
    cases h
    exact ⟨hs, ht⟩
  | cons a rest ih =>
    simp only [makeLeaves] at h
    split at h
    · exact ih hs ht h
    · split at h
      · next u hu =>
        have hcfg : u.cfg = s.cfg := by
          obtain ⟨-, -, rfl⟩ := allocateQueued_ok hu
          rfl
        exact ih (allocateQueued_storageOk hs hu) (by rw [hcfg]; exact narrowWeight_lt _ _) h
      · cases h

theorem loadQueue_storageOk {s t : State} (hs : s.StorageOk) (h : loadQueue s = .ok t) : t.StorageOk := by
  simp only [loadQueue] at h
  split at h
  · next total u hu =>
    cases h
    obtain ⟨⟨hfreq, hcode, hcount, hw, -, hemitted, hn, hh⟩, htotal⟩ :=
      makeLeaves_storageOk hs (Nat.two_pow_pos _) hu
    exact ⟨hfreq, hcode, hcount, hw, htotal, hemitted, hn, hh⟩
  · cases h

theorem mergeTwo_storageOk (s t : State) (hs : s.StorageOk) (h : mergeTwo s = .ok (some t)) : t.StorageOk := by
  obtain ⟨a, b, h1, h2, -, -, hn, hq, rfl⟩ := mergeTwo_some h
  refine hs.withArena (((hs.weightsFit.setOwner a .p).setOwner b .p).append _ _ _) ?_ ?_
  · simpa using hn
  · simpa using hq

theorem finishes_storageOk {s t : State} (hs : s.StorageOk) (h : Finishes s t) : t.StorageOk := by
  have hheap := hs.heap_le
  cases h with
  | empty _ => exact hs
  | @synthetic m rest _ hx ht =>
    obtain ⟨hn, rfl⟩ := syntheticRoot_ok ht
    have := heapExtract_length hx
    exact hs.withArena (heap := rest) ((hs.weightsFit.setOwner m .p).append _ _ _) (by simpa using hn) (by omega)
  | @root m rest hx =>
    have := heapExtract_length hx
    exact hs.withArena (heap := rest) (hs.weightsFit.setOwner m .r) (by simpa using hs.arena_le) (by omega)

theorem Walked.record_wf {g : Walked} (hg : Memory.wf Code.none 256 g.code = true) (a : Byte) (c : Code) :
    Memory.wf Code.none 256 (g.record a c).code = true :=
  Memory.wf_write _ _ _ _ _ a.isLt hg

/-- GEN's table has the canonical form: it is made of writes into an empty one (R201). -/
theorem codeTable_wf {s : State} {g : Walked} (h : codeTable s = some g) :
    Memory.wf Code.none 256 g.code = true := by
  simp only [codeTable] at h
  split at h
  · cases h
    rfl
  · split at h
    · cases h
      exact Walked.record_wf rfl _ _
    · exact walk_wf h rfl

theorem decodeBit_storageOk (b : Bool) {s : State} (hs : s.StorageOk) : (decodeBit b s).1.StorageOk := by
  simp only [decodeBit]
  split
  · exact hs
  · split
    · obtain ⟨hfreq, hcode, hcount, hw, htotal, -, hn, hh⟩ := hs
      exact ⟨hfreq, hcode, hcount, hw, htotal, narrowWeight_lt _ _, hn, hh⟩
    · exact hs

theorem decodeBits_storageOk (bits : List Bool) {s : State} (hs : s.StorageOk) : (decodeBits bits s).1.StorageOk := by
  induction bits generalizing s with
  | nil => exact hs
  | cons b rest ih => exact ih (decodeBit_storageOk b hs)

theorem setFreq_storageOk {s : State} (hs : s.StorageOk) (a : Byte) (v : Count) :
    (s.setFreq a (narrowCount s.cfg v)).StorageOk := by
  obtain ⟨hfreq, hcode, hcount, hw, htotal, hemitted, hn, hh⟩ := hs
  refine ⟨Memory.wf_write _ _ _ _ _ (BitVec.isLt a) hfreq, hcode, fun p hp => ?_, hw, htotal, hemitted, hn, hh⟩
  rcases Memory.mem_write _ _ _ _ _ hp with rfl | hp
  · exact narrowCount_lt _ _
  · exact hcount p hp

/-- The state after CLR or a reset is within every width and capacity (R67). -/
theorem cleared_storageOk (s : State) : s.cleared.StorageOk :=
  ⟨rfl, rfl, by simp, by simp, Nat.two_pow_pos _, Nat.two_pow_pos _, Nat.zero_le _, Nat.zero_le _⟩

/-- The own part of every command keeps the storage. -/
theorem writes_storageOk {i : Instr} {s t : State} (hs : s.StorageOk) (h : Writes i s t) : t.StorageOk := by
  have hnode := hs.arena_le
  have hheap := hs.heap_le
  cases h with
  | nothing | pack _ _ _ | stop => exact hs
  | clear => exact cleared_storageOk s
  | @counter _ _ a v _ => exact setFreq_storageOk hs a v
  | @insert n _ _ _ _ ht =>
    obtain ⟨hq, rfl⟩ := pqInsert_ok ht
    exact hs.withArena (heap := heapInsert _ s.heap n) (hs.weightsFit.setOwner n .q) (by simpa using hnode)
      (by simpa using hq)
  | @extract _ m rest hx =>
    have := heapExtract_length hx
    exact hs.withArena (heap := rest) (hs.weightsFit.setOwner m .x) (by simpa using hnode) (by omega)
  | leaves ht => exact loadQueue_storageOk hs ht
  | merge ht => exact mergeTwo_storageOk s t hs ht
  | finish hf => exact finishes_storageOk hs hf
  | build ht hu _ hf =>
    exact finishes_storageOk (mergeAll_keeps mergeTwo_storageOk (loadQueue_storageOk hs ht) hu) hf
  | table hg =>
    obtain ⟨hfreq, -, hrest⟩ := hs
    exact ⟨hfreq, codeTable_wf hg, hrest⟩
  | start =>
    obtain ⟨hfreq, hcode, hcount, hw, htotal, -, hn, hh⟩ := hs
    exact ⟨hfreq, hcode, hcount, hw, htotal, Nat.two_pow_pos _, hn, hh⟩
  | decode bits _ => exact decodeBits_storageOk bits hs

/-- Settles O53, by what each command can write. -/
theorem storageKept : Obligations.StorageKept := fun _ _ hs h =>
  step_establishes (P := State.StorageOk) (Q := State.StorageOk) (fun _ h => h) (fun _ _ h => h)
    (fun _ _ _ _ h => h) (fun _ _ _ h => h) (fun s _ _ => cleared_storageOk s)
    (fun _ _ _ h _ hw => writes_storageOk h hw) hs h

end Sys2Proof.Machine
end

section
/-! SUPPORT. The weights. What the tree builder does to the weights of the forest roots: a new Leaf adds its count, a
merge and the synthetic root give a parent what they take from its children, a change of owner among Q, X and R takes
nothing. No sum wraps, since none exceeds TOTAL. -/

namespace Sys2Proof.Machine

/-! The weight of the forest. -/

/-- What an entry adds to the weight of the forest: its weight while it is a forest root (R60). -/
def rootShare (e : Node) : Nat := if e.isRoot then e.w.toNat else 0

/-- The weights of the forest roots, added up. -/
def forestWeight (arena : List Node) : Nat := (arena.map rootShare).sum

theorem rootSum_weights (arena : List Node) : rootSum (fun _ e => e.w.toNat) arena = forestWeight arena := by
  have h : arena.map rootShare = arena.zipIdx.map (fun p => rootShare p.1) := by
    conv_lhs => rw [← List.zipIdx_map_fst 0 arena, List.map_map]
    rfl
  rw [forestWeight, h]
  rfl

theorem rootShare_of_root {e : Node} (h : e.own ≠ .p) : rootShare e = e.w.toNat := by
  simp [rootShare, Node.isRoot, h]

theorem rootShare_of_child {e : Node} (h : e.own = .p) : rootShare e = 0 := by
  simp [rootShare, Node.isRoot, h]

@[simp] theorem forestWeight_nil : forestWeight [] = 0 := rfl

theorem forestWeight_append_root {arena : List Node} {e : Node} (h : e.own ≠ .p) :
    forestWeight (arena ++ [e]) = forestWeight arena + e.w.toNat := by
  simp [forestWeight, rootShare_of_root h]

/-- The weight of the forest after one entry changes. -/
theorem forestWeight_modify {arena : List Node} {n : Nat} {e : Node} (f : Node → Node) (h : arena[n]? = some e) :
    forestWeight (arena.modify n f) + rootShare e = forestWeight arena + rootShare (f e) := by
  induction arena generalizing n with
  | nil => simp at h
  | cons x rest ih =>
    cases n with
    | zero =>
      obtain rfl : x = e := by simpa using h
      simp only [List.modify_zero_cons, forestWeight, List.map_cons, List.sum_cons]
      omega
    | succ n =>
      have := ih (n := n) (by simpa using h)
      simp only [List.modify_succ_cons, forestWeight, List.map_cons, List.sum_cons] at this ⊢
      omega

/-- A forest root that stays one under another owner keeps its share. -/
theorem forestWeight_setOwner_root {s : State} {n : Index} {e : Node} {o : Owner} (h : s.node[n.toNat]? = some e)
    (he : e.own ≠ .p) (ho : o ≠ .p) : forestWeight (s.setOwner n o).node = forestWeight s.node := by
  have := forestWeight_modify (fun e => { e with own := o }) h
  rw [rootShare_of_root he, rootShare_of_root (by exact ho)] at this
  exact Nat.add_right_cancel this

/-- A forest root that gets a parent takes its weight out of the forest's. -/
theorem forestWeight_setOwner_child {s : State} {n : Index} {e : Node} (h : s.node[n.toNat]? = some e)
    (he : e.own ≠ .p) : forestWeight (s.setOwner n .p).node + (s.nodeAt n).w.toNat = forestWeight s.node := by
  have := forestWeight_modify (fun e => { e with own := .p }) h
  rw [rootShare_of_root he, rootShare_of_child rfl] at this
  rw [State.nodeAt, nodeIn_of_getElem h]
  exact this

/-- An owner tag is no weight. -/
theorem nodeAt_setOwner_w (s : State) (m n : Index) (o : Owner) :
    ((s.setOwner n o).nodeAt m).w = (s.nodeAt m).w := by
  by_cases h : m.toNat < s.node.length
  · rw [State.nodeAt, nodeIn_setOwner s m n o h]
    split <;> rfl
  · have hm : s.node.length ≤ m.toNat := Nat.not_lt.mp h
    have hm' : (s.setOwner n o).node.length ≤ m.toNat := by rwa [State.setOwner_length]
    rw [State.nodeAt, State.nodeAt, nodeIn, nodeIn, List.getElem?_eq_none hm, List.getElem?_eq_none hm']

/-! The queue. -/

/-- The queue holds no node twice, and what it holds exists and has the tag Q (R60). -/
def QueueOwned (arena : List Node) (heap : List Index) : Prop :=
  heap.Nodup ∧ ∀ n ∈ heap, ∃ e, arena[n.toNat]? = some e ∧ e.own = .q

theorem QueueOwned.perm {arena : List Node} {heap heap' : List Index} (h : QueueOwned arena heap)
    (hp : heap.Perm heap') : QueueOwned arena heap' := by
  obtain ⟨hnodup, hown⟩ := h
  exact ⟨hp.nodup_iff.mp hnodup, fun n hn => hown n (hp.mem_iff.mpr hn)⟩

/-- The node in the first slot exists and is a forest root. -/
theorem QueueOwned.head {arena : List Node} {rest : List Index} {m : Index} (h : QueueOwned arena (m :: rest)) :
    ∃ e, arena[m.toNat]? = some e ∧ e.own ≠ .p := by
  obtain ⟨e, he, ho⟩ := h.2 m (by simp)
  exact ⟨e, he, by simp [ho]⟩

/-- A node that leaves the queue may change its owner. -/
theorem QueueOwned.setOwner {s : State} {rest : List Index} {m : Index} (h : QueueOwned s.node (m :: rest))
    (o : Owner) : QueueOwned (s.setOwner m o).node rest := by
  obtain ⟨hnodup, hown⟩ := h
  obtain ⟨hm, hrest⟩ := List.nodup_cons.mp hnodup
  refine ⟨hrest, fun n hn => ?_⟩
  obtain ⟨e, he, ho⟩ := hown n (List.mem_cons_of_mem m hn)
  have hne : m.toNat ≠ n.toNat := fun heq => hm (BitVec.eq_of_toNat_eq heq ▸ hn)
  exact ⟨e, by rw [State.setOwner_node, List.getElem?_modify]; simp [hne, he], ho⟩

/-- A new entry with tag Q is put in the queue. -/
theorem QueueOwned.insert {arena : List Node} {heap : List Index} {n : Index} {e : Node} (h : QueueOwned arena heap)
    (lt : Index → Index → Bool) (hn : n.toNat = arena.length) (he : e.own = .q) :
    QueueOwned (arena ++ [e]) (heapInsert lt heap n) := by
  obtain ⟨hnodup, hown⟩ := h
  have hnew : n ∉ heap := fun hmem => by
    obtain ⟨e', he', -⟩ := hown n hmem
    rw [hn] at he'
    simp at he'
  refine QueueOwned.perm ⟨List.nodup_cons.mpr ⟨hnew, hnodup⟩, fun m hm => ?_⟩ (heapInsert_perm lt heap n).symm
  rcases List.mem_cons.mp hm with rfl | hm
  · exact ⟨e, by rw [hn]; simp, he⟩
  · obtain ⟨e', he', ho⟩ := hown m hm
    exact ⟨e', by rw [List.getElem?_append_left (List.getElem?_eq_some_iff.mp he').1]; exact he', ho⟩

/-- NCNT numbers the entries as long as there is room for one more (R37). -/
theorem State.ncnt_toNat {s : State} (h : s.node.length < Config.ncap) : s.ncnt.toNat = s.node.length := by
  have : Config.ncap = 511 := rfl
  rw [State.ncnt, BitVec.toNat_ofNat]
  omega

/-! The sum of the counters. -/

/-- The counters of some symbols, added up. -/
def countSum (s : State) (left : List Byte) : Nat := (left.map (fun a => (s.freqAt a).toNat)).sum

theorem symbols_length : symbols.length = 256 := by simp [symbols]

/-- What a memory holds at an index is listed, or is the blank entry. -/
theorem Memory.read_mem {α : Type} (blank : α) (m : Memory α) (i : Nat) :
    Memory.read blank m i = blank ∨ (i, Memory.read blank m i) ∈ m := by
  induction m with
  | nil => exact .inl rfl
  | cons p m ih =>
    by_cases h : p.1 = i
    · right
      simp [Memory.read, ← h]
    · simpa [Memory.read, h] using ih.imp_right .inr

theorem freqAt_lt {s : State} (hs : s.StorageOk) (a : Byte) : (s.freqAt a).toNat < 2 ^ s.cfg.bits := by
  obtain ⟨-, -, hcount, -⟩ := hs
  rcases Memory.read_mem 0 s.freq a.toNat with h | h
  · rw [State.freqAt, h]
    exact Nat.two_pow_pos _
  · exact hcount _ h

/-- 256 counters of CW bits add up to a value of WW = CW + 8 bits (R6, decision D5). -/
theorem freqSum_lt {s : State} (hs : s.StorageOk) : s.freqSum < 2 ^ s.cfg.weightBits := by
  have hle : s.freqSum ≤ 256 * (2 ^ s.cfg.bits - 1) := by
    have := List.sum_le_card_nsmul (symbols.map (fun a => (s.freqAt a).toNat)) (2 ^ s.cfg.bits - 1) (by
      intro c hc
      obtain ⟨a, -, rfl⟩ := List.mem_map.mp hc
      exact Nat.le_pred_of_lt (freqAt_lt hs a))
    rwa [List.length_map, symbols_length, smul_eq_mul] at this
  have hpow : 2 ^ s.cfg.weightBits = 2 ^ s.cfg.bits * 256 := pow_add 2 s.cfg.bits 8
  have hpos : 0 < 2 ^ s.cfg.bits := Nat.two_pow_pos _
  omega

/-- A sum of WW bits does not wrap, neither in the 72 bits it stands in nor when narrowed. -/
theorem narrowWeight_add {cw : CounterWidth} {x y : Weight} (h : x.toNat + y.toNat < 2 ^ cw.weightBits) :
    (narrowWeight cw (x + y)).toNat = x.toNat + y.toNat := by
  have : 2 ^ cw.weightBits ≤ 2 ^ 72 := Nat.pow_le_pow_right (by decide) (by cases cw <;> decide)
  rw [narrowWeight_toNat, BitVec.toNat_add, Nat.mod_eq_of_lt (lt_of_lt_of_le h this), Nat.mod_eq_of_lt h]

/-! The stages of the tree builder. -/

/-- What a merge and FIN rest on: the queue is in order, and its roots weigh TOTAL, which is the counters' sum. -/
structure State.Weighed (s : State) : Prop where
  storage : s.StorageOk
  queue : QueueOwned s.node s.heap
  roots : forestWeight s.node = s.total.toNat
  counted : s.total.toNat = s.freqSum

theorem State.Weighed.weightsAddUp {s : State} (h : s.Weighed) : s.WeightsAddUp :=
  fun _ => ⟨(rootSum_weights s.node).trans h.roots, h.counted⟩

/-- No forest root is heavier than TOTAL, which fits. -/
theorem State.Weighed.forestWeight_lt {s : State} (h : s.Weighed) :
    forestWeight s.node < 2 ^ s.cfg.weightBits := by
  rw [h.roots, h.counted]
  exact freqSum_lt h.storage

/-- The weights still add up after a change of the arena that keeps the weight of the forest. -/
theorem weightsAddUp_withArena {s : State} {arena : List Node} (h : s.WeightsAddUp)
    (hw : forestWeight arena = forestWeight s.node) : State.WeightsAddUp { s with node := arena } := by
  intro hql
  obtain ⟨hroots, hcounted⟩ := h hql
  rw [rootSum_weights] at hroots ⊢
  exact ⟨hw.trans hroots, hcounted⟩

theorem weightsAddUp_setOwner {s : State} {n : Index} {e : Node} {o : Owner} (h : s.WeightsAddUp)
    (hn : s.node[n.toNat]? = some e) (he : e.own ≠ .p) (ho : o ≠ .p) : (s.setOwner n o).WeightsAddUp :=
  weightsAddUp_withArena h (forestWeight_setOwner_root hn he ho)

theorem allocateQueued_queueOwned {k : Kind} {w : Weight} {s t : State} (hs : QueueOwned s.node s.heap)
    (h : allocateQueued k w s = .ok t) : QueueOwned t.node t.heap := by
  obtain ⟨hn, -, rfl⟩ := allocateQueued_ok h
  exact hs.insert _ (State.ncnt_toNat hn) rfl

theorem allocateQueued_forestWeight {k : Kind} {w : Weight} {s t : State} (hw : w.toNat < 2 ^ s.cfg.weightBits)
    (h : allocateQueued k w s = .ok t) : forestWeight t.node = forestWeight s.node + w.toNat := by
  obtain ⟨-, -, rfl⟩ := allocateQueued_ok h
  rw [narrowWeight_of_lt hw]
  exact forestWeight_append_root (by simp)

/-- The loop of MKL: the roots weigh t at every round, and t adds up the counters (R181). -/
theorem makeLeaves_weighs {left : List Byte} {total w : Weight} {s t : State} (hq : QueueOwned s.node s.heap)
    (hroots : forestWeight s.node = total.toNat) (hlt : total.toNat + countSum s left < 2 ^ s.cfg.weightBits)
    (h : makeLeaves left total s = .ok (w, t)) :
    QueueOwned t.node t.heap ∧ forestWeight t.node = w.toNat ∧ w.toNat = total.toNat + countSum s left := by
  induction left generalizing total s with
  | nil =>
    cases h
    exact ⟨hq, hroots, rfl⟩
  | cons a rest ih =>
    have hsum : countSum s (a :: rest) = (s.freqAt a).toNat + countSum s rest := by simp [countSum]
    rw [hsum] at hlt ⊢
    simp only [makeLeaves] at h
    split at h
    · next h0 =>
      have hzero : (s.freqAt a).toNat = 0 := by rw [h0]; rfl
      rw [hzero, Nat.zero_add] at hlt ⊢
      exact ih hq hroots hlt h
    · split at h
      · next u hu =>
        have hf : ((s.freqAt a).setWidth 72).toNat = (s.freqAt a).toNat :=
          BitVec.toNat_setWidth_of_le (by decide)
        have hadd : (narrowWeight s.cfg (total + (s.freqAt a).setWidth 72)).toNat =
            total.toNat + (s.freqAt a).toNat := by
          rw [narrowWeight_add (by omega), hf]
        have hu' := allocateQueued_forestWeight (by omega) hu
        have hqu := allocateQueued_queueOwned hq hu
        have hsame : u.cfg = s.cfg ∧ countSum u rest = countSum s rest := by
          obtain ⟨-, -, rfl⟩ := allocateQueued_ok hu
          exact ⟨rfl, rfl⟩
        obtain ⟨hcfg, hcount⟩ := hsame
        have := ih hqu (by omega) (by rw [hcfg]; omega) h
        rwa [hadd, hcount, Nat.add_assoc] at this
      · cases h

/-- MKL leaves the roots weighing TOTAL, and TOTAL the sum of the counters (R40, R181). -/
theorem loadQueue_weighed {s t : State} (hs : s.StorageOk) (hnode : s.node = []) (hheap : s.heap = [])
    (h : loadQueue s = .ok t) : t.Weighed := by
  have hstorage := loadQueue_storageOk hs h
  simp only [loadQueue] at h
  split at h
  · next total u hu =>
    cases h
    have hzero : (0 : Weight).toNat + countSum s symbols = s.freqSum := Nat.zero_add _
    obtain ⟨hq, hroots, htotal⟩ := makeLeaves_weighs (by simp [hnode, hheap, QueueOwned]) (by simp [hnode])
      (hzero ▸ freqSum_lt hs) hu
    have hfreq : u.freqSum = s.freqSum := by rw [makeLeaves_frame hu]; rfl
    exact ⟨hstorage, hq, hroots, (htotal.trans hzero).trans hfreq.symm⟩
  · cases h

/-- A merge gives the new node what it takes from its two children (R182). -/
theorem mergeTwo_weighed (s t : State) (hs : s.Weighed) (h : mergeTwo s = .ok (some t)) : t.Weighed := by
  have hstorage := mergeTwo_storageOk s t hs.storage h
  have hlt := hs.forestWeight_lt
  obtain ⟨a, b, h1, h2, ha, hb, hn, -, rfl⟩ := mergeTwo_some h
  have hqa := hs.queue.perm (heapExtract_perm ha)
  have hqb := (hqa.setOwner .p).perm (heapExtract_perm hb)
  obtain ⟨ea, hea, hra⟩ := hqa.head
  obtain ⟨eb, heb, hrb⟩ := hqb.head
  have hwa := forestWeight_setOwner_child hea hra
  have hwb := forestWeight_setOwner_child heb hrb
  rw [nodeAt_setOwner_w] at hwb
  refine ⟨hstorage, (hqb.setOwner .p).insert _ ?_ rfl, ?_, hs.counted⟩
  · rw [State.ncnt_toNat hn, State.setOwner_length, State.setOwner_length]
  · have := hs.roots
    rw [forestWeight_append_root (by simp), narrowWeight_add (by omega)]
    show _ = s.total.toNat
    omega

/-- FIN gives the synthetic root what it takes from its one child, and changes the owner of a root that stays one
(R183, R188). -/
theorem finishes_weightsAddUp {s t : State} (hs : s.Weighed) (h : Finishes s t) : t.WeightsAddUp := by
  have hlt := hs.forestWeight_lt
  cases h with
  | empty _ => exact hs.weightsAddUp
  | @synthetic m rest _ hx ht =>
    obtain ⟨-, rfl⟩ := syntheticRoot_ok ht
    obtain ⟨e, he, hr⟩ := (hs.queue.perm (heapExtract_perm hx)).head
    have hw := forestWeight_setOwner_child he hr
    have hfit : narrowWeight s.cfg (s.nodeAt m).w = (s.nodeAt m).w := narrowWeight_of_lt (by omega)
    have hsum : forestWeight ((s.setOwner m .p).node ++ [⟨.internal m m, narrowWeight s.cfg (s.nodeAt m).w, .r⟩]) =
        forestWeight s.node := by
      rw [forestWeight_append_root (by simp), hfit]
      exact hw
    exact weightsAddUp_withArena hs.weightsAddUp hsum
  | @root m rest hx =>
    obtain ⟨e, he, hr⟩ := (hs.queue.perm (heapExtract_perm hx)).head
    have hkept : (s.setOwner m .r).WeightsAddUp := weightsAddUp_setOwner hs.weightsAddUp he hr (by simp)
    exact hkept

/-! The step. -/

/-- What of the invariants the weights rest on. -/
abbrev State.WeightPremises (s : State) : Prop :=
  s.StorageOk ∧ QueueOwned s.node s.heap ∧ (s.flags.ql = false → s.node = [] ∧ s.heap = []) ∧ s.WeightsAddUp

theorem State.Forest.queueOwned {s : State} (h : s.Forest) : QueueOwned s.node s.heap :=
  ⟨h.heap_nodup, fun n hn => (h.heap_queued n).mp hn⟩

theorem weighed_of_loaded {s : State} (h : s.WeightPremises) (hql : s.flags.ql = true) : s.Weighed := by
  obtain ⟨hs, hq, -, hw⟩ := h
  obtain ⟨hroots, hcounted⟩ := hw hql
  exact ⟨hs, hq, (rootSum_weights s.node).symm.trans hroots, hcounted⟩

theorem weighed_of_loadQueue {s t : State} (h : s.WeightPremises) (hopen : s.tableOpen = true)
    (ht : loadQueue s = .ok t) : t.Weighed := by
  obtain ⟨hs, -, hempty, -⟩ := h
  have hql : s.flags.ql = false := by simp_all [State.tableOpen]
  obtain ⟨hnode, hheap⟩ := hempty hql
  exact loadQueue_weighed hs hnode hheap ht

/-- The own part of every command leaves the weights adding up. -/
theorem writes_weightsAddUp {i : Instr} {s t : State} (h : s.WeightPremises) (hp : passes i s) (hw : Writes i s t) :
    t.WeightsAddUp := by
  obtain ⟨-, hq, -, hadd⟩ := id h
  obtain ⟨-, -, hphase⟩ := hp
  cases hw with
  | nothing | table _ | pack _ _ _ | start | stop => exact hadd
  | clear => exact fun hql => nomatch hql
  | counter v hi =>
    have hopen : s.tableOpen = true := by rcases hi with rfl | ⟨w, rfl⟩ <;> exact hphase
    have hql : s.flags.ql = false := by simp_all [State.tableOpen]
    exact fun hql' => by simp [hql] at hql'
  | @insert n _ _ hn hx ht =>
    obtain ⟨-, rfl⟩ := pqInsert_ok ht
    have he := List.getElem?_eq_getElem hn
    rw [State.nodeAt, nodeIn_of_getElem he] at hx
    have hkept : (s.setOwner n .q).WeightsAddUp := weightsAddUp_setOwner hadd he (by simp [hx]) (by simp)
    exact hkept
  | @extract _ m _ hx =>
    obtain ⟨e, he, hr⟩ := (hq.perm (heapExtract_perm hx)).head
    have hkept : (s.setOwner m .x).WeightsAddUp := weightsAddUp_setOwner hadd he hr (by simp)
    exact hkept
  | leaves ht => exact (weighed_of_loadQueue h hphase ht).weightsAddUp
  | merge ht =>
    have hql : s.flags.ql = true := by simp_all [phaseOk]
    exact (mergeTwo_weighed s t (weighed_of_loaded h hql) ht).weightsAddUp
  | finish hf =>
    have hql : s.flags.ql = true := by simp_all [phaseOk, State.finishOpen]
    exact finishes_weightsAddUp (weighed_of_loaded h hql) hf
  | build ht hu _ hf =>
    exact finishes_weightsAddUp (mergeAll_keeps mergeTwo_weighed (weighed_of_loadQueue h hphase ht) hu) hf
  | decode bits _ =>
    rw [decodeBits_frame]
    exact hadd

/-- Settles O58, by the weight of the forest over what each command can write. -/
theorem weightsKept : Obligations.WeightsKept := by
  intro s t hs _ _ hforest hadd hstep
  exact step_establishes (P := State.WeightPremises) (Q := State.WeightsAddUp) (fun _ h => h.2.2.2) (fun _ _ h => h)
    (fun _ _ _ _ h => h) (fun _ _ _ h => h) (fun _ _ _ hql => nomatch hql)
    (fun _ _ _ h hp hw => writes_weightsAddUp h hp hw)
    ⟨hs, hforest.queueOwned, hforest.not_loaded, hadd⟩ hstep

end Sys2Proof.Machine
end

section
/-! SUPPORT. How a command ends, with what its own part gave: the status and the bytes of its response, and an induction
over a step that still knows the own part (spec/30_encoding.md rule R114, spec/60_exceptions.md rule R283). -/

namespace Sys2Proof.Machine

/-- The own part ends by `respond(OK, …)` or `respond(EMPTY, 0)`, no byte emitted. -/
def Done.Silent (d : Done) : Prop := d.bytes = [] ∧ (d.st = .ok ∨ d.st = .empty)

@[simp] theorem Done.ok_silent (s : State) (data : Data) : (Done.ok s data).Silent := ⟨rfl, .inl rfl⟩

@[simp] theorem Done.empty_silent (s : State) : (Done.empty s).Silent := ⟨rfl, .inr rfl⟩

theorem finEffect_silent {s : State} {d : Done} (h : finEffect s = .ok d) : d.Silent := by
  simp only [finEffect] at h
  split at h
  · cases h; simp
  · split at h
    · split at h <;> cases h
      simp
    · cases h; simp

/-- BLD is MKL, the merges, and FIN with its phase check (R184). -/
theorem bldEffect_ok {s : State} {d : Done} (h : bldEffect s = .ok d) :
    ∃ t u, loadQueue s = .ok t ∧ mergeAll t.heap.length t = .ok u ∧ u.finishOpen = true ∧ finEffect u = .ok d := by
  simp only [bldEffect] at h
  split at h
  · cases h
  · next t ht =>
    split at h
    · cases h
    · next u hu =>
      split at h
      · next ho => exact ⟨t, u, ht, hu, ho, h⟩
      · cases h

theorem pqiEffect_silent {n : Index} {s : State} {d : Done} (h : pqiEffect n s = .ok d) : d.Silent := by
  simp only [pqiEffect] at h
  split at h
  · split at h <;> cases h
    simp
  · cases h

/-- Only the codec's commands emit bytes (R33). -/
theorem effectOf_silent {i : Instr} {s : State} {d : Done} (h : effectOf i s = .ok d) (henc : ∀ a, i ≠ .enc a)
    (hefl : i ≠ .efl) (hdbt : ∀ b, i ≠ .dbt b) (hdby : ∀ a, i ≠ .dby a) : d.Silent := by
  cases i with
  | enc a => exact absurd rfl (henc a)
  | efl => exact absurd rfl hefl
  | dbt b => exact absurd rfl (hdbt b)
  | dby a => exact absurd rfl (hdby a)
  | nop | clr | ldf | rdf | rdc | rdcb | dst => cases h; simp
  | cnt a => simp only [effectOf, cntEffect] at h; split at h <;> cases h; simp
  | rds r => simp only [effectOf, rdsEffect] at h; split at h <;> cases h; simp
  | pqi n => exact pqiEffect_silent h
  | pqx => simp only [effectOf, pqxEffect] at h; split at h <;> cases h <;> simp
  | rdh n => simp only [effectOf, rdhEffect] at h; split at h <;> cases h <;> simp
  | mkl => simp only [effectOf, mklEffect] at h; split at h <;> cases h; simp
  | mrg => simp only [effectOf, mrgEffect] at h; split at h <;> cases h <;> simp
  | fin => exact finEffect_silent h
  | bld =>
    obtain ⟨t, u, -, -, -, hf⟩ := bldEffect_ok h
    exact finEffect_silent hf
  | rdnw n => simp only [effectOf, rdnwEffect] at h; split at h <;> cases h <;> simp
  | rdnl n => simp only [effectOf, rdnlEffect] at h; split at h <;> cases h <;> simp
  | gen => simp only [effectOf, genEffect] at h; split at h <;> cases h; simp
  | den => simp only [effectOf, denEffect] at h; split at h <;> cases h; simp

theorem decodeEffect_st {bits : List Bool} {s : State} {d : Done} (h : decodeEffect bits s = .ok d) : d.st = .ok := by
  rw [decodeEffect_eq] at h
  cases h
  rfl

/-- An own part that responds does so with OK or EMPTY (R115). -/
theorem effectOf_st {i : Instr} {s : State} {d : Done} (h : effectOf i s = .ok d) : d.st = .ok ∨ d.st = .empty := by
  cases i with
  | enc a => simp only [effectOf, encEffect] at h; split at h <;> cases h; exact .inl rfl
  | efl => simp only [effectOf, eflEffect] at h; split at h <;> cases h <;> exact .inl rfl
  | dbt b => rw [effectOf] at h; exact .inl (decodeEffect_st h)
  | dby a => rw [effectOf] at h; exact .inl (decodeEffect_st h)
  | _ => exact (effectOf_silent h (by simp) (by simp) (by simp) (by simp)).2

/-- What a command can answer: a refusal or a fault, which leave all but the record of it as it was, or the response of
its own part, run only where its frame is passed. -/
theorem exec_responds {i : Instr} {s t : State} (h : exec i s = .next t) :
    (∃ st, t = s.answered [] st 0) ∨ (∃ c word, t = s.faulted c word) ∨
    (∃ d, passes i s ∧ effectOf i s = .ok d ∧ t = d.state.answered d.bytes d.st d.data) := by
  rw [exec_eq_command] at h
  rcases command_cases i (effectOf i) s with ⟨-, -, hc⟩ | ⟨-, -, hc⟩ | ⟨-, -, -, hc⟩ | ⟨hp, hc⟩
  · cases hc.symm.trans h
    exact .inl ⟨_, rfl⟩
  · cases hc.symm.trans h
    exact .inr (.inl ⟨_, _, rfl⟩)
  · cases hc.symm.trans h
    exact .inr (.inl ⟨_, _, rfl⟩)
  · rcases conclude_next (hc.symm.trans h) with ⟨d, hd, rfl⟩ | ⟨c, -, rfl⟩
    · exact .inr (.inr ⟨d, hp, hd, rfl⟩)
    · exact .inr (.inl ⟨c, _, rfl⟩)

/-- The three ways a step that takes a command ends. -/
theorem step_responds {s t : State} {word : CommandWord} {w : Sideband} {rest : List Input}
    (hin : s.inputs = .command word w :: rest) (h : step s = .next t) :
    (∃ st, t = State.answered { s with inputs := rest } [] st 0) ∨
    (∃ c word', t = State.faulted { s with inputs := rest } c word') ∨
    (∃ i d, passes i { s with inputs := rest } ∧ effectOf i { s with inputs := rest } = .ok d ∧
      t = d.state.answered d.bytes d.st d.data) := by
  have hrun := (step_command hin).symm.trans h
  cases hd : decode word (narrowCount s.cfg w) with
  | ok i =>
    exact (exec_responds ((runCommand_of_ok _ hd).symm.trans hrun)).imp id (.imp id fun ⟨d, hd⟩ => ⟨i, d, hd⟩)
  | error e =>
    exact (illegalCommand_next ((runCommand_of_error _ hd).symm.trans hrun)).imp id .inl

/-- `step_establishes` for a property that needs more of a command than what it writes: the last premise is about the
own part that responded. -/
theorem step_establishes_of_effect {P Q : State → Prop} (weaken : ∀ s, P s → Q s)
    (taken : ∀ s rest, P s → P { s with inputs := rest })
    (answered : ∀ s bytes st data, Q s → Q (s.answered bytes st data))
    (faulted : ∀ s c word, Q s → Q (s.faulted c word))
    (reset : ∀ s rest, P s → Q { s.cleared with inputs := rest })
    (responded : ∀ i s d, P s → passes i s → effectOf i s = .ok d → Q d.state)
    {s t : State} (hs : P s) (h : step s = .next t) : Q t := by
  match hin : s.inputs with
  | [] =>
    cases (step_idle hin).symm.trans h
    exact weaken s hs
  | .reset :: rest =>
    cases (step_reset hin).symm.trans h
    exact reset s rest hs
  | .command word w :: rest =>
    have hs' := taken s rest hs
    rcases step_responds hin h with ⟨st, rfl⟩ | ⟨c, word', rfl⟩ | ⟨i, d, hp, hd, rfl⟩
    · exact answered _ _ _ _ (weaken _ hs')
    · exact faulted _ _ _ (weaken _ hs')
    · exact answered _ _ _ _ (responded i _ d hs' hp hd)

/-- An own part that responds has no status of 8 or above (R115). -/
theorem effectOf_st_code {i : Instr} {s : State} {d : Done} (h : effectOf i s = .ok d) : d.st.code.toNat < 8 := by
  rcases effectOf_st h with h | h
  · rw [h]; decide
  · rw [h]; decide

/-! What the stages of the builder leave alone. -/

theorem finishes_shape {s t : State} (h : Finishes s t) :
    ∃ node heap root em dg, t = { s with
      node := node
      heap := heap
      root := root
      flags := { s.flags with em := em, dg := dg, tv := true } } := by
  cases h with
  | empty _ => exact ⟨s.node, s.heap, 0, true, s.flags.dg, rfl⟩
  | @synthetic m rest _ _ ht =>
    obtain ⟨-, rfl⟩ := syntheticRoot_ok ht
    exact ⟨_, rest, _, s.flags.em, true, rfl⟩
  | @root m rest _ => exact ⟨_, rest, m, s.flags.em, s.flags.dg, rfl⟩

theorem loadQueue_shape {s t : State} (h : loadQueue s = .ok t) :
    ∃ node heap total,
      t = { s with node := node, heap := heap, total := total, flags := { s.flags with ql := true } } :=
  ⟨_, _, _, loadQueue_frame h⟩

theorem mergeTwo_shape {s t : State} (h : mergeTwo s = .ok (some t)) :
    ∃ node heap, t = { s with node := node, heap := heap } := by
  obtain ⟨a, b, h1, h2, -, -, -, -, rfl⟩ := mergeTwo_some h
  exact ⟨_, _, rfl⟩

theorem mergeAll_shape {fuel : Nat} {s t : State} (h : mergeAll fuel s = .ok t) :
    ∃ node heap, t = { s with node := node, heap := heap } := by
  refine mergeAll_keeps (P := fun u => ∃ node heap, u = { s with node := node, heap := heap }) ?_ ⟨_, _, rfl⟩ h
  rintro _ u ⟨node, heap, rfl⟩ hu
  obtain ⟨node', heap', rfl⟩ := mergeTwo_shape hu
  exact ⟨node', heap', rfl⟩

theorem build_shape {s t u v : State} (ht : loadQueue s = .ok t) (hu : mergeAll t.heap.length t = .ok u)
    (hv : Finishes u v) :
    ∃ node heap root total em dg, v = { s with
      node := node
      heap := heap
      root := root
      total := total
      flags := { s.flags with ql := true, em := em, dg := dg, tv := true } } := by
  obtain ⟨_, _, total, rfl⟩ := loadQueue_shape ht
  obtain ⟨_, _, rfl⟩ := mergeAll_shape hu
  obtain ⟨node, heap, root, em, dg, rfl⟩ := finishes_shape hv
  exact ⟨node, heap, root, total, em, dg, rfl⟩

theorem decodeBits_shape (bits : List Bool) (s : State) :
    ∃ cur emitted, (decodeBits bits s).1 = { s with cur := cur, emitted := emitted } :=
  ⟨_, _, decodeBits_frame bits s⟩

/-- What no command but CLR writes: CFG, the record of a fault (R283 writes it, R286 clears it), the host's moves and
what has been sent, the response being the command's end (assumption log 2, 3). -/
theorem writes_frame {i : Instr} {s t : State} (h : Writes i s t) (hi : i ≠ .clr) :
    t.flags.er = s.flags.er ∧ t.errcode = s.errcode ∧ t.errinfo = s.errinfo ∧ t.cfg = s.cfg ∧ t.inputs = s.inputs ∧
    t.sent = s.sent := by
  cases h with
  | clear => exact absurd rfl hi
  | nothing | counter _ _ | extract _ | table _ | pack _ _ _ | start | stop => simp
  | insert _ _ ht =>
    obtain ⟨-, rfl⟩ := pqInsert_ok ht
    simp
  | leaves ht =>
    obtain ⟨_, _, _, rfl⟩ := loadQueue_shape ht
    simp
  | merge ht =>
    obtain ⟨_, _, rfl⟩ := mergeTwo_shape ht
    simp
  | finish hf =>
    obtain ⟨_, _, _, _, _, rfl⟩ := finishes_shape hf
    simp
  | build ht hu _ hf =>
    obtain ⟨_, _, _, _, _, _, rfl⟩ := build_shape ht hu hf
    simp
  | decode bits _ =>
    rw [decodeBits_frame]
    simp

theorem writes_clr {s t : State} (h : Writes .clr s t) : t = s ∨ t = s.cleared := by
  cases h with
  | nothing => exact .inl rfl
  | clear => exact .inr rfl
  | counter _ hi | pack _ _ hi | decode _ hi => simp at hi

/-- The own part of a command takes no move and sends nothing itself (R32). -/
theorem writes_channels {i : Instr} {s t : State} (h : Writes i s t) : t.inputs = s.inputs ∧ t.sent = s.sent := by
  by_cases hi : i = .clr
  · subst hi
    rcases writes_clr h with rfl | rfl
    · exact ⟨rfl, rfl⟩
    · exact ⟨rfl, rfl⟩
  · obtain ⟨-, -, -, -, hchannels⟩ := writes_frame h hi
    exact hchannels

/-- Settles O9: a refusal and a fault emit no byte, and the own part of every other command is silent. -/
theorem onlyCodecCommandsEmitBytes : Obligations.OnlyCodecCommandsEmitBytes := by
  intro i s t henc hefl hdbt hdby h
  rcases exec_responds h with ⟨st, rfl⟩ | ⟨c, word, rfl⟩ | ⟨d, -, hd, rfl⟩
  · exact ⟨_, rfl⟩
  · exact ⟨_, rfl⟩
  · obtain ⟨-, hsent⟩ := writes_channels (effectOf_writes hd)
    obtain ⟨hbytes, -⟩ := effectOf_silent hd henc hefl hdbt hdby
    exact ⟨⟨d.st, d.data⟩, by simp [hsent, hbytes]⟩

/-- Settles O8, by the three ways a step that takes a command ends. -/
theorem oneResponsePerCommand : Obligations.OneResponsePerCommand := by
  intro s t word w rest hin h
  rcases step_responds hin h with ⟨st, rfl⟩ | ⟨c, word', rfl⟩ | ⟨i, d, -, hd, rfl⟩
  · exact ⟨[], st, 0, rfl, rfl, fun _ => ⟨rfl, rfl⟩⟩
  · exact ⟨[], .fault c, 0, rfl, rfl, fun _ => ⟨rfl, rfl⟩⟩
  · obtain ⟨hinputs, hsent⟩ := writes_channels (effectOf_writes hd)
    have hst := effectOf_st_code hd
    exact ⟨d.bytes, d.st, d.data, by simp [hsent], hinputs, fun h8 => absurd h8 (Nat.not_le.mpr hst)⟩

/-- Settles O15: a fault writes a code of 8 to 14 and ER together, CLR and a reset clear all three, and no other write
touches them. -/
theorem faultRecordKept : Obligations.FaultRecordKept := by
  intro s t hs h
  refine step_establishes (P := State.FaultRecordOk) (Q := State.FaultRecordOk) (fun _ h => h) (fun _ _ h => h)
    (fun _ _ _ _ h => h) (fun _ c _ _ => ⟨by simp, fun _ => FaultCode.code_range c⟩)
    (fun _ _ _ => ⟨fun _ => ⟨rfl, rfl⟩, by simp [Flags.clear]⟩) (fun i s u hs _ hw => ?_) hs h
  by_cases hi : i = .clr
  · subst hi
    rcases writes_clr hw with rfl | rfl
    · exact hs
    · exact ⟨fun _ => ⟨rfl, rfl⟩, by simp [Flags.clear]⟩
  · obtain ⟨her, hcode, hinfo, -⟩ := writes_frame hw hi
    rwa [State.FaultRecordOk, her, hcode, hinfo]

end Sys2Proof.Machine
end

section
/-! SUPPORT. Who writes what (spec/10_state.md rule R59), and what a run freezes (rules R48, R54, R55). -/

namespace Sys2Proof.Machine

/-! Owner tags. -/

/-- The arena with the owner tag of an entry written (R56). -/
def retag (arena : List Node) (n : Index) (o : Owner) : List Node :=
  arena.modify n.toNat (fun e => { e with own := o })

/-- What `State.setOwner` does to the arena. -/
theorem setOwner_node_eq (s : State) (n : Index) (o : Owner) : (s.setOwner n o).node = retag s.node n o := rfl

@[simp] theorem retag_length (arena : List Node) (n : Index) (o : Owner) : (retag arena n o).length = arena.length :=
  List.length_modify _ _ _

theorem retag_same {arena : List Node} {n : Index} {e : Node} (o : Owner) (h : arena[n.toNat]? = some e) :
    (retag arena n o)[n.toNat]? = some { e with own := o } := by
  simp [retag, h]

theorem retag_other (arena : List Node) {n : Index} (o : Owner) {i : Nat} (h : i ≠ n.toNat) :
    (retag arena n o)[i]? = arena[i]? := by
  simp [retag, Ne.symm h]

/-- An entry after a write of an owner tag: the one written to, or one that was there. -/
theorem retag_cases {arena : List Node} {n : Index} {o : Owner} {i : Nat} {e : Node}
    (h : (retag arena n o)[i]? = some e) :
    (i = n.toNat ∧ e.own = o ∧ ∃ e', arena[i]? = some e' ∧ e'.kind = e.kind) ∨ (i ≠ n.toNat ∧ arena[i]? = some e) := by
  by_cases hi : i = n.toNat
  · subst hi
    rw [retag, List.getElem?_modify_eq] at h
    obtain ⟨e', he', rfl⟩ := Option.map_eq_some_iff.mp h
    exact .inl ⟨rfl, rfl, e', he', rfl⟩
  · exact .inr ⟨hi, by rwa [retag_other arena o hi] at h⟩

/-- An entry appended, or one that was there. -/
theorem append_cases {arena : List Node} {new e : Node} {i : Nat} (h : (arena ++ [new])[i]? = some e) :
    (i = arena.length ∧ e = new) ∨ arena[i]? = some e := by
  rw [List.getElem?_append] at h
  split at h
  · exact .inr h
  · rw [List.getElem?_singleton] at h
    split at h
    · exact .inl ⟨by omega, by simpa using h.symm⟩
    · cases h

/-! The arena only grows, and an entry keeps its kind and its weight. -/

/-- Every entry is still there with its kind and weight (R55: "only `own` changes later"). -/
def Extends (arena arena' : List Node) : Prop :=
  ∀ (n : Nat) (e : Node), arena[n]? = some e → ∃ e', arena'[n]? = some e' ∧ e'.kind = e.kind ∧ e'.w = e.w

theorem Extends.refl (arena : List Node) : Extends arena arena := fun _ e h => ⟨e, h, rfl, rfl⟩

theorem Extends.trans {a b c : List Node} (h : Extends a b) (h' : Extends b c) : Extends a c := by
  intro n e he
  obtain ⟨e', he', hk, hw⟩ := h n e he
  obtain ⟨e'', he'', hk', hw'⟩ := h' n e' he'
  exact ⟨e'', he'', hk'.trans hk, hw'.trans hw⟩

theorem Extends.append (arena more : List Node) : Extends arena (arena ++ more) :=
  fun n e h => ⟨e, by rw [List.getElem?_append_left (List.getElem?_eq_some_iff.mp h).1]; exact h, rfl, rfl⟩

theorem Extends.retag (arena : List Node) (n : Index) (o : Owner) : Extends arena (retag arena n o) := by
  intro i e h
  by_cases hi : i = n.toNat
  · subst hi
    exact ⟨_, retag_same o h, rfl, rfl⟩
  · exact ⟨e, by rwa [retag_other arena o hi], rfl, rfl⟩

/-- What every new Leaf keeps of the arena and the queue, the loop of MKL keeps (R181). -/
theorem makeLeaves_keeps {P : List Node → List Index → Prop}
    (leaf : ∀ a w s t, P s.node s.heap → allocateQueued (.leaf a) w s = .ok t → P t.node t.heap) {left : List Byte}
    {total w : Weight} {s t : State} (hs : P s.node s.heap) (h : makeLeaves left total s = .ok (w, t)) :
    P t.node t.heap := by
  induction left generalizing total s with
  | nil =>
    cases h
    exact hs
  | cons a rest ih =>
    simp only [makeLeaves] at h
    split at h
    · exact ih hs h
    · split at h
      · next u hu => exact ih (leaf _ _ _ _ hs hu) h
      · cases h

theorem loadQueue_keeps {P : List Node → List Index → Prop}
    (leaf : ∀ a w s t, P s.node s.heap → allocateQueued (.leaf a) w s = .ok t → P t.node t.heap) {s t : State}
    (hs : P s.node s.heap) (h : loadQueue s = .ok t) : P t.node t.heap := by
  simp only [loadQueue] at h
  split at h
  · next total u hu =>
    cases h
    exact makeLeaves_keeps (t := u) leaf hs hu
  · cases h

theorem loadQueue_extends {s t : State} (h : loadQueue s = .ok t) : Extends s.node t.node := by
  refine loadQueue_keeps (P := fun arena _ => Extends s.node arena) (fun a w u v hu hv => ?_) (.refl _) h
  obtain ⟨-, -, rfl⟩ := allocateQueued_ok hv
  exact hu.trans (.append _ _)

theorem mergeTwo_extends {s t : State} (h : mergeTwo s = .ok (some t)) : Extends s.node t.node := by
  obtain ⟨a, b, _, _, -, -, -, -, rfl⟩ := mergeTwo_some h
  exact (Extends.retag s.node a .p).trans ((Extends.retag _ b .p).trans (.append _ _))

theorem mergeAll_extends {fuel : Nat} {s t : State} (h : mergeAll fuel s = .ok t) : Extends s.node t.node :=
  mergeAll_keeps (P := fun u => Extends s.node u.node) (fun _ _ hs hu => hs.trans (mergeTwo_extends hu)) (.refl _) h

theorem finishes_extends {s t : State} (h : Finishes s t) : Extends s.node t.node := by
  cases h with
  | empty _ => exact .refl _
  | @synthetic m _ _ _ ht =>
    obtain ⟨-, rfl⟩ := syntheticRoot_ok ht
    exact (Extends.retag s.node m .p).trans (.append _ _)
  | @root m _ _ => exact Extends.retag s.node m .r

/-- An entry keeps its kind and weight for as long as there is no CLR (R55). -/
theorem writes_extends {i : Instr} {s t : State} (h : Writes i s t) (hi : i ≠ .clr) : Extends s.node t.node := by
  cases h with
  | clear => exact absurd rfl hi
  | nothing | counter _ _ | table _ | pack _ _ _ | start | stop => exact .refl s.node
  | @insert n _ _ _ _ ht =>
    obtain ⟨-, rfl⟩ := pqInsert_ok ht
    exact Extends.retag s.node n .q
  | @extract _ m _ _ => exact Extends.retag s.node m .x
  | leaves ht => exact loadQueue_extends ht
  | merge ht => exact mergeTwo_extends ht
  | finish hf => exact finishes_extends hf
  | build ht hu _ hf => exact (loadQueue_extends ht).trans ((mergeAll_extends hu).trans (finishes_extends hf))
  | decode bits _ =>
    rw [decodeBits_frame]
    exact .refl s.node

/-! The writers. -/

/-- `Obligations.WritersOfEachState` of what a command's own part writes (R59). -/
theorem writes_writers {i : Instr} {s t : State} (h : Writes i s t) (hi : i ≠ .clr) :
    ((∀ a w, i ≠ .ldf a w) → (∀ a, i ≠ .cnt a) → t.freq = s.freq) ∧
    (i ≠ .mkl → i ≠ .mrg → i ≠ .fin → i ≠ .bld → i ≠ .pqx → (∀ n, i ≠ .pqi n) →
      t.node = s.node ∧ t.heap = s.heap) ∧
    (i ≠ .gen → t.code = s.code) ∧
    (i ≠ .fin → i ≠ .bld → t.root = s.root) ∧ (i ≠ .mkl → i ≠ .bld → t.total = s.total) ∧
    ((∀ a, i ≠ .enc a) → i ≠ .efl → t.acc = s.acc ∧ t.nbits = s.nbits) ∧
    (i ≠ .dst → (∀ b, i ≠ .dbt b) → (∀ a, i ≠ .dby a) → t.cur = s.cur ∧ t.emitted = s.emitted) ∧
    (i ≠ .pqx → (∀ n, i ≠ .pqi n) → t.xcnt = s.xcnt) := by
  cases h with
  | clear => exact absurd rfl hi
  | nothing | extract _ | table _ | start | stop => simp
  | counter _ hi =>
    obtain rfl | ⟨w, rfl⟩ := hi
    · simp
    · simp
  | pack _ _ hi =>
    obtain ⟨a, rfl⟩ | rfl := hi
    · simp
    · simp
  | insert _ _ ht =>
    obtain ⟨-, rfl⟩ := pqInsert_ok ht
    simp
  | leaves ht =>
    obtain ⟨_, _, _, rfl⟩ := loadQueue_shape ht
    simp
  | merge ht =>
    obtain ⟨_, _, rfl⟩ := mergeTwo_shape ht
    simp
  | finish hf =>
    obtain ⟨_, _, _, _, _, rfl⟩ := finishes_shape hf
    simp
  | build ht hu _ hf =>
    obtain ⟨_, _, _, _, _, _, rfl⟩ := build_shape ht hu hf
    simp
  | decode bits hi =>
    obtain ⟨_, _, hs⟩ := decodeBits_shape bits s
    rw [hs]
    obtain ⟨b, rfl⟩ | ⟨a, rfl⟩ := hi
    · simp
    · simp

/-- Settles O49: a refusal and a fault write none of these, the own part only what its command may. -/
theorem writersOfEachState : Obligations.WritersOfEachState := by
  intro i s t hi h
  rcases exec_next h with ⟨st, rfl⟩ | ⟨c, word, rfl⟩ | ⟨u, bytes, st, data, -, hw, rfl⟩
  · simp
  · simp
  · obtain ⟨-, -, -, hcfg, hinputs, -⟩ := writes_frame hw hi
    have hwriters := writes_writers hw hi
    exact ⟨hcfg, hinputs, hwriters⟩

/-! What a run freezes. -/

/-- The flags but DS and ER only rise (R48). -/
def Flags.Rise (f g : Flags) : Prop :=
  (f.ql = true → g.ql = true) ∧ (f.tv = true → g.tv = true) ∧ (f.em = true → g.em = true) ∧
  (f.dg = true → g.dg = true) ∧ (f.cv = true → g.cv = true)

theorem Flags.Rise.refl (f : Flags) : f.Rise f := ⟨id, id, id, id, id⟩

theorem finishes_flags {s t : State} (h : Finishes s t) :
    t.flags.tv = true ∧ (s.flags.em = true → t.flags.em = true) ∧ (s.flags.dg = true → t.flags.dg = true) ∧
    t.flags.ql = s.flags.ql ∧ t.flags.cv = s.flags.cv := by
  cases h with
  | empty _ => simp
  | synthetic _ ht =>
    obtain ⟨-, rfl⟩ := syntheticRoot_ok ht
    simp
  | root _ => simp

theorem writes_flagsRise {i : Instr} {s t : State} (h : Writes i s t) (hi : i ≠ .clr) : s.flags.Rise t.flags := by
  cases h with
  | clear => exact absurd rfl hi
  | nothing | counter _ _ | extract _ | pack _ _ _ | start | stop => exact .refl s.flags
  | insert _ _ ht =>
    obtain ⟨-, rfl⟩ := pqInsert_ok ht
    exact .refl s.flags
  | leaves ht =>
    obtain ⟨_, _, _, rfl⟩ := loadQueue_shape ht
    simp [Flags.Rise]
  | merge ht =>
    obtain ⟨_, _, rfl⟩ := mergeTwo_shape ht
    exact .refl s.flags
  | finish hf =>
    obtain ⟨htv, hem, hdg, hql, hcv⟩ := finishes_flags hf
    simp_all [Flags.Rise]
  | build ht hu _ hf =>
    obtain ⟨htv, hem, hdg, hql, hcv⟩ := finishes_flags hf
    obtain ⟨_, _, _, rfl⟩ := loadQueue_shape ht
    obtain ⟨_, _, rfl⟩ := mergeAll_shape hu
    simp_all [Flags.Rise]
  | table _ => simp [Flags.Rise]
  | decode bits _ =>
    rw [decodeBits_frame]
    exact .refl s.flags

/-- The commands that write FREQ, NODE, HEAP, ROOT or TOTAL (R59). -/
def buildCommand (i : Instr) : Bool :=
  match i with
  | .ldf _ _ | .cnt _ | .pqi _ | .pqx | .mkl | .mrg | .fin | .bld => true
  | .nop | .clr | .rdf _ | .rds _ | .rdh _ | .rdnw _ | .rdnl _ | .gen | .rdc _ | .rdcb _ _ | .enc _ | .efl | .dst
  | .dbt _ | .dby _ | .den => false

/-- No command that writes the build passes its frame once TV is set (R272). -/
theorem phase_open_of_build {i : Instr} {s : State} (hp : passes i s) (hb : buildCommand i = true) :
    s.flags.tv = false := by
  obtain ⟨-, -, hphase⟩ := hp
  cases i <;> simp_all [buildCommand, phaseOk, State.tableOpen, State.finishOpen]

/-- A command that does not write the build leaves it as it is. -/
theorem writes_same_build {i : Instr} {s t : State} (h : Writes i s t) (hi : i ≠ .clr)
    (hb : buildCommand i = false) :
    t.freq = s.freq ∧ t.node = s.node ∧ t.heap = s.heap ∧ t.root = s.root ∧ t.total = s.total := by
  obtain ⟨hfreq, harena, -, hroot, htotal, -⟩ := writes_writers h hi
  cases i <;> simp_all [buildCommand]

/-- The two commands that write FREQ do not pass their frame once QL is set (R272). -/
theorem writes_freq_frozen {i : Instr} {s t : State} (hp : passes i s) (h : Writes i s t) (hi : i ≠ .clr)
    (hql : s.flags.ql = true) : t.freq = s.freq := by
  obtain ⟨-, -, hphase⟩ := hp
  obtain ⟨hfreq, -⟩ := writes_writers h hi
  refine hfreq ?_ ?_
  · rintro a w rfl
    simp [phaseOk, State.tableOpen, hql] at hphase
  · rintro a rfl
    simp [phaseOk, State.tableOpen, hql] at hphase

/-- Settles O50, by the phase check of the commands that write the build. -/
theorem frozenTablesStay : Obligations.FrozenTablesStay := by
  intro i s t hi h
  rcases exec_next h with ⟨st, rfl⟩ | ⟨c, word, rfl⟩ | ⟨u, bytes, st, data, hp, hw, rfl⟩
  · exact ⟨id, id, id, id, id, id, fun _ => rfl, Extends.refl s.node, fun _ => ⟨rfl, rfl, rfl, rfl⟩⟩
  · exact ⟨id, id, id, id, id, fun _ => rfl, fun _ => rfl, Extends.refl s.node, fun _ => ⟨rfl, rfl, rfl, rfl⟩⟩
  · obtain ⟨hql, htv, hem, hdg, hcv⟩ := writes_flagsRise hw hi
    obtain ⟨her, -⟩ := writes_frame hw hi
    have hnode := writes_extends hw hi
    have hfreq := writes_freq_frozen hp hw hi
    refine ⟨hql, htv, hem, hdg, hcv, fun h => her.trans h, hfreq, hnode, fun htv => ?_⟩
    cases hb : buildCommand i with
    | true => simp [phase_open_of_build hp hb] at htv
    | false =>
      obtain ⟨-, hsame⟩ := writes_same_build hw hi hb
      exact hsame

end Sys2Proof.Machine
end

section
/-! SUPPORT. The commands the faulted engine accepts (spec/60_exceptions.md rule R285): NOP, CLR and the reads, each
with what it answers in every state. -/

namespace Sys2Proof.Machine

/-- A command the faulted engine accepts answers in every state, faulted or not, as its own part says (R285, R272). -/
theorem exec_of_accepted {i : Instr} {s : State} {d : Done} (hi : acceptedWhenFaulted i = true)
    (h : effectOf i s = .ok d) : exec i s = .next (d.state.answered d.bytes d.st d.data) := by
  rw [exec_eq_command, command_of_passes _ (accepted_passes s hi), h, conclude_ok]

theorem exec_nop (s : State) : exec .nop s = .next (s.answered [] .ok 0) :=
  exec_of_accepted (i := .nop) (d := Done.ok s 0) rfl rfl

theorem exec_clr (s : State) : exec .clr s = .next (s.cleared.answered [] .ok 0) :=
  exec_of_accepted (i := .clr) (d := Done.ok s.cleared 0) rfl rfl

theorem readCommand_accepted {i : Instr} (h : readCommand i = true) : acceptedWhenFaulted i = true := by
  cases i <;> simp_all [readCommand, acceptedWhenFaulted]

/-- The faulted engine accepts the reads, NOP and CLR and no other command (R285). -/
theorem not_accepted {i : Instr} (hnop : i ≠ .nop) (hclr : i ≠ .clr) (h : readCommand i = false) :
    acceptedWhenFaulted i = false := by
  cases i <;> simp_all [readCommand, acceptedWhenFaulted]

/-- RDS numbers the registers from 0 to 12 (R51). -/
theorem register_some {s : State} {r : Byte} (h : r.toNat ≤ 12) : ∃ v, s.register r = some v := by
  simp only [State.register]
  split <;> simp_all
  omega

/-- The own part of a read responds OK or EMPTY over the state as it was (R88). -/
theorem effectOf_read {i : Instr} (s : State) (h : readCommand i = true) :
    ∃ st data, (st = .ok ∨ st = .empty) ∧ effectOf i s = .ok ⟨s, [], st, data⟩ := by
  cases i with
  | rdf a => exact ⟨_, _, .inl rfl, rfl⟩
  | rdc a => exact ⟨_, _, .inl rfl, rfl⟩
  | rdcb a k => exact ⟨_, _, .inl rfl, rfl⟩
  | rds r =>
    obtain ⟨v, hv⟩ := register_some (s := s) (of_decide_eq_true h)
    exact ⟨.ok, v, .inl rfl, by simp only [effectOf, rdsEffect, hv]; rfl⟩
  | rdh n =>
    cases hn : s.heap[n.toNat]? with
    | some m => exact ⟨.ok, _, .inl rfl, by simp only [effectOf, rdhEffect, hn]; rfl⟩
    | none => exact ⟨.empty, _, .inr rfl, by simp only [effectOf, rdhEffect, hn]; rfl⟩
  | rdnw n =>
    cases hn : s.node[n.toNat]? with
    | some e => exact ⟨.ok, _, .inl rfl, by simp only [effectOf, rdnwEffect, hn]; rfl⟩
    | none => exact ⟨.empty, _, .inr rfl, by simp only [effectOf, rdnwEffect, hn]; rfl⟩
  | rdnl n =>
    cases hn : s.node[n.toNat]? with
    | some e => exact ⟨.ok, _, .inl rfl, by simp only [effectOf, rdnlEffect, hn]; rfl⟩
    | none => exact ⟨.empty, _, .inr rfl, by simp only [effectOf, rdnlEffect, hn]; rfl⟩
  | _ => simp [readCommand] at h

/-- A read answers and changes nothing, in every state (R88). -/
theorem exec_read {i : Instr} (s : State) (h : readCommand i = true) :
    ∃ st data, (st = .ok ∨ st = .empty) ∧ exec i s = .next (s.answered [] st data) := by
  obtain ⟨st, data, hst, he⟩ := effectOf_read s h
  exact ⟨st, data, hst, exec_of_accepted (readCommand_accepted h) he⟩

/-- Settles O11: an accepted command runs as its own part says, every other is turned away at the gate. -/
theorem faultedEngineAccepts : Obligations.FaultedEngineAccepts := by
  intro i s her
  refine ⟨fun hnop hclr hread => ?_, exec_read s, exec_nop s, exec_clr s⟩
  rw [exec_eq_command]
  exact command_refused _ her (not_accepted hnop hclr hread)

/-- Settles O17: CLR passes its frame in every state. -/
theorem clrRestoresReset : Obligations.ClrRestoresReset := ⟨by decide, exec_clr⟩

/-- STATUS is 0 with every flag clear (R67). -/
theorem status_of_clear {s : State} (h : s.flags = Flags.clear) : s.status = 0 := by
  simp [State.status, State.dd, flagBit, h, Flags.clear]

/-- What reset and CLR leave reads as R67 says, whatever the two channels hold. -/
theorem cleared_reads (s : State) (ins : List Input) (out : List Sent) :
    let t := { s.cleared with inputs := ins, sent := out }
    (∀ a, t.freqAt a = 0) ∧ t.node = [] ∧ t.heap = [] ∧ (∀ a, (t.codeAt a).len = 0 ∧ (t.codeAt a).val = 0) ∧
    t.ncnt = 0 ∧ t.hsz = 0 ∧ t.root = 0 ∧ t.xcnt = 0 ∧ t.cur = 0 ∧ t.total = 0 ∧ t.emitted = 0 ∧ t.acc = 0 ∧
    t.nbits = 0 ∧ t.status = 0 ∧ t.errcode = 0 ∧ t.errinfo = 0 ∧ t.cfg = s.cfg ∧
    t.ports = ⟨true, false, false, false⟩ :=
  ⟨fun _ => rfl, rfl, rfl, fun _ => ⟨rfl, rfl⟩, rfl, rfl, rfl, rfl, rfl, rfl, rfl, rfl, rfl, status_of_clear rfl, rfl,
    rfl, rfl, rfl⟩

/-- Settles O51: reset and CLR end in the same state up to the two channels. -/
theorem resetValues : Obligations.ResetValues := by
  rintro s t (⟨rest, hin, h⟩ | h)
  · cases (step_reset hin).symm.trans h
    exact cleared_reads s rest s.sent
  · cases (exec_clr s).symm.trans h
    exact cleared_reads s s.inputs _

/-! The registers of RDS. -/

/-- RDS of a register number answers the register and changes nothing (R146). -/
theorem exec_rds {s : State} {r : Byte} {v : Data} (hr : r.toNat ≤ 12) (h : s.register r = some v) :
    exec (.rds r) s = .next (s.answered [] .ok v) := by
  have hacc : acceptedWhenFaulted (.rds r) = true := decide_eq_true hr
  have heff : effectOf (.rds r) s = .ok (Done.ok s v) := by simp only [effectOf, rdsEffect, h]
  exact exec_of_accepted hacc heff

/-- RDS of a reserved number is an illegal encoding (R118). -/
theorem exec_rds_reserved {s : State} {r : Byte} (hr : 12 < r.toNat) :
    (s.flags.er = false → exec (.rds r) s = .next (s.faulted .ill (encodeWord (.rds r)))) ∧
    (s.flags.er = true → exec (.rds r) s = .next (s.answered [] .faulted 0)) := by
  have hw : (Instr.rds r).wellFormed = false := decide_eq_false (Nat.not_le.mpr hr)
  rw [exec_eq_command]
  exact ⟨fun her => command_illegal _ her hw, fun her => command_refused _ her hw⟩

/-- The word of RDS is its opcode over its operand (R117). -/
theorem encodeWord_rds (r : Byte) : encodeWord (.rds r) = 0x05000000#32 ||| r.setWidth 32 := by
  have hfield : (fieldS r).setWidth 32 = r.setWidth 32 := by
    have : r.toNat < 256 := r.isLt
    refine BitVec.eq_of_toNat_eq ?_
    simp only [fieldS, BitVec.toNat_setWidth]
    omega
  rw [encodeWord, assemble, hfield]
  rfl

/-- STATUS is its flags at their bits (R48). -/
theorem status_toNat (s : State) :
    s.status.toNat = s.flags.ql.toNat + 2 * s.flags.tv.toNat + 4 * s.flags.em.toNat + 8 * s.flags.dg.toNat +
      16 * s.flags.cv.toNat + 32 * s.flags.ds.toNat + 64 * s.dd.toNat + 128 * s.flags.er.toNat := by
  simp only [State.status]
  generalize s.flags.ql = ql, s.flags.tv = tv, s.flags.em = em, s.flags.dg = dg, s.flags.cv = cv, s.flags.ds = ds,
    s.dd = dd, s.flags.er = er
  revert ql tv em dg cv ds dd er
  decide

theorem cfgWord_setWidth (cw : CounterWidth) : (cfgWord cw).setWidth 72 = BitVec.ofNat 72 cw.bits := by
  cases cw <;> rfl

/-- A number of entries read as a register of 9 bits (R37, R38). -/
theorem ofNat_index_setWidth (n : Nat) : (BitVec.ofNat 9 n).setWidth 72 = BitVec.ofNat 72 (n % 512) := by
  rw [← BitVec.ofNat_toNat, BitVec.toNat_ofNat]

/-- Settles O21: a register number passes the frame in every state, and what it reads is the register of R51. -/
theorem rdsReadsTheRegister : Obligations.RdsReadsTheRegister := by
  intro s
  refine ⟨encodeWord_rds, ?_, ?_, exec_rds (by decide) rfl, exec_rds (by decide) rfl, ?_, ?_, exec_rds (by decide) rfl,
    exec_rds (by decide) rfl, exec_rds (by decide) rfl, exec_rds (by decide) rfl, exec_rds (by decide) rfl,
    exec_rds (by decide) rfl, exec_rds (by decide) rfl, fun r hr => exec_rds_reserved hr⟩
  · rw [← cfgWord_setWidth]
    exact exec_rds (by decide) rfl
  · have h := exec_rds (s := s) (r := 1) (by decide) rfl
    rw [← BitVec.ofNat_toNat, status_toNat] at h
    exact h
  · rw [← ofNat_index_setWidth]
    exact exec_rds (by decide) rfl
  · rw [← ofNat_index_setWidth]
    exact exec_rds (by decide) rfl

end Sys2Proof.Machine
end

section
/-! SUPPORT. The heap order (spec/10_state.md rule R63). A heap is read as the weights of its slots; each sift keeps the
order everywhere but at the slot it has reached (spec/41_priority_queue.md rules R162, R163). -/

namespace Sys2Proof.Machine

/-! The weights of the slots. -/

/-- The weight of an entry of the arena, as a number. -/
def weightOf (arena : List Node) (n : Index) : Nat := (nodeIn arena n).w.toNat

/-- The weight of the node in a slot. -/
def slotWeight (arena : List Node) (heap : List Index) (i : Nat) : Nat := weightOf arena (heap.getD i 0)

theorem lighter_iff {arena : List Node} {x y : Index} :
    lighter arena x y = true ↔ weightOf arena x < weightOf arena y := by
  simp [lighter, weightOf, BitVec.lt_def]

theorem slotWeight_of_getElem {arena : List Node} {heap : List Index} {i : Nat} {x : Index} (h : heap[i]? = some x) :
    slotWeight arena heap i = weightOf arena x := by
  simp [slotWeight, List.getD, h]

/-- The heap order speaks of the weights of the slots only. -/
theorem heapOrdered_iff {arena : List Node} {heap : List Index} :
    HeapOrdered arena heap ↔
      ∀ i, 0 < i → i < heap.length → slotWeight arena heap ((i - 1) / 2) ≤ slotWeight arena heap i := by
  constructor
  · intro h i h0 hi
    have hx := List.getElem?_eq_getElem hi
    have hy := List.getElem?_eq_getElem (show (i - 1) / 2 < heap.length by omega)
    rw [slotWeight_of_getElem hx, slotWeight_of_getElem hy]
    exact h i _ _ h0 hx hy
  · intro h i x y h0 hx hy
    have := h i h0 (List.getElem?_eq_some_iff.mp hx).1
    rwa [slotWeight_of_getElem hx, slotWeight_of_getElem hy] at this

/-- A swap exchanges the weights of its two slots. -/
theorem slotWeight_swap {arena : List Node} {heap : List Index} {i j : Nat} {x y : Index} (hx : heap[i]? = some x)
    (hy : heap[j]? = some y) (k : Nat) :
    slotWeight arena (swapSlots heap i j x y) k =
      if k = j then slotWeight arena heap i
      else if k = i then slotWeight arena heap j else slotWeight arena heap k := by
  have hi := (List.getElem?_eq_some_iff.mp hx).1
  have hj := (List.getElem?_eq_some_iff.mp hy).1
  rw [slotWeight_of_getElem hx, slotWeight_of_getElem hy]
  by_cases hkj : k = j
  · subst hkj
    rw [if_pos rfl]
    exact slotWeight_of_getElem (by simp [swapSlots, hj])
  · rw [if_neg hkj]
    by_cases hki : k = i
    · subst hki
      rw [if_pos rfl]
      exact slotWeight_of_getElem (by simp [swapSlots, Ne.symm hkj, hi])
    · rw [if_neg hki]
      simp [slotWeight, List.getD, swapSlots, Ne.symm hkj, Ne.symm hki]

/-! The sift-up (R162). -/

/-- The order holds but at slot i, whose node may be lighter than its parent; the parent is no heavier than what is
below slot i. -/
def OrderedAbove (arena : List Node) (heap : List Index) (i : Nat) : Prop :=
  ∀ j, 0 < j → j < heap.length →
    (j ≠ i → slotWeight arena heap ((j - 1) / 2) ≤ slotWeight arena heap j) ∧
    (0 < i → (j - 1) / 2 = i → slotWeight arena heap ((i - 1) / 2) ≤ slotWeight arena heap j)

/-- A swap with a strictly heavier parent moves the exception to the parent's slot. -/
theorem OrderedAbove.swap {arena : List Node} {heap : List Index} {i : Nat} {x y : Index}
    (h : OrderedAbove arena heap i) (hi : 0 < i) (hx : heap[i]? = some x) (hy : heap[(i - 1) / 2]? = some y)
    (hlt : weightOf arena x < weightOf arena y) :
    OrderedAbove arena (swapSlots heap i ((i - 1) / 2) x y) ((i - 1) / 2) := by
  have hlen := (List.getElem?_eq_some_iff.mp hx).1
  rw [← slotWeight_of_getElem hx, ← slotWeight_of_getElem hy] at hlt
  intro j hj hjlen
  rw [swapSlots_length] at hjlen
  simp only [slotWeight_swap hx hy]
  have hparent := h ((i - 1) / 2)
  have hchild := h j hj hjlen
  grind

/-- A sift-up repairs the exception. -/
theorem siftUp_ordered {arena : List Node} {fuel : Nat} {heap : List Index} {i : Nat} (hfuel : i ≤ fuel)
    (hi : i < heap.length) (h : OrderedAbove arena heap i) :
    HeapOrdered arena (siftUp (lighter arena) fuel heap i) := by
  induction fuel generalizing heap i with
  | zero =>
    obtain rfl : i = 0 := by omega
    exact heapOrdered_iff.mpr fun j hj hlen => (h j hj hlen).1 (by omega)
  | succ fuel ih =>
    simp only [siftUp]
    split
    · next h0 => exact heapOrdered_iff.mpr fun j hj hlen => (h j hj hlen).1 (by omega)
    · next h0 =>
      have hx := List.getElem?_eq_getElem hi
      have hy := List.getElem?_eq_getElem (show (i - 1) / 2 < heap.length by omega)
      simp only [hx, hy]
      split
      · next hlt =>
        exact ih (by omega) (by rw [swapSlots_length]; omega) (h.swap (by omega) hx hy (lighter_iff.mp hlt))
      · next hlt =>
        rw [lighter_iff, ← slotWeight_of_getElem hx, ← slotWeight_of_getElem hy] at hlt
        refine heapOrdered_iff.mpr fun j hj hlen => ?_
        by_cases hji : j = i
        · subst hji
          omega
        · exact (h j hj hlen).1 hji

theorem slotWeight_append {arena : List Node} {heap : List Index} (n : Index) {i : Nat} (h : i < heap.length) :
    slotWeight arena (heap ++ [n]) i = slotWeight arena heap i := by
  simp [slotWeight, List.getD, List.getElem?_append_left h]

/-- PQ.insert keeps the heap order: a node put at slot HSZ has nothing below it (R162). -/
theorem heapInsert_ordered {arena : List Node} {heap : List Index} (n : Index) (h : HeapOrdered arena heap) :
    HeapOrdered arena (heapInsert (lighter arena) heap n) := by
  refine siftUp_ordered (Nat.le_refl _) (by simp) fun j hj hlen => ?_
  rw [List.length_append, List.length_singleton] at hlen
  refine ⟨fun hne => ?_, fun _ hp => by omega⟩
  rw [slotWeight_append n (by omega), slotWeight_append n (by omega)]
  exact heapOrdered_iff.mp h j hj (by omega)

/-- Settles O23. -/
theorem insertKeepsTheHeap : Obligations.InsertKeepsTheHeap := fun _ _ n h =>
  ⟨heapInsert_ordered n h, heapInsert_perm _ _ n⟩

/-! The sift-down (R163). -/

/-- The order holds but below slot i, whose node may be heavier than its children; these are no lighter than the parent
of slot i. -/
def OrderedBelow (arena : List Node) (heap : List Index) (i : Nat) : Prop :=
  ∀ j, 0 < j → j < heap.length →
    ((j - 1) / 2 ≠ i → slotWeight arena heap ((j - 1) / 2) ≤ slotWeight arena heap j) ∧
    (0 < i → (j - 1) / 2 = i → slotWeight arena heap ((i - 1) / 2) ≤ slotWeight arena heap j)

/-- One selection of R163 picks a slot no heavier than either. -/
theorem lighterSlot_spec {arena : List Node} {heap : List Index} {c s : Nat} (hs : s < heap.length) :
    let k := lighterSlot (lighter arena) heap c s
    (k = s ∨ k = c ∧ c < heap.length ∧ slotWeight arena heap c < slotWeight arena heap s) ∧
    (c < heap.length → slotWeight arena heap k ≤ slotWeight arena heap c) ∧
    slotWeight arena heap k ≤ slotWeight arena heap s := by
  have hy := List.getElem?_eq_getElem hs
  rcases lighterSlot_cases (lighter arena) heap c s with ⟨hk, x, y, hx, hy, hlt⟩ | ⟨hk, hnot⟩
  · rw [lighter_iff, ← slotWeight_of_getElem hx, ← slotWeight_of_getElem hy] at hlt
    rw [hk]
    exact ⟨.inr ⟨rfl, (List.getElem?_eq_some_iff.mp hx).1, hlt⟩, fun _ => Nat.le_refl _, Nat.le_of_lt hlt⟩
  · rw [hk]
    refine ⟨.inl rfl, fun hc => ?_, Nat.le_refl _⟩
    have hx := List.getElem?_eq_getElem hc
    have := hnot _ _ hx hy
    rw [← Bool.not_eq_true, lighter_iff, ← slotWeight_of_getElem hx, ← slotWeight_of_getElem hy] at this
    omega

/-- The slot a node sinks to is a child strictly lighter than it, or its own, and no child is lighter (R163). -/
theorem sinkSlot_spec {arena : List Node} {heap : List Index} {i : Nat} (hi : i < heap.length) :
    let k := sinkSlot (lighter arena) heap i
    (k = i ∨ (k = 2 * i + 1 ∨ k = 2 * i + 2) ∧ k < heap.length ∧ slotWeight arena heap k < slotWeight arena heap i) ∧
    ∀ c, 0 < c → c < heap.length → (c - 1) / 2 = i → slotWeight arena heap k ≤ slotWeight arena heap c := by
  obtain ⟨hleft, hminl, hmins⟩ := lighterSlot_spec (arena := arena) (c := 2 * i + 1) hi
  have hs : lighterSlot (lighter arena) heap (2 * i + 1) i < heap.length := by
    rcases hleft with h | ⟨h, hlen, -⟩
    · rwa [h]
    · rwa [h]
  obtain ⟨hright, hminr, hmink⟩ := lighterSlot_spec (arena := arena) (c := 2 * i + 2) hs
  simp only [sinkSlot]
  generalize lighterSlot (lighter arena) heap (2 * i + 1) i = s at *
  generalize lighterSlot (lighter arena) heap (2 * i + 2) s = k at *
  refine ⟨by grind, fun c hc hlen hp => ?_⟩
  obtain rfl | rfl : c = 2 * i + 1 ∨ c = 2 * i + 2 := by omega
  · exact Nat.le_trans hmink (hminl hlen)
  · exact hminr hlen

/-- A swap with the lightest child moves the exception to the child's slot. -/
theorem OrderedBelow.swap {arena : List Node} {heap : List Index} {i k : Nat} {x y : Index}
    (h : OrderedBelow arena heap i) (hx : heap[i]? = some x) (hy : heap[k]? = some y)
    (hk : k = 2 * i + 1 ∨ k = 2 * i + 2) (hlt : slotWeight arena heap k < slotWeight arena heap i)
    (hmin : ∀ c, 0 < c → c < heap.length → (c - 1) / 2 = i → slotWeight arena heap k ≤ slotWeight arena heap c) :
    OrderedBelow arena (swapSlots heap i k x y) k := by
  have hlen := (List.getElem?_eq_some_iff.mp hy).1
  have hpk : (k - 1) / 2 = i := by omega
  intro j hj hjlen
  rw [swapSlots_length] at hjlen
  simp only [slotWeight_swap hx hy]
  have hself := h k (by omega) hlen
  have hchild := h j hj hjlen
  have hminj := hmin j hj hjlen
  grind

/-- A sift-down repairs the exception. -/
theorem siftDown_ordered {arena : List Node} {fuel : Nat} {heap : List Index} {i : Nat}
    (hfuel : heap.length ≤ fuel + i) (h : OrderedBelow arena heap i) :
    HeapOrdered arena (siftDown (lighter arena) fuel heap i) := by
  induction fuel generalizing heap i with
  | zero =>
    rw [siftDown]
    exact heapOrdered_iff.mpr fun j hj hlen => (h j hj hlen).1 (by omega)
  | succ fuel ih =>
    by_cases hi : i < heap.length
    · obtain ⟨hslot, hmin⟩ := sinkSlot_spec (arena := arena) hi
      simp only [siftDown]
      split
      · next hstay =>
        rw [hstay] at hmin
        refine heapOrdered_iff.mpr fun j hj hlen => ?_
        by_cases hp : (j - 1) / 2 = i
        · rw [hp]
          exact hmin j hj hlen hp
        · exact (h j hj hlen).1 hp
      · next hmove =>
        obtain ⟨hk, hlen, hlt⟩ := hslot.resolve_left hmove
        have hx := List.getElem?_eq_getElem hi
        have hy := List.getElem?_eq_getElem hlen
        simp only [hx, hy]
        exact ih (by rw [swapSlots_length]; omega) (h.swap hx hy hk hlt hmin)
    · rw [siftDown_of_length_le _ (by omega)]
      exact heapOrdered_iff.mpr fun j hj hlen => (h j hj hlen).1 (by omega)

/-- Slot 0 holds a node of least weight. -/
theorem slotWeight_zero_le {arena : List Node} {heap : List Index} (h : HeapOrdered arena heap) (i : Nat)
    (hi : i < heap.length) : slotWeight arena heap 0 ≤ slotWeight arena heap i := by
  induction i using Nat.strong_induction_on with
  | _ i ih =>
    by_cases h0 : i = 0
    · rw [h0]
    · exact Nat.le_trans (ih ((i - 1) / 2) (by omega) (by omega)) (heapOrdered_iff.mp h i (by omega) hi)

/-- With the last entry moved to slot 0 the order holds but below slot 0 (R163). -/
theorem orderedBelow_last_to_top {arena : List Node} {m last : Index} {mid : List Index}
    (h : HeapOrdered arena (m :: (mid ++ [last]))) : OrderedBelow arena (last :: mid) 0 := by
  have hsame : ∀ k, 0 < k → k < (last :: mid).length →
      slotWeight arena (last :: mid) k = slotWeight arena (m :: (mid ++ [last])) k := by
    intro k hk hlen
    obtain ⟨k, rfl⟩ := Nat.exists_eq_succ_of_ne_zero (Nat.ne_of_gt hk)
    rw [List.length_cons, Nat.succ_lt_succ_iff] at hlen
    simp [slotWeight, List.getD, List.getElem?_append_left hlen]
  intro j hj hlen
  refine ⟨fun hp => ?_, fun h0 => absurd h0 (Nat.lt_irrefl 0)⟩
  rw [hsame j hj hlen, hsame _ (by omega) (by omega)]
  refine heapOrdered_iff.mp h j hj ?_
  simp only [List.length_cons, List.length_append, List.length_nil] at hlen ⊢
  omega

/-- PQ.extractMin keeps the heap order (R163). -/
theorem heapExtract_ordered {arena : List Node} {heap rest : List Index} {m : Index} (h : HeapOrdered arena heap)
    (hx : heapExtract (lighter arena) heap = some (m, rest)) : HeapOrdered arena rest := by
  cases heap with
  | nil => simp [heapExtract] at hx
  | cons a tail =>
    simp only [heapExtract] at hx
    split at hx
    · cases hx
      simp [HeapOrdered]
    · next last hl =>
      cases hx
      have htail : tail = tail.dropLast ++ [last] := (List.dropLast_append_getLast? last hl).symm
      have hlen : tail.length = tail.dropLast.length + 1 := by
        conv_lhs => rw [htail, List.length_append, List.length_singleton]
      rw [htail] at h
      exact siftDown_ordered (by rw [List.length_cons]; omega) (orderedBelow_last_to_top h)

/-- PQ.extractMin takes a node of least weight (R160). -/
theorem heapExtract_least {arena : List Node} {heap rest : List Index} {m n : Index} (h : HeapOrdered arena heap)
    (hx : heapExtract (lighter arena) heap = some (m, rest)) (hn : n ∈ heap) : weightOf arena m ≤ weightOf arena n := by
  have hm : heap[0]? = some m := List.head?_eq_getElem?.symm.trans (heapExtract_head hx)
  obtain ⟨i, hi⟩ := List.mem_iff_getElem?.mp hn
  rw [← slotWeight_of_getElem hm, ← slotWeight_of_getElem hi]
  exact slotWeight_zero_le h i (List.getElem?_eq_some_iff.mp hi).1

/-- Settles O24, by the sift-down from slot 0. -/
theorem extractTakesTheLeast : Obligations.ExtractTakesTheLeast := by
  intro arena heap h hne
  match hx : heapExtract (lighter arena) heap with
  | none => exact absurd (heapExtract_eq_none.mp hx) hne
  | some (m, rest) =>
    exact ⟨m, rest, rfl, heapExtract_perm hx, heapExtract_ordered h hx, fun n hn => heapExtract_least h hx hn⟩

end Sys2Proof.Machine
end

section
/-! SUPPORT. The phases and the links: the order of the flags and EMITTED's bound (spec/10_state.md rules R48, R65), the
index order of the arena (R61), and with it the heap order of every stage of the builder (R63). -/

namespace Sys2Proof.Machine

/-! The order of the phases. -/

/-- DecodeBit counts a symbol only while one is missing, so EMITTED does not pass TOTAL (R65, R231). -/
theorem decodeBit_bound (b : Bool) {s : State} (h : s.emitted.toNat ≤ s.total.toNat) :
    (decodeBit b s).1.emitted.toNat ≤ (decodeBit b s).1.total.toNat := by
  simp only [decodeBit]
  split
  · exact h
  · next hne =>
    split
    · have hlt : s.emitted.toNat < s.total.toNat := Nat.lt_of_le_of_ne h fun heq => hne (BitVec.eq_of_toNat_eq heq)
      have hadd : (s.emitted + 1).toNat ≤ s.emitted.toNat + 1 := by
        rw [BitVec.toNat_add]
        exact Nat.mod_le _ _
      calc (narrowWeight s.cfg (s.emitted + 1)).toNat
          ≤ (s.emitted + 1).toNat := by rw [narrowWeight_toNat]; exact Nat.mod_le _ _
        _ ≤ s.total.toNat := Nat.le_trans hadd hlt
    · exact h

theorem decodeBits_bound (bits : List Bool) {s : State} (h : s.emitted.toNat ≤ s.total.toNat) :
    (decodeBits bits s).1.emitted.toNat ≤ (decodeBits bits s).1.total.toNat := by
  induction bits generalizing s with
  | nil => exact h
  | cons b rest ih => exact ih (decodeBit_bound b h)

/-- Before TV no flag but QL and ER is set. -/
theorem State.PhaseOrder.before_build {s : State} (h : s.PhaseOrder) (htv : s.flags.tv = false) :
    s.flags.em = false ∧ s.flags.dg = false ∧ s.flags.cv = false ∧ s.flags.ds = false := by
  obtain ⟨-, hem, hdg, -, hcv, hds, -⟩ := h
  simp_all

/-- FIN ends a build in order: at most one of EM and DG (R183). -/
theorem finishes_flags_eq {s t : State} (h : Finishes s t) :
    t.flags = { s.flags with em := true, tv := true } ∨ t.flags = { s.flags with dg := true, tv := true } ∨
    t.flags = { s.flags with tv := true } := by
  cases h with
  | empty _ => exact .inl rfl
  | synthetic _ ht =>
    obtain ⟨-, rfl⟩ := syntheticRoot_ok ht
    exact .inr (.inl rfl)
  | root _ => exact .inr (.inr rfl)

/-- A build finished in the phase of FIN or BLD is in order. -/
theorem finishes_phaseOrder {s t : State} (hs : s.PhaseOrder) (htv : s.flags.tv = false) (hql : s.flags.ql = true)
    (h : Finishes s t) : t.PhaseOrder := by
  obtain ⟨hem, hdg, hcv, hds⟩ := hs.before_build htv
  unfold State.PhaseOrder
  rcases finishes_flags_eq h with hf | hf | hf
  · simp [hf, hql, hdg, hds]
  · simp [hf, hql, hem, hds]
  · simp [hf, hql, hem, hdg, hds]

theorem loadQueue_phaseOrder {s t : State} (hs : s.PhaseOrder) (htv : s.flags.tv = false) (h : loadQueue s = .ok t) :
    t.PhaseOrder ∧ t.flags.tv = false ∧ t.flags.ql = true := by
  obtain ⟨_, _, _, rfl⟩ := loadQueue_shape h
  have := hs.before_build htv
  simp_all [State.PhaseOrder]

/-- The own part of a command that passes its frame keeps the order of the phases (R272). -/
theorem writes_phaseOrder {i : Instr} {s t : State} (hs : s.PhaseOrder) (hp : passes i s) (h : Writes i s t) :
    t.PhaseOrder := by
  have hopen := phase_open_of_build hp
  obtain ⟨-, -, hphase⟩ := hp
  cases h with
  | nothing | counter _ _ | extract _ | pack _ _ _ => exact hs
  | clear => simp [State.PhaseOrder, Flags.clear]
  | insert _ _ ht =>
    obtain ⟨-, rfl⟩ := pqInsert_ok ht
    exact hs
  | leaves ht => exact (loadQueue_phaseOrder hs (hopen rfl) ht).1
  | merge ht =>
    obtain ⟨_, _, rfl⟩ := mergeTwo_shape ht
    exact hs
  | finish hf =>
    have hql : s.flags.ql = true := by simp_all [phaseOk, State.finishOpen]
    exact finishes_phaseOrder hs (hopen rfl) hql hf
  | build ht hu _ hf =>
    obtain ⟨ht', htv, hql⟩ := loadQueue_phaseOrder hs (hopen rfl) ht
    obtain ⟨_, _, rfl⟩ := mergeAll_shape hu
    refine finishes_phaseOrder ?_ ?_ ?_ hf
    · exact ht'
    · exact htv
    · exact hql
  | table _ | start =>
    have htv : s.flags.tv = true := hphase
    simp_all [State.PhaseOrder]
  | decode bits hi =>
    have hds : s.flags.ds = true := by rcases hi with ⟨b, rfl⟩ | ⟨a, rfl⟩ <;> exact hphase
    obtain ⟨htv, hem, hdg, hemdg, hcv, hdstv, hbound⟩ := hs
    have hbound' := decodeBits_bound bits (hbound hds)
    rw [decodeBits_frame] at hbound' ⊢
    exact ⟨htv, hem, hdg, hemdg, hcv, hdstv, fun _ => hbound'⟩
  | stop => simp_all [State.PhaseOrder]

theorem cleared_phaseOrder (s : State) : s.cleared.PhaseOrder := by simp [State.PhaseOrder, Flags.clear]

/-- Settles O54, by the phase check of each command. -/
theorem phaseOrderKept : Obligations.PhaseOrderKept := fun _ _ hs h =>
  step_establishes (P := State.PhaseOrder) (Q := State.PhaseOrder) (fun _ h => h) (fun _ _ h => h)
    (fun _ _ _ _ h => h) (fun _ _ _ h => h) (fun s _ _ => cleared_phaseOrder s)
    (fun _ _ _ h hp hw => writes_phaseOrder h hp hw) hs h

/-! The links of the arena and of the queue. -/

/-- A child's index is below its parent's: the arena holds no cycle (R61). -/
def ChildrenBelow (arena : List Node) : Prop :=
  ∀ (i : Nat) (e : Node) (l r : Index), arena[i]? = some e → e.kind = .internal l r → l.toNat < i ∧ r.toNat < i

/-- What of `State.Linked` speaks of the arena and the queue alone (R61). -/
structure ArenaLinked (arena : List Node) (heap : List Index) : Prop where
  fits : arena.length ≤ Config.ncap
  heap_exists : ∀ n ∈ heap, n.toNat < arena.length
  children_below : ChildrenBelow arena

theorem State.Linked.arenaLinked {s : State} (h : s.Linked) : ArenaLinked s.node s.heap :=
  ⟨h.arena_fits, h.heap_exists, h.children_below⟩

theorem ArenaLinked.nil : ArenaLinked [] [] := ⟨by simp, by simp, by simp [ChildrenBelow]⟩

/-- A queue of no other nodes is linked as well. -/
theorem ArenaLinked.subset {arena : List Node} {heap heap' : List Index} (h : ArenaLinked arena heap)
    (hsub : ∀ n ∈ heap', n ∈ heap) : ArenaLinked arena heap' :=
  ⟨h.fits, fun n hn => h.heap_exists n (hsub n hn), h.children_below⟩

theorem ArenaLinked.extract {arena : List Node} {heap rest : List Index} {m : Index} {lt : Index → Index → Bool}
    (h : ArenaLinked arena heap) (hx : heapExtract lt heap = some (m, rest)) :
    m.toNat < arena.length ∧ ArenaLinked arena rest :=
  have hp := heapExtract_perm hx
  ⟨h.heap_exists m (hp.mem_iff.mpr (by simp)), h.subset fun _ hn => hp.mem_iff.mpr (List.mem_cons_of_mem m hn)⟩

theorem ArenaLinked.insert {arena : List Node} {heap : List Index} {n : Index} (lt : Index → Index → Bool)
    (h : ArenaLinked arena heap) (hn : n.toNat < arena.length) : ArenaLinked arena (heapInsert lt heap n) := by
  refine ⟨h.fits, fun m hm => ?_, h.children_below⟩
  rcases List.mem_cons.mp ((heapInsert_perm lt heap n).mem_iff.mp hm) with rfl | hm
  · exact hn
  · exact h.heap_exists m hm

theorem ArenaLinked.retag {arena : List Node} {heap : List Index} (h : ArenaLinked arena heap) (n : Index) (o : Owner) :
    ArenaLinked (retag arena n o) heap := by
  refine ⟨by simpa using h.fits, by simpa using h.heap_exists, fun i e l r hi hk => ?_⟩
  rcases retag_cases hi with ⟨-, -, e', he', hkind⟩ | ⟨-, he⟩
  · exact h.children_below i e' l r he' (hkind.trans hk)
  · exact h.children_below i e l r he hk

/-- A new entry keeps the links where its children, if it has any, exist. -/
theorem ArenaLinked.append {arena : List Node} {heap : List Index} {e : Node} (h : ArenaLinked arena heap)
    (hroom : arena.length < Config.ncap)
    (he : ∀ l r, e.kind = .internal l r → l.toNat < arena.length ∧ r.toNat < arena.length) :
    ArenaLinked (arena ++ [e]) heap := by
  refine ⟨by simpa using hroom, fun n hn => ?_, fun i e' l r hi hk => ?_⟩
  · have := h.heap_exists n hn
    rw [List.length_append]
    omega
  · rcases append_cases hi with ⟨rfl, rfl⟩ | hi
    · exact he l r hk
    · exact h.children_below i e' l r hi hk

/-- A queued allocation of an entry with existing children. -/
theorem allocateQueued_linked {k : Kind} {w : Weight} {s t : State} (hs : ArenaLinked s.node s.heap)
    (hk : ∀ l r, k = .internal l r → l.toNat < s.node.length ∧ r.toNat < s.node.length)
    (h : allocateQueued k w s = .ok t) : ArenaLinked t.node t.heap := by
  obtain ⟨hroom, -, rfl⟩ := allocateQueued_ok h
  refine (hs.append hroom hk).insert _ ?_
  rw [State.ncnt_toNat hroom]
  simp

theorem loadQueue_linked {s t : State} (hs : ArenaLinked s.node s.heap) (h : loadQueue s = .ok t) :
    ArenaLinked t.node t.heap :=
  loadQueue_keeps (P := ArenaLinked) (fun _ _ _ _ hu hv => allocateQueued_linked hu (by simp) hv) hs h

theorem mergeTwo_linked (s t : State) (hs : ArenaLinked s.node s.heap) (h : mergeTwo s = .ok (some t)) :
    ArenaLinked t.node t.heap := by
  obtain ⟨a, b, h1, h2, ha, hb, hroom, -, rfl⟩ := mergeTwo_some h
  obtain ⟨ha', hs1⟩ := hs.extract ha
  obtain ⟨hb', hs2⟩ := hs1.extract hb
  refine (((hs2.retag a .p).retag b .p).append (by simpa using hroom) ?_).insert _ ?_
  · rintro l r ⟨⟩
    simpa using And.intro ha' hb'
  · rw [State.ncnt_toNat hroom]
    simp

theorem finishes_linked {s t : State} (hs : ArenaLinked s.node s.heap) (h : Finishes s t) :
    ArenaLinked t.node t.heap := by
  cases h with
  | empty _ => exact hs
  | @synthetic m rest _ hx ht =>
    obtain ⟨hroom, rfl⟩ := syntheticRoot_ok ht
    obtain ⟨hm, hrest⟩ := hs.extract hx
    refine (hrest.retag m .p).append (by simpa using hroom) ?_
    rintro l r ⟨⟩
    simpa using hm
  | @root m rest hx => exact (hs.extract hx).2.retag m .r

/-- The own part of every command keeps the arena acyclic and the queue on existing nodes. -/
theorem writes_arenaLinked {i : Instr} {s t : State} (hs : ArenaLinked s.node s.heap) (h : Writes i s t) :
    ArenaLinked t.node t.heap := by
  cases h with
  | nothing | counter _ _ | table _ | pack _ _ _ | start | stop => exact hs
  | clear => exact .nil
  | @insert n _ _ hn _ ht =>
    obtain ⟨-, rfl⟩ := pqInsert_ok ht
    exact (hs.retag n .q).insert _ (by simpa using hn)
  | @extract _ m rest hx => exact (hs.extract hx).2.retag m .x
  | leaves ht => exact loadQueue_linked hs ht
  | merge ht => exact mergeTwo_linked s t hs ht
  | finish hf => exact finishes_linked hs hf
  | build ht hu _ hf =>
    exact finishes_linked (mergeAll_keeps (P := fun u => ArenaLinked u.node u.heap) mergeTwo_linked
      (loadQueue_linked hs ht) hu) hf
  | decode bits _ =>
    rw [decodeBits_frame]
    exact hs

/-! ROOT and CUR. -/

theorem nodeIn_getElem {arena : List Node} {n : Index} (h : n.toNat < arena.length) :
    arena[n.toNat]? = some (nodeIn arena n) := by
  have he := List.getElem?_eq_getElem h
  rw [nodeIn_of_getElem he, he]

theorem internalAt_of_nodeAt {s : State} {n l r : Index} (hn : n.toNat < s.node.length)
    (h : (s.nodeAt n).kind = .internal l r) : s.InternalAt n :=
  ⟨_, l, r, nodeIn_getElem hn, h⟩

/-- A new entry stands at NCNT (R37). -/
theorem getElem?_ncnt_append {s : State} {arena : List Node} (hroom : s.node.length < Config.ncap)
    (hlen : arena.length = s.node.length) (e : Node) : (arena ++ [e])[s.ncnt.toNat]? = some e := by
  rw [State.ncnt_toNat hroom, ← hlen, List.getElem?_concat_length]

/-- The three ways FIN ends, with the kind of the node it found (R183). -/
theorem finEffect_cases {s : State} {d : Done} (h : finEffect s = .ok d) :
    (s.heap = [] ∧ d.state = { s with root := 0, flags := { s.flags with em := true, tv := true } }) ∨
    (∃ m rest, heapExtract (lighter s.node) s.heap = some (m, rest) ∧
      ((∃ a, (s.nodeAt m).kind = .leaf a ∧ syntheticRoot m { s with heap := rest } = .ok d.state) ∨
       (∃ l r, (s.nodeAt m).kind = .internal l r ∧
          d.state = { s.setOwner m .r with heap := rest, root := m, flags := { s.flags with tv := true } }))) := by
  simp only [finEffect] at h
  split at h
  · next he =>
    cases h
    exact .inl ⟨pqExtract_eq_none.mp he, rfl⟩
  · next m t he =>
    obtain ⟨rest, hx, rfl⟩ := pqExtract_some he
    refine .inr ⟨m, rest, hx, ?_⟩
    split at h
    · next a hk =>
      split at h
      · next u hu =>
        cases h
        exact .inl ⟨a, hk, hu⟩
      · cases h
    · next l r hk =>
      cases h
      exact .inr ⟨l, r, hk, rfl⟩

/-- FIN, where it does not report the empty build, puts ROOT on an Internal node: the synthetic root, or the node left
where that is one (R183). -/
theorem finEffect_root {s : State} {d : Done} (hs : ArenaLinked s.node s.heap) (h : finEffect s = .ok d) :
    d.state.flags.em = true ∨ d.state.InternalAt d.state.root := by
  rcases finEffect_cases h with ⟨-, hd⟩ | ⟨m, rest, hx, ⟨a, -, hu⟩ | ⟨l, r, hk, hd⟩⟩
  · exact .inl (by rw [hd])
  · obtain ⟨hroom, hd⟩ := syntheticRoot_ok hu
    rw [hd]
    exact .inr ⟨_, m, m, getElem?_ncnt_append hroom (by simp) _, rfl⟩
  · obtain ⟨hm, -⟩ := hs.extract hx
    obtain ⟨e, he, hkind, -⟩ := Extends.retag s.node m .r _ _ (nodeIn_getElem hm)
    rw [hd]
    exact .inr ⟨e, l, r, he, hkind.trans hk⟩

/-- ROOT names an Internal node in a finished build that is not empty (R62). -/
def State.RootNamed (s : State) : Prop := s.flags.tv = true → s.flags.em = false → s.InternalAt s.root

/-- CUR names an Internal node while the decoder runs on such a build (R65). -/
def State.CursorNamed (s : State) : Prop := s.flags.ds = true → s.flags.em = false → s.InternalAt s.cur

theorem linked_iff {s : State} : s.Linked ↔ ArenaLinked s.node s.heap ∧ s.RootNamed ∧ s.CursorNamed :=
  ⟨fun h => ⟨h.arenaLinked, h.root_internal, h.cursor_internal⟩,
    fun ⟨⟨hfits, hheap, hchildren⟩, hroot, hcursor⟩ => ⟨hfits, hheap, hchildren, hroot, hcursor⟩⟩

/-- An Internal node stays one. -/
theorem internalAt_of_extends {s t : State} {n : Index} (hs : s.InternalAt n) (h : Extends s.node t.node) :
    t.InternalAt n := by
  obtain ⟨e, l, r, he, hk⟩ := hs
  obtain ⟨e', he', hk', -⟩ := h _ e he
  exact ⟨e', l, r, he', hk'.trans hk⟩

/-- BLD builds on the arena MKL and the merges leave. -/
theorem bldEffect_root {s : State} {d : Done} (hs : ArenaLinked s.node s.heap) (h : bldEffect s = .ok d) :
    d.state.flags.em = true ∨ d.state.InternalAt d.state.root := by
  obtain ⟨t, u, ht, hu, -, hd⟩ := bldEffect_ok h
  have hu' := mergeAll_keeps (P := fun u => ArenaLinked u.node u.heap) mergeTwo_linked (loadQueue_linked hs ht) hu
  exact finEffect_root hu' hd

/-- TV rises by FIN and BLD only. -/
theorem writes_tv {i : Instr} {s t : State} (h : Writes i s t) (hfin : i ≠ .fin) (hbld : i ≠ .bld)
    (ht : t.flags.tv = true) : s.flags.tv = true := by
  cases h with
  | nothing | counter _ _ | extract _ | table _ | pack _ _ _ | start | stop => exact ht
  | clear => cases ht
  | insert _ _ hi =>
    obtain ⟨-, rfl⟩ := pqInsert_ok hi
    exact ht
  | leaves hl =>
    obtain ⟨_, _, _, rfl⟩ := loadQueue_shape hl
    exact ht
  | merge hm =>
    obtain ⟨_, _, rfl⟩ := mergeTwo_shape hm
    exact ht
  | finish _ => exact absurd rfl hfin
  | build _ _ _ _ => exact absurd rfl hbld
  | decode bits _ =>
    rw [decodeBits_frame] at ht
    exact ht

theorem effectOf_rootNamed {i : Instr} {s : State} {d : Done} (hs : s.Linked) (hp : passes i s)
    (h : effectOf i s = .ok d) : d.state.RootNamed := by
  intro htv hem
  have hw := effectOf_writes h
  by_cases hfin : i = .fin
  · subst hfin
    exact (finEffect_root hs.arenaLinked h).resolve_left (by simp [hem])
  by_cases hbld : i = .bld
  · subst hbld
    exact (bldEffect_root hs.arenaLinked h).resolve_left (by simp [hem])
  have hclr : i ≠ .clr := by
    rintro rfl
    cases h
    cases htv
  have htv' := writes_tv hw hfin hbld htv
  have hem' : s.flags.em = false := by
    obtain ⟨-, -, hrise, -⟩ := writes_flagsRise hw hclr
    by_contra hne
    simp [hrise (by simpa using hne)] at hem
  have hb : buildCommand i = false := by
    by_contra hne
    simp [phase_open_of_build hp (by simpa using hne)] at htv'
  obtain ⟨-, -, -, hroot, -⟩ := writes_same_build hw hclr hb
  rw [hroot]
  exact internalAt_of_extends (hs.root_internal htv' hem') (writes_extends hw hclr)

/-- DecodeBit moves CUR along an edge to an Internal node, or back to ROOT (R231). -/
theorem decodeBit_linked (b : Bool) {s : State} (hs : s.Linked) (htv : s.flags.tv = true) (hds : s.flags.ds = true) :
    (decodeBit b s).1.Linked := by
  obtain ⟨harena, hroot, hcur⟩ := linked_iff.mp hs
  simp only [decodeBit]
  split
  · exact hs
  · split
    · exact linked_iff.mpr ⟨harena, hroot, fun _ hem => hroot htv hem⟩
    · next l r hk =>
      refine linked_iff.mpr ⟨harena, hroot, fun _ hem => ?_⟩
      obtain ⟨e, l', r', he, hkind⟩ := hcur hds hem
      have hlen := (List.getElem?_eq_some_iff.mp he).1
      obtain ⟨hl, hr⟩ := harena.children_below _ e l' r' he hkind
      have hchild : ((s.nodeAt s.cur).child b).toNat < s.node.length := by
        rw [State.nodeAt, nodeIn_of_getElem he, Node.child]
        obtain ⟨-, -, hleft, hright⟩ := Node.fields_of_internal hkind
        cases b
        · simp [hleft]; omega
        · simp [hright]; omega
      exact internalAt_of_nodeAt hchild hk

theorem decodeBits_linked (bits : List Bool) {s : State} (hs : s.Linked) (htv : s.flags.tv = true)
    (hds : s.flags.ds = true) : (decodeBits bits s).1.Linked := by
  induction bits generalizing s with
  | nil => exact hs
  | cons b rest ih =>
    have hflags : (decodeBit b s).1.flags = s.flags := by rw [decodeBit_frame]
    have htv' : (decodeBit b s).1.flags.tv = true := by rw [hflags, htv]
    have hds' : (decodeBit b s).1.flags.ds = true := by rw [hflags, hds]
    exact ih (decodeBit_linked b hs htv hds) htv' hds'

/-- The own part of a command that passes its frame leaves CUR on an Internal node. -/
theorem writes_cursorNamed {i : Instr} {s t : State} (ho : s.PhaseOrder) (hs : s.Linked) (hp : passes i s)
    (h : Writes i s t) : t.CursorNamed := by
  have hopen := phase_open_of_build hp
  have hcur := hs.cursor_internal
  have hbefore : s.flags.tv = false → s.flags.ds = false := by
    intro htv
    obtain ⟨-, -, -, hds⟩ := ho.before_build htv
    exact hds
  obtain ⟨-, -, hphase⟩ := hp
  cases h with
  | nothing | counter _ _ | table _ | pack _ _ _ => exact hcur
  | clear => exact fun hds => nomatch hds
  | insert _ _ ht =>
    obtain ⟨-, rfl⟩ := pqInsert_ok ht
    exact fun hds => by simp [hbefore (hopen rfl)] at hds
  | extract _ => exact fun hds => by simp [hbefore (hopen rfl)] at hds
  | leaves ht =>
    obtain ⟨_, _, _, rfl⟩ := loadQueue_shape ht
    exact fun hds => by simp [hbefore (hopen rfl)] at hds
  | merge ht =>
    obtain ⟨_, _, rfl⟩ := mergeTwo_shape ht
    exact fun hds => by simp [hbefore (hopen rfl)] at hds
  | finish hf =>
    obtain ⟨_, _, _, _, _, rfl⟩ := finishes_shape hf
    exact fun hds => by simp [hbefore (hopen rfl)] at hds
  | build ht hu _ hf =>
    obtain ⟨_, _, _, _, _, _, rfl⟩ := build_shape ht hu hf
    exact fun hds => by simp [hbefore (hopen rfl)] at hds
  | start => exact fun _ hem => hs.root_internal hphase hem
  | decode bits hi =>
    have hds : s.flags.ds = true := by rcases hi with ⟨b, rfl⟩ | ⟨a, rfl⟩ <;> exact hphase
    obtain ⟨-, -, -, -, -, hdstv, -⟩ := ho
    exact (decodeBits_linked bits hs (hdstv hds) hds).cursor_internal
  | stop => exact fun hds => nomatch hds

theorem effectOf_linked {i : Instr} {s : State} {d : Done} (ho : s.PhaseOrder) (hs : s.Linked) (hp : passes i s)
    (h : effectOf i s = .ok d) : d.state.Linked :=
  have hw := effectOf_writes h
  linked_iff.mpr ⟨writes_arenaLinked hs.arenaLinked hw, effectOf_rootNamed hs hp h, writes_cursorNamed ho hs hp hw⟩

theorem cleared_linked (s : State) : s.cleared.Linked :=
  linked_iff.mpr ⟨.nil, by simp [State.RootNamed, Flags.clear], by simp [State.CursorNamed, Flags.clear]⟩

/-- `State.Linked` does not speak of the host's moves, of what was sent or of the record of a fault. -/
theorem State.Linked.of_same {s t : State} (h : s.Linked) (hnode : t.node = s.node) (hheap : t.heap = s.heap)
    (hroot : t.root = s.root) (hcur : t.cur = s.cur)
    (hflags : t.flags.tv = s.flags.tv ∧ t.flags.em = s.flags.em ∧ t.flags.ds = s.flags.ds) : t.Linked := by
  obtain ⟨htv, hem, hds⟩ := hflags
  obtain ⟨harena, hrootNamed, hcursor⟩ := linked_iff.mp h
  refine linked_iff.mpr ⟨by rwa [hnode, hheap], ?_, ?_⟩
  · rw [State.RootNamed, htv, hem, hroot, State.InternalAt, hnode]
    exact hrootNamed
  · rw [State.CursorNamed, hds, hem, hcur, State.InternalAt, hnode]
    exact hcursor

/-- Settles O55: the arena and the queue by what each command writes, ROOT by FIN's two ways to name one, CUR by
DecodeBit. -/
theorem linkedKept : Obligations.LinkedKept := fun _ _ ho hs h =>
  step_establishes_of_effect (P := fun s => s.PhaseOrder ∧ s.Linked) (Q := State.Linked) (fun _ h => h.2)
    (fun _ _ h => ⟨h.1, h.2.of_same rfl rfl rfl rfl ⟨rfl, rfl, rfl⟩⟩)
    (fun _ _ _ _ h => h.of_same rfl rfl rfl rfl ⟨rfl, rfl, rfl⟩)
    (fun _ _ _ h => h.of_same rfl rfl rfl rfl ⟨rfl, rfl, rfl⟩)
    (fun s _ _ => (cleared_linked s).of_same rfl rfl rfl rfl ⟨rfl, rfl, rfl⟩)
    (fun _ _ _ h hp hd => effectOf_linked h.1 h.2 hp hd) ⟨ho, hs⟩ h

/-! The heap order in every stage of the builder. -/

/-- The heap order speaks of the weights of the queued nodes only. -/
theorem HeapOrdered.of_same_weights {arena arena' : List Node} {heap : List Index} (h : HeapOrdered arena heap)
    (hsame : ∀ n ∈ heap, (nodeIn arena' n).w = (nodeIn arena n).w) : HeapOrdered arena' heap := by
  intro i x y h0 hx hy
  rw [hsame x (List.mem_of_getElem? hx), hsame y (List.mem_of_getElem? hy)]
  exact h i x y h0 hx hy

theorem HeapOrdered.setOwner {s : State} {heap : List Index} (h : HeapOrdered s.node heap) (m : Index) (o : Owner) :
    HeapOrdered (s.setOwner m o).node heap :=
  h.of_same_weights fun n _ => nodeAt_setOwner_w s n m o

/-- The queue is linked and in heap order. -/
def QueueSound (arena : List Node) (heap : List Index) : Prop := ArenaLinked arena heap ∧ HeapOrdered arena heap

theorem HeapOrdered.append {arena : List Node} {heap : List Index} (h : HeapOrdered arena heap)
    (hex : ∀ n ∈ heap, n.toNat < arena.length) (e : Node) : HeapOrdered (arena ++ [e]) heap := by
  refine h.of_same_weights fun n hn => ?_
  rw [nodeIn, List.getElem?_append_left (hex n hn), ← nodeIn]

theorem loadQueue_queueSound {s t : State} (hs : QueueSound s.node s.heap) (h : loadQueue s = .ok t) :
    QueueSound t.node t.heap := by
  refine loadQueue_keeps (P := QueueSound) (fun a w u v hu hv => ?_) hs h
  obtain ⟨hlinked, hordered⟩ := hu
  refine ⟨allocateQueued_linked hlinked (by simp) hv, ?_⟩
  obtain ⟨-, -, rfl⟩ := allocateQueued_ok hv
  exact heapInsert_ordered _ (hordered.append hlinked.heap_exists _)

theorem mergeTwo_queueSound (s t : State) (hs : QueueSound s.node s.heap) (h : mergeTwo s = .ok (some t)) :
    QueueSound t.node t.heap := by
  obtain ⟨hlinked, hordered⟩ := hs
  refine ⟨mergeTwo_linked s t hlinked h, ?_⟩
  obtain ⟨a, b, h1, h2, ha, hb, -, -, rfl⟩ := mergeTwo_some h
  obtain ⟨-, hl1⟩ := hlinked.extract ha
  obtain ⟨-, hl2⟩ := hl1.extract hb
  have ho2 := heapExtract_ordered (heapExtract_ordered hordered ha) hb
  exact heapInsert_ordered _ (((ho2.setOwner a .p).setOwner b .p).append (by simpa using hl2.heap_exists) _)

theorem finishes_heapOrdered {s t : State} (hs : QueueSound s.node s.heap) (h : Finishes s t) :
    HeapOrdered t.node t.heap := by
  obtain ⟨hlinked, hordered⟩ := hs
  cases h with
  | empty _ => exact hordered
  | @synthetic m rest _ hx ht =>
    obtain ⟨-, rfl⟩ := syntheticRoot_ok ht
    obtain ⟨-, hrest⟩ := hlinked.extract hx
    exact ((heapExtract_ordered hordered hx).setOwner m .p).append (by simpa using hrest.heap_exists) _
  | @root m rest hx => exact (heapExtract_ordered hordered hx).setOwner m .r

/-- The own part of every command keeps the heap order. -/
theorem writes_heapOrdered {i : Instr} {s t : State} (hs : QueueSound s.node s.heap) (h : Writes i s t) :
    HeapOrdered t.node t.heap := by
  obtain ⟨hlinked, hordered⟩ := id hs
  cases h with
  | nothing | counter _ _ | table _ | pack _ _ _ | start | stop => exact hordered
  | clear => simp [HeapOrdered]
  | @insert n _ _ _ _ ht =>
    obtain ⟨-, rfl⟩ := pqInsert_ok ht
    exact heapInsert_ordered n (hordered.setOwner n .q)
  | @extract _ m rest hx => exact (heapExtract_ordered hordered hx).setOwner m .x
  | leaves ht => exact (loadQueue_queueSound hs ht).2
  | merge ht => exact (mergeTwo_queueSound s t hs ht).2
  | finish hf => exact finishes_heapOrdered hs hf
  | build ht hu _ hf =>
    have hu' := mergeAll_keeps (P := fun u => QueueSound u.node u.heap) mergeTwo_queueSound
      (loadQueue_queueSound hs ht) hu
    exact finishes_heapOrdered hu' hf
  | decode bits _ =>
    rw [decodeBits_frame]
    exact hordered

/-- Settles O56, by the two sifts over what each command writes. -/
theorem heapOrderKept : Obligations.HeapOrderKept := fun _ _ hs ho h =>
  step_establishes (P := fun s => QueueSound s.node s.heap) (Q := fun s => HeapOrdered s.node s.heap) (fun _ h => h.2)
    (fun _ _ h => h) (fun _ _ _ _ h => h) (fun _ _ _ h => h) (fun _ _ _ => by simp [HeapOrdered])
    (fun _ _ _ h _ hw => writes_heapOrdered h hw) ⟨hs.arenaLinked, ho⟩ h

end Sys2Proof.Machine
end

section
/-! SUPPORT. The leaves and the packer: the Leaf entries of the arena against the counters (spec/10_state.md rules R54,
R62, spec/42_tree_builder.md rule R181), and ACC below 2^NBITS (R64). -/

namespace Sys2Proof.Machine

/-! What an owner tag does not change. -/

/-- The kinds and the weights of an arena, without the owner tags. -/
def untagged (arena : List Node) : List (Kind × Weight) := arena.map (fun e => (e.kind, e.w))

/-- A write of an owner tag changes no kind and no weight (R55). -/
theorem untagged_retag (arena : List Node) (n : Index) (o : Owner) : untagged (retag arena n o) = untagged arena := by
  refine List.ext_getElem? fun i => ?_
  rw [untagged, untagged, List.getElem?_map, List.getElem?_map, retag, List.getElem?_modify]
  by_cases h : n.toNat = i
  · cases arena[i]? <;> simp [h]
  · cases arena[i]? <;> simp [h]

/-- The Leaf entries, as `State.LeavesAreSymbols` lists them. -/
def leafEntries (arena : List Node) : List (Kind × Weight) :=
  (arena.filter Node.isLeaf).map (fun e => (e.kind, e.w))

theorem leafEntries_eq (arena : List Node) :
    leafEntries arena = (untagged arena).filter (fun p => Node.isLeaf ⟨p.1, p.2, .q⟩) := by
  rw [untagged, List.filter_map]
  rfl

theorem leafEntries_setOwner (s : State) (n : Index) (o : Owner) :
    leafEntries (s.setOwner n o).node = leafEntries s.node := by
  rw [setOwner_node_eq, leafEntries_eq, untagged_retag, ← leafEntries_eq]

theorem leafEntries_append_leaf (arena : List Node) (a : Byte) (w : Weight) (o : Owner) :
    leafEntries (arena ++ [⟨.leaf a, w, o⟩]) = leafEntries arena ++ [(.leaf a, w)] := by
  rw [leafEntries, List.filter_append, List.map_append]
  rfl

theorem leafEntries_append_internal (arena : List Node) (l r : Index) (w : Weight) (o : Owner) :
    leafEntries (arena ++ [⟨.internal l r, w, o⟩]) = leafEntries arena := by
  simp [leafEntries, Node.isLeaf]

/-! The stages of the tree builder. -/

/-- A counter, as a weight, fits (R6, decision D5). -/
theorem narrowWeight_count {cw : CounterWidth} {c : Count} (h : c.toNat < 2 ^ cw.bits) :
    narrowWeight cw (c.setWidth 72) = c.setWidth 72 := by
  refine narrowWeight_of_lt ?_
  rw [BitVec.toNat_setWidth_of_le (by decide)]
  exact Nat.lt_of_lt_of_le h (Nat.pow_le_pow_right (by decide) (Nat.le_add_right cw.bits 8))

/-- The loop of MKL appends one Leaf for each symbol left with a nonzero count (R181). -/
theorem makeLeaves_leafEntries {left : List Byte} {total w : Weight} {s t : State}
    (hfit : ∀ a, (s.freqAt a).toNat < 2 ^ s.cfg.bits) (h : makeLeaves left total s = .ok (w, t)) :
    leafEntries t.node = leafEntries s.node ++
      (left.filter (fun a => decide (s.freqAt a ≠ 0))).map (fun a => (Kind.leaf a, (s.freqAt a).setWidth 72)) := by
  induction left generalizing total s with
  | nil =>
    cases h
    simp
  | cons a rest ih =>
    simp only [makeLeaves] at h
    split at h
    · next h0 => simpa [h0] using ih hfit h
    · next hne =>
      split at h
      · next u hu =>
        obtain ⟨-, -, rfl⟩ := allocateQueued_ok hu
        have hrest := ih (by exact hfit) h
        rw [narrowWeight_count (hfit a), leafEntries_append_leaf, List.append_assoc] at hrest
        rw [List.filter_cons_of_pos (by simpa using hne)]
        exact hrest
      · cases h

theorem loadQueue_leafEntries {s t : State} (hs : s.StorageOk) (hnode : s.node = []) (h : loadQueue s = .ok t) :
    leafEntries t.node = t.present.map (fun a => (Kind.leaf a, (t.freqAt a).setWidth 72)) := by
  simp only [loadQueue] at h
  split at h
  · next total u hu =>
    cases h
    have hleaves := makeLeaves_leafEntries (freqAt_lt hs) hu
    rw [hnode] at hleaves
    rw [makeLeaves_frame hu] at hleaves ⊢
    exact hleaves
  · cases h

theorem mergeTwo_leafEntries {s t : State} (h : mergeTwo s = .ok (some t)) :
    leafEntries t.node = leafEntries s.node := by
  obtain ⟨a, b, _, _, -, -, -, -, rfl⟩ := mergeTwo_some h
  rw [leafEntries_append_internal, leafEntries_setOwner, leafEntries_setOwner]

theorem finishes_leafEntries {s t : State} (h : Finishes s t) : leafEntries t.node = leafEntries s.node := by
  cases h with
  | empty _ => rfl
  | @synthetic m _ _ _ ht =>
    obtain ⟨-, rfl⟩ := syntheticRoot_ok ht
    rw [leafEntries_append_internal, leafEntries_setOwner]
  | @root m _ _ => exact leafEntries_setOwner s m .r

/-- The leaves stay those of the symbols where neither they nor the counters change. -/
theorem State.LeavesAreSymbols.of_same {s t : State} (h : s.LeavesAreSymbols) (hql : t.flags.ql = s.flags.ql)
    (hfreq : t.freq = s.freq) (hleaves : leafEntries t.node = leafEntries s.node) : t.LeavesAreSymbols := by
  intro hq
  have hs := h (hql.symm.trans hq)
  have hread : ∀ a, t.freqAt a = s.freqAt a := fun a => by rw [State.freqAt, State.freqAt, hfreq]
  have hpresent : t.present = s.present := by simp only [State.present, hread]
  rw [hpresent]
  simp only [hread]
  exact hleaves.trans hs

/-- What of the invariants the leaves rest on. -/
abbrev State.LeafPremises (s : State) : Prop :=
  s.StorageOk ∧ (s.flags.ql = false → s.node = []) ∧ s.LeavesAreSymbols

/-- The own part of a command that passes its frame leaves the leaves those of the symbols. -/
theorem writes_leavesAreSymbols {i : Instr} {s t : State} (h : s.LeafPremises) (hp : passes i s) (hw : Writes i s t) :
    t.LeavesAreSymbols := by
  obtain ⟨hstorage, hempty, hleaves⟩ := h
  obtain ⟨-, -, hphase⟩ := hp
  cases hw with
  | nothing | table _ | pack _ _ _ | start | stop => exact hleaves
  | clear => exact fun hql => nomatch hql
  | counter v hi =>
    have hopen : s.tableOpen = true := by rcases hi with rfl | ⟨w, rfl⟩ <;> exact hphase
    have hql : s.flags.ql = false := by simp_all [State.tableOpen]
    exact fun hql' => by simp [hql] at hql'
  | @insert n _ _ _ _ ht =>
    obtain ⟨-, rfl⟩ := pqInsert_ok ht
    exact hleaves.of_same rfl rfl (leafEntries_setOwner s n .q)
  | @extract _ m _ _ => exact hleaves.of_same rfl rfl (leafEntries_setOwner s m .x)
  | leaves ht =>
    have hopen : s.tableOpen = true := hphase
    have hql : s.flags.ql = false := by simp_all [State.tableOpen]
    exact fun _ => loadQueue_leafEntries hstorage (hempty hql) ht
  | merge ht =>
    have hsame := mergeTwo_leafEntries ht
    obtain ⟨_, _, rfl⟩ := mergeTwo_shape ht
    exact hleaves.of_same rfl rfl hsame
  | finish hf =>
    have hsame := finishes_leafEntries hf
    obtain ⟨_, _, _, _, _, rfl⟩ := finishes_shape hf
    exact hleaves.of_same rfl rfl hsame
  | @build _ v _ _ ht hu _ hf =>
    have hopen : s.tableOpen = true := hphase
    have hql : s.flags.ql = false := by simp_all [State.tableOpen]
    have hloaded : v.LeavesAreSymbols := fun _ => loadQueue_leafEntries hstorage (hempty hql) ht
    have hmerged := mergeAll_keeps (P := fun u => leafEntries u.node = leafEntries v.node)
      (fun _ _ hs h => (mergeTwo_leafEntries h).trans hs) rfl hu
    have hsame := (finishes_leafEntries hf).trans hmerged
    obtain ⟨_, _, rfl⟩ := mergeAll_shape hu
    obtain ⟨_, _, _, _, _, rfl⟩ := finishes_shape hf
    exact hloaded.of_same rfl rfl hsame
  | decode bits _ =>
    rw [decodeBits_frame]
    exact hleaves

/-- Settles O59: MKL makes the Leaf entries from the counters, and nothing changes either afterwards. -/
theorem leavesKept : Obligations.LeavesKept := fun _ _ hs hforest hleaves h =>
  step_establishes (P := State.LeafPremises) (Q := State.LeavesAreSymbols) (fun _ h => h.2.2) (fun _ _ h => h)
    (fun _ _ _ _ h => h) (fun _ _ _ h => h) (fun _ _ _ hql => nomatch hql)
    (fun _ _ _ h hp hw => writes_leavesAreSymbols h hp hw) ⟨hs, fun hql => (hforest.not_loaded hql).1, hleaves⟩ h

/-! The packer. -/

/-- The packer's accumulator holds the pending bits and zeros above them (R64). -/
def Packer.Ok (p : Packer) : Prop := p.nbits < 8 ∧ p.acc.toNat < 2 ^ p.nbits

/-- A bit pushed from the right (R216). -/
theorem shift_in_lt {acc : Byte} {n : Nat} (b : Bool) (h : acc.toNat < 2 ^ n) :
    ((acc <<< 1) ||| (BitVec.ofBool b).setWidth 8).toNat < 2 ^ (n + 1) := by
  have hpow : 2 ^ (n + 1) = 2 * 2 ^ n := Nat.pow_succ'
  rw [BitVec.toNat_or]
  refine Nat.or_lt_two_pow ?_ ?_
  · rw [BitVec.toNat_shiftLeft, Nat.shiftLeft_eq]
    exact Nat.lt_of_le_of_lt (Nat.mod_le _ _) (by omega)
  · have hbit : ((BitVec.ofBool b).setWidth 8).toNat ≤ 1 := by cases b <;> decide
    have := Nat.two_pow_pos n
    omega

theorem Packer.push_ok {p : Packer} (h : p.Ok) (b : Bool) : (p.push b).Ok := by
  obtain ⟨hn, hacc⟩ := h
  refine ⟨Packer.push_nbits hn b, ?_⟩
  simp only [Packer.push]
  split
  · exact Nat.one_pos
  · exact shift_in_lt b hacc

theorem Packer.pushAll_ok {p : Packer} (h : p.Ok) (bits : List Bool) : (p.pushAll bits).Ok := by
  induction bits generalizing p with
  | nil => exact h
  | cons b rest ih => exact ih (Packer.push_ok h b)

theorem encEffect_encoderOk {a : Byte} {s : State} {d : Done} (hs : s.EncoderOk) (h : encEffect a s = .ok d) :
    d.state.EncoderOk := by
  simp only [encEffect] at h
  split at h
  · cases h
  · cases h
    obtain ⟨hn, hacc⟩ := Packer.pushAll_ok (p := ⟨s.acc, s.nbits.toNat, []⟩) ⟨s.nbits.isLt, hs⟩ (s.codeAt a).bits
    show _ < 2 ^ (BitVec.ofNat 3 _).toNat
    rwa [BitVec.toNat_ofNat, Nat.mod_eq_of_lt hn]

theorem eflEffect_encoderOk {s : State} {d : Done} (hs : s.EncoderOk) (h : eflEffect s = .ok d) :
    d.state.EncoderOk := by
  simp only [eflEffect] at h
  split at h
  · cases h
    exact hs
  · cases h
    exact Nat.one_pos

/-- ENC and EFL keep ACC below 2^NBITS, CLR sets both to 0, no other command writes either (R59, R64). -/
theorem effectOf_encoderOk {i : Instr} {s : State} {d : Done} (hs : s.EncoderOk) (h : effectOf i s = .ok d) :
    d.state.EncoderOk := by
  have hw := effectOf_writes h
  cases i with
  | enc a => exact encEffect_encoderOk hs h
  | efl => exact eflEffect_encoderOk hs h
  | clr =>
    cases h
    exact Nat.one_pos
  | _ =>
    obtain ⟨-, -, -, -, -, hpacker, -⟩ := writes_writers hw (by simp)
    obtain ⟨hacc, hnbits⟩ := hpacker (by simp) (by simp)
    rwa [State.EncoderOk, hacc, hnbits]

/-- Settles O41, by the rounds of ENC. -/
theorem encoderRegistersKept : Obligations.EncoderRegistersKept := fun _ _ hs h =>
  step_establishes_of_effect (P := State.EncoderOk) (Q := State.EncoderOk) (fun _ h => h) (fun _ _ h => h)
    (fun _ _ _ _ h => h) (fun _ _ _ h => h) (fun _ _ _ => Nat.one_pos)
    (fun _ _ _ h _ hd => effectOf_encoderOk h hd) hs h

end Sys2Proof.Machine
end

section
/-! SUPPORT. The forest under construction (spec/10_state.md rules R60 to R62, R208), as facts about the arena and the
queue alone: what a new Leaf, a merge and a change of owner keep, by counting roots and adding up heights. -/

namespace Sys2Proof.Machine

/-! Counting entries and adding up heights. -/

/-- A count of entries after one entry changes. -/
theorem countP_modify {p : Node → Bool} {arena : List Node} {n : Nat} {e : Node} (f : Node → Node)
    (h : arena[n]? = some e) :
    (arena.modify n f).countP p + (if p e then 1 else 0) = arena.countP p + (if p (f e) then 1 else 0) := by
  induction arena generalizing n with
  | nil => simp at h
  | cons x rest ih =>
    cases n with
    | zero =>
      obtain rfl : x = e := by simpa using h
      simp only [List.modify_zero_cons, List.countP_cons]
      omega
    | succ n =>
      have := ih (n := n) (by simpa using h)
      simp only [List.modify_succ_cons, List.countP_cons] at this ⊢
      omega

theorem countP_retag {p : Node → Bool} {arena : List Node} {n : Index} {e : Node} (o : Owner)
    (h : arena[n.toNat]? = some e) :
    (retag arena n o).countP p + (if p e then 1 else 0) =
      arena.countP p + (if p { e with own := o } then 1 else 0) :=
  countP_modify _ h

theorem isRoot_of_ne {e : Node} (h : e.own ≠ .p) : e.isRoot = true := decide_eq_true h

theorem isRoot_retagged (e : Node) (o : Owner) : Node.isRoot { e with own := o } = decide (o ≠ .p) := rfl

/-- A root that changes hands stays counted. -/
theorem rootCount_retag_root {arena : List Node} {n : Index} {e : Node} {o : Owner} (h : arena[n.toNat]? = some e)
    (he : e.own ≠ .p) (ho : o ≠ .p) : (retag arena n o).countP Node.isRoot = arena.countP Node.isRoot := by
  have := countP_retag (p := Node.isRoot) o h
  simpa [isRoot_of_ne he, isRoot_retagged, ho] using this

/-- A root that gets a parent is counted no more. -/
theorem rootCount_retag_child {arena : List Node} {n : Index} {e : Node} (h : arena[n.toNat]? = some e)
    (he : e.own ≠ .p) : (retag arena n .p).countP Node.isRoot + 1 = arena.countP Node.isRoot := by
  have := countP_retag (p := Node.isRoot) .p h
  simpa [isRoot_of_ne he, isRoot_retagged] using this

theorem rootCount_append_root {arena : List Node} {e : Node} (he : e.own ≠ .p) :
    (arena ++ [e]).countP Node.isRoot = arena.countP Node.isRoot + 1 := by
  simp [isRoot_of_ne he]

/-- The heights of the forest roots, each with one more (R208). -/
def heightSum (h : Nat → Nat) (arena : List Node) : Nat := rootSum (fun i _ => h i + 1) arena

/-- What the entries from index k on add to a sum of heights. -/
def heightSumFrom (h : Nat → Nat) (k : Nat) (arena : List Node) : Nat :=
  ((arena.zipIdx k).map (fun p => if p.1.isRoot then h p.2 + 1 else 0)).sum

theorem heightSum_eq (h : Nat → Nat) (arena : List Node) : heightSum h arena = heightSumFrom h 0 arena := rfl

theorem heightSumFrom_cons (h : Nat → Nat) (k : Nat) (e : Node) (arena : List Node) :
    heightSumFrom h k (e :: arena) = (if e.isRoot then h k + 1 else 0) + heightSumFrom h (k + 1) arena := by
  simp [heightSumFrom]

theorem heightSumFrom_modify {h : Nat → Nat} {k n : Nat} {arena : List Node} {e : Node} (f : Node → Node)
    (he : arena[n]? = some e) :
    heightSumFrom h k (arena.modify n f) + (if e.isRoot then h (k + n) + 1 else 0) =
      heightSumFrom h k arena + (if (f e).isRoot then h (k + n) + 1 else 0) := by
  induction arena generalizing n k with
  | nil => simp at he
  | cons x rest ih =>
    cases n with
    | zero =>
      obtain rfl : x = e := by simpa using he
      simp only [List.modify_zero_cons, heightSumFrom_cons, Nat.add_zero]
      omega
    | succ n =>
      have := ih (n := n) (k := k + 1) (by simpa using he)
      rw [show k + 1 + n = k + (n + 1) by omega] at this
      simp only [List.modify_succ_cons, heightSumFrom_cons] at this ⊢
      omega

theorem heightSum_retag {h : Nat → Nat} {arena : List Node} {n : Index} {e : Node} (o : Owner)
    (he : arena[n.toNat]? = some e) (hr : e.own ≠ .p) :
    heightSum h (retag arena n o) + (h n.toNat + 1) = heightSum h arena + (if o ≠ .p then h n.toNat + 1 else 0) := by
  have := heightSumFrom_modify (h := h) (k := 0) (fun e => { e with own := o }) he
  simpa [isRoot_of_ne hr, isRoot_retagged, retag, heightSum_eq] using this

theorem heightSum_retag_root {h : Nat → Nat} {arena : List Node} {n : Index} {e : Node} {o : Owner}
    (he : arena[n.toNat]? = some e) (hr : e.own ≠ .p) (ho : o ≠ .p) :
    heightSum h (retag arena n o) = heightSum h arena := by
  have := heightSum_retag (h := h) o he hr
  rw [if_pos ho] at this
  exact Nat.add_right_cancel this

theorem heightSum_retag_child {h : Nat → Nat} {arena : List Node} {n : Index} {e : Node}
    (he : arena[n.toNat]? = some e) (hr : e.own ≠ .p) :
    heightSum h (retag arena n .p) + (h n.toNat + 1) = heightSum h arena :=
  heightSum_retag .p he hr

/-- Heights that agree on the arena add up to the same. -/
theorem heightSum_congr {h h' : Nat → Nat} {arena : List Node} (hsame : ∀ i, i < arena.length → h i = h' i) :
    heightSum h arena = heightSum h' arena := by
  have : ∀ p ∈ arena.zipIdx, (if p.1.isRoot then h p.2 + 1 else 0) = if p.1.isRoot then h' p.2 + 1 else 0 := by
    intro p hp
    rw [hsame p.2 (by simpa using List.snd_lt_add_of_mem_zipIdx hp)]
  exact congrArg List.sum (List.map_congr_left this)

theorem heightSum_append (h : Nat → Nat) (arena : List Node) (e : Node) :
    heightSum h (arena ++ [e]) = heightSum h arena + (if e.isRoot then h arena.length + 1 else 0) := by
  simp [heightSum, rootSum, List.zipIdx_append]

/-- Every Internal entry is higher than its two children (R208). -/
def HigherThanChildren (arena : List Node) (h : Nat → Nat) : Prop :=
  ∀ (i : Nat) (e : Node) (l r : Index), arena[i]? = some e → e.kind = .internal l r → h l.toNat < h i ∧ h r.toNat < h i

/-- A new root's height, put beside those of the arena. -/
theorem HigherThanChildren.append {arena : List Node} {h : Nat → Nat} (hh : HigherThanChildren arena h)
    (hbelow : ChildrenBelow arena) {e : Node} (v : Nat) (hv : ∀ l r, e.kind = .internal l r →
      l.toNat < arena.length ∧ r.toNat < arena.length ∧ h l.toNat < v ∧ h r.toNat < v) :
    HigherThanChildren (arena ++ [e]) (Function.update h arena.length v) := by
  intro i e' l r hi hk
  rcases append_cases hi with ⟨rfl, rfl⟩ | hi
  · obtain ⟨hl, hr, hlv, hrv⟩ := hv l r hk
    rw [Function.update_self, Function.update_of_ne (Nat.ne_of_lt hl), Function.update_of_ne (Nat.ne_of_lt hr)]
    exact ⟨hlv, hrv⟩
  · have hlen := (List.getElem?_eq_some_iff.mp hi).1
    obtain ⟨hl, hr⟩ := hbelow i e' l r hi hk
    rw [Function.update_of_ne (by omega), Function.update_of_ne (by omega), Function.update_of_ne (by omega)]
    exact hh i e' l r hi hk

theorem heightSum_append_root (h : Nat → Nat) (arena : List Node) {e : Node} (he : e.own ≠ .p) (v : Nat) :
    heightSum (Function.update h arena.length v) (arena ++ [e]) = heightSum h arena + (v + 1) := by
  rw [heightSum_append, if_pos (isRoot_of_ne he), Function.update_self]
  congr 1
  exact heightSum_congr fun i hi => Function.update_of_ne (by omega) _ _

/-! The leaves. -/

theorem leafSymbols_eq (arena : List Node) :
    leafSymbols arena = (untagged arena).filterMap (fun p => match p.1 with
      | .leaf a => some a.toNat
      | .internal _ _ => none) := by
  rw [untagged, List.filterMap_map]
  rfl

theorem leafSymbols_retag (arena : List Node) (n : Index) (o : Owner) :
    leafSymbols (retag arena n o) = leafSymbols arena := by
  rw [leafSymbols_eq, untagged_retag, ← leafSymbols_eq]

@[simp] theorem leafSymbols_append_leaf (arena : List Node) (a : Byte) (w : Weight) (o : Owner) :
    leafSymbols (arena ++ [⟨.leaf a, w, o⟩]) = leafSymbols arena ++ [a.toNat] := by
  simp [leafSymbols]

@[simp] theorem leafSymbols_append_internal (arena : List Node) (l r : Index) (w : Weight) (o : Owner) :
    leafSymbols (arena ++ [⟨.internal l r, w, o⟩]) = leafSymbols arena := by
  simp [leafSymbols]

/-- The leaves come before the Internal nodes (R62). -/
def LeavesFirst (arena : List Node) : Prop := arena.Pairwise (fun a b => b.isLeaf = true → a.isLeaf = true)

theorem leavesFirst_iff {arena : List Node} :
    LeavesFirst arena ↔ (untagged arena).Pairwise (fun p q =>
      Node.isLeaf ⟨q.1, q.2, .q⟩ = true → Node.isLeaf ⟨p.1, p.2, .q⟩ = true) := by
  rw [untagged, List.pairwise_map]
  rfl

theorem LeavesFirst.retag {arena : List Node} (h : LeavesFirst arena) (n : Index) (o : Owner) :
    LeavesFirst (retag arena n o) := by
  rw [leavesFirst_iff, untagged_retag]
  exact leavesFirst_iff.mp h

theorem LeavesFirst.append {arena : List Node} {e : Node} (h : LeavesFirst arena)
    (he : e.isLeaf = true → ∀ x ∈ arena, x.isLeaf = true) : LeavesFirst (arena ++ [e]) := by
  refine List.pairwise_append.mpr ⟨h, List.pairwise_singleton _ _, fun x hx y hy hleaf => ?_⟩
  rw [List.mem_singleton.mp hy] at hleaf
  exact he hleaf x hx

/-! The forest. -/

/-- Every node with tag P has a parent (R60). -/
def HasParents (arena : List Node) : Prop :=
  ∀ (i : Nat) (e : Node), arena[i]? = some e → e.own = .p →
    ∃ (j : Nat) (e' : Node) (l r : Index), arena[j]? = some e' ∧ e'.kind = .internal l r ∧ (l.toNat = i ∨ r.toNat = i)

/-- A parent stays one. -/
theorem HasParents.of_extends {arena arena' : List Node} (h : HasParents arena) (hx : Extends arena arena') {i : Nat}
    {e : Node} (hi : arena[i]? = some e) (he : e.own = .p) :
    ∃ (j : Nat) (e' : Node) (l r : Index),
      arena'[j]? = some e' ∧ e'.kind = .internal l r ∧ (l.toNat = i ∨ r.toNat = i) := by
  obtain ⟨j, e', l, r, hj, hk, hor⟩ := h i e hi he
  obtain ⟨e'', hj', hk', -⟩ := hx j e' hj
  exact ⟨j, e'', l, r, hj', hk'.trans hk, hor⟩

/-- What of the forest invariant speaks of the arena alone, before the synthetic root (R60, R62, R208). -/
structure Grown (arena : List Node) : Prop where
  has_parent : HasParents arena
  leaves_first : LeavesFirst arena
  symbols_rising : (leafSymbols arena).Pairwise (· < ·)
  roots_left : 2 * (leafSymbols arena).length = arena.length + arena.countP Node.isRoot
  heights : ∃ h, HigherThanChildren arena h ∧ heightSum h arena ≤ (leafSymbols arena).length

theorem Grown.nil : Grown [] where
  has_parent := by simp [HasParents]
  leaves_first := List.Pairwise.nil
  symbols_rising := List.Pairwise.nil
  roots_left := rfl
  heights := ⟨fun _ => 0, by simp [HigherThanChildren], Nat.le_refl 0⟩

/-- A write of an owner tag moves no edge. -/
theorem HigherThanChildren.retag {arena : List Node} {h : Nat → Nat} (hh : HigherThanChildren arena h) (n : Index)
    (o : Owner) : HigherThanChildren (retag arena n o) h := by
  intro i e l r hi hk
  rcases retag_cases hi with ⟨-, -, e', he', hkind⟩ | ⟨-, he⟩
  · exact hh i e' l r he' (hkind.trans hk)
  · exact hh i e l r he hk

/-- A root that changes hands stays a root. -/
theorem Grown.retag_root {arena : List Node} {n : Index} {e : Node} {o : Owner} (h : Grown arena)
    (hn : arena[n.toNat]? = some e) (he : e.own ≠ .p) (ho : o ≠ .p) : Grown (retag arena n o) := by
  refine ⟨fun i x hi hx => ?_, h.leaves_first.retag n o, ?_, ?_, ?_⟩
  · rcases retag_cases hi with ⟨-, hown, -⟩ | ⟨-, hi⟩
    · exact absurd (hown.symm.trans hx) ho
    · exact h.has_parent.of_extends (.retag arena n o) hi hx
  · rw [leafSymbols_retag]
    exact h.symbols_rising
  · rw [leafSymbols_retag, retag_length, rootCount_retag_root hn he ho]
    exact h.roots_left
  · obtain ⟨height, hh, hsum⟩ := h.heights
    exact ⟨height, hh.retag n o, by rwa [leafSymbols_retag, heightSum_retag_root hn he ho]⟩

/-- A new Leaf, above the symbols there are (R181). -/
theorem Grown.append_leaf {arena : List Node} {a : Byte} {o : Owner} (h : Grown arena) (ho : o ≠ .p)
    (hleaf : ∀ e ∈ arena, e.isLeaf = true) (hsym : ∀ x ∈ leafSymbols arena, x < a.toNat) (w : Weight) :
    Grown (arena ++ [⟨.leaf a, w, o⟩]) := by
  refine ⟨fun i x hi hx => ?_, h.leaves_first.append fun _ => hleaf, ?_, ?_, ?_⟩
  · rcases append_cases hi with ⟨-, rfl⟩ | hi
    · exact absurd hx ho
    · exact h.has_parent.of_extends (.append arena _) hi hx
  · rw [leafSymbols_append_leaf]
    refine List.pairwise_append.mpr ⟨h.symbols_rising, List.pairwise_singleton _ _, fun x hx y hy => ?_⟩
    rw [List.mem_singleton.mp hy]
    exact hsym x hx
  · have := h.roots_left
    rw [leafSymbols_append_leaf, List.length_append, List.length_append, rootCount_append_root (by exact ho),
      List.length_singleton, List.length_singleton]
    omega
  · obtain ⟨height, hh, hsum⟩ := h.heights
    have hinternal : ∀ (i : Nat) (e : Node) (l r : Index), arena[i]? = some e → e.kind ≠ .internal l r := by
      intro i e l r hi hk
      have := hleaf e (List.mem_of_getElem? hi)
      simp [Node.isLeaf, hk] at this
    refine ⟨_, hh.append (fun i e l r hi hk => absurd hk (hinternal i e l r hi)) 0 (by simp), ?_⟩
    rw [heightSum_append_root _ _ (by exact ho)]
    simpa using hsum

/-- Two roots that get a parent are no roots any more. -/
theorem Grown.roots_of_two {arena : List Node} {a b : Index} {ea eb : Node} (hab : a ≠ b)
    (ha : arena[a.toNat]? = some ea) (hb : arena[b.toNat]? = some eb) (hra : ea.own ≠ .p) (hrb : eb.own ≠ .p) :
    (retag (retag arena a .p) b .p).countP Node.isRoot + 2 = arena.countP Node.isRoot ∧
    ∀ h, heightSum h (retag (retag arena a .p) b .p) + (h a.toNat + 1) + (h b.toNat + 1) = heightSum h arena := by
  have hne : b.toNat ≠ a.toNat := fun heq => hab (BitVec.eq_of_toNat_eq heq.symm)
  have hb' : (retag arena a .p)[b.toNat]? = some eb := by rwa [retag_other arena .p hne]
  constructor
  · have h1 := rootCount_retag_child ha hra
    have h2 := rootCount_retag_child hb' hrb
    omega
  · intro h
    rw [← heightSum_retag_child ha hra, ← heightSum_retag_child hb' hrb]
    omega

/-- A merge (R182): two roots get a parent, which is a root. -/
theorem Grown.merge {arena : List Node} {heap : List Index} {a b : Index} {ea eb : Node} {o : Owner} (h : Grown arena)
    (hl : ArenaLinked arena heap) (hab : a ≠ b) (ha : arena[a.toNat]? = some ea) (hb : arena[b.toNat]? = some eb)
    (hra : ea.own ≠ .p) (hrb : eb.own ≠ .p) (ho : o ≠ .p) (w : Weight) :
    Grown (retag (retag arena a .p) b .p ++ [⟨.internal a b, w, o⟩]) := by
  obtain ⟨hcount, hheight⟩ := Grown.roots_of_two hab ha hb hra hrb
  have hext := (Extends.retag arena a .p).trans (Extends.retag (retag arena a .p) b .p)
  have hlen : (retag (retag arena a .p) b .p).length = arena.length := by simp
  have hsyms : leafSymbols (retag (retag arena a .p) b .p) = leafSymbols arena := by
    rw [leafSymbols_retag, leafSymbols_retag]
  refine ⟨fun i x hi hx => ?_, ((h.leaves_first.retag a .p).retag b .p).append fun hx => by simp [Node.isLeaf] at hx,
    ?_, ?_, ?_⟩
  · have hnew : (retag (retag arena a .p) b .p ++ [(⟨.internal a b, w, o⟩ : Node)])[arena.length]? =
        some ⟨.internal a b, w, o⟩ := by
      rw [← hlen, List.getElem?_concat_length]
    rcases append_cases hi with ⟨-, rfl⟩ | hi
    · exact absurd hx ho
    rcases retag_cases hi with ⟨rfl, -⟩ | ⟨-, hi⟩
    · exact ⟨_, _, a, b, hnew, rfl, .inr rfl⟩
    rcases retag_cases hi with ⟨rfl, -⟩ | ⟨-, hi⟩
    · exact ⟨_, _, a, b, hnew, rfl, .inl rfl⟩
    · exact h.has_parent.of_extends (hext.trans (.append _ _)) hi hx
  · rw [leafSymbols_append_internal, hsyms]
    exact h.symbols_rising
  · have := h.roots_left
    rw [leafSymbols_append_internal, hsyms, List.length_append, rootCount_append_root (by exact ho), hlen,
      List.length_singleton]
    omega
  · obtain ⟨height, hh, hsum⟩ := h.heights
    have hbelow := ((hl.retag a .p).retag b .p).children_below
    have hla := (List.getElem?_eq_some_iff.mp ha).1
    have hlb := (List.getElem?_eq_some_iff.mp hb).1
    refine ⟨_, ((hh.retag a .p).retag b .p).append hbelow (max (height a.toNat) (height b.toNat) + 1) ?_, ?_⟩
    · rintro l r ⟨⟩
      rw [hlen]
      exact ⟨hla, hlb, by omega, by omega⟩
    · have hsum' := hheight height
      rw [heightSum_append_root _ _ (by exact ho), leafSymbols_append_internal, hsyms]
      omega

/-! The queue. -/

/-- The queue lists the nodes with tag Q once each (R60). -/
def QueueExact (arena : List Node) (heap : List Index) : Prop :=
  heap.Nodup ∧ ∀ n : Index, n ∈ heap ↔ ∃ e, arena[n.toNat]? = some e ∧ e.own = .q

theorem QueueExact.nil : QueueExact [] [] := ⟨List.nodup_nil, by simp⟩

theorem QueueExact.perm {arena : List Node} {heap heap' : List Index} (h : QueueExact arena heap)
    (hp : heap.Perm heap') : QueueExact arena heap' := by
  obtain ⟨hnodup, hmem⟩ := h
  exact ⟨hp.nodup_iff.mp hnodup, fun n => hp.mem_iff.symm.trans (hmem n)⟩

/-- The node taken out of the queue had the tag Q. -/
theorem QueueExact.head {arena : List Node} {rest : List Index} {m : Index} (h : QueueExact arena (m :: rest)) :
    ∃ e, arena[m.toNat]? = some e ∧ e.own = .q := (h.2 m).mp (by simp)

/-- An index names an entry only by its number. -/
theorem toNat_ne {m n : Index} (h : n ≠ m) : n.toNat ≠ m.toNat := fun heq => h (BitVec.eq_of_toNat_eq heq)

/-- A node that leaves the queue gets another tag. -/
theorem QueueExact.drop {arena : List Node} {rest : List Index} {m : Index} {o : Owner}
    (h : QueueExact arena (m :: rest)) (ho : o ≠ .q) : QueueExact (retag arena m o) rest := by
  obtain ⟨hm, hrest⟩ := List.nodup_cons.mp h.1
  obtain ⟨e, he, -⟩ := h.head
  refine ⟨hrest, fun n => ?_⟩
  by_cases hn : n = m
  · subst hn
    simp [hm, retag_same o he, ho]
  · rw [retag_other arena o (toNat_ne hn), ← h.2 n]
    simp [hn]

/-- A node that joins the queue gets the tag Q. -/
theorem QueueExact.join {arena : List Node} {heap : List Index} {n : Index} {e : Node} (h : QueueExact arena heap)
    (hn : arena[n.toNat]? = some e) (he : e.own ≠ .q) : QueueExact (retag arena n .q) (n :: heap) := by
  have hnot : n ∉ heap := by
    rw [h.2 n]
    rintro ⟨e', he', hq⟩
    cases hn.symm.trans he'
    exact he hq
  refine ⟨List.nodup_cons.mpr ⟨hnot, h.1⟩, fun m => ?_⟩
  by_cases hm : m = n
  · subst hm
    simp [retag_same _ hn]
  · rw [retag_other arena .q (toNat_ne hm), ← h.2 m]
    simp [hm]

/-- A new node with the tag Q joins the queue. -/
theorem QueueExact.append {arena : List Node} {heap : List Index} {n : Index} {e : Node} (h : QueueExact arena heap)
    (hn : n.toNat = arena.length) (he : e.own = .q) : QueueExact (arena ++ [e]) (n :: heap) := by
  have hnot : n ∉ heap := by
    rw [h.2 n, hn]
    simp
  refine ⟨List.nodup_cons.mpr ⟨hnot, h.1⟩, fun m => ?_⟩
  by_cases hm : m = n
  · subst hm
    simp [hn, he]
  · have hold : (arena ++ [e])[m.toNat]? = arena[m.toNat]? := by
      rcases Nat.lt_or_ge m.toNat arena.length with hlt | hge
      · exact List.getElem?_append_left hlt
      · have := toNat_ne hm
        rw [List.getElem?_eq_none (by rw [List.length_append, List.length_singleton]; omega), List.getElem?_eq_none hge]
    rw [hold, ← h.2 m]
    simp [hm]

/-- The nodes the host holds (R45). -/
def heldCount (arena : List Node) : Nat := arena.countP (fun e => decide (e.own = .x))

/-- A change of owner, none of the two being the host. -/
theorem heldCount_retag {arena : List Node} {n : Index} {e : Node} {o : Owner} (h : arena[n.toNat]? = some e)
    (he : e.own ≠ .x) (ho : o ≠ .x) : heldCount (retag arena n o) = heldCount arena := by
  have := countP_retag (p := fun e => decide (e.own = .x)) o h
  simpa [heldCount, he, ho] using this

/-- The host takes a node. -/
theorem heldCount_take {arena : List Node} {n : Index} {e : Node} (h : arena[n.toNat]? = some e) (he : e.own ≠ .x) :
    heldCount (retag arena n .x) = heldCount arena + 1 := by
  have := countP_retag (p := fun e => decide (e.own = .x)) .x h
  simpa [heldCount, he] using this

/-- The host gives a node back. -/
theorem heldCount_give {arena : List Node} {n : Index} {e : Node} {o : Owner} (h : arena[n.toNat]? = some e)
    (he : e.own = .x) (ho : o ≠ .x) : heldCount (retag arena n o) + 1 = heldCount arena := by
  have := countP_retag (p := fun e => decide (e.own = .x)) o h
  simpa [heldCount, he, ho] using this

theorem heldCount_append {arena : List Node} {e : Node} (he : e.own ≠ .x) :
    heldCount (arena ++ [e]) = heldCount arena := by
  simp [heldCount, he]

theorem heldCount_le (arena : List Node) : heldCount arena ≤ arena.length := List.countP_le_length

end Sys2Proof.Machine
end

section
/-! SUPPORT. The forest invariant (spec/10_state.md rules R60 to R62): every stage of the tree builder keeps the forest
under construction, FIN ends it in a finished one, and the counts leave room for every allocation (R182). -/

namespace Sys2Proof.Machine

/-- A state whose build is under way: the forest of R60 before FIN. -/
structure State.Growing (s : State) : Prop where
  linked : ArenaLinked s.node s.heap
  grown : Grown s.node
  unnamed : ∀ e ∈ s.node, e.own ≠ .r
  queue : QueueExact s.node s.heap
  held : heldCount s.node = s.xcnt.toNat

/-- Before FIN the forest invariant is that the build is under way, and that nothing is built before MKL. -/
theorem State.Forest.growing {s : State} (h : s.Forest) (hl : s.Linked) (htv : s.flags.tv = false)
    (hdg : s.flags.dg = false) : s.Growing where
  linked := hl.arenaLinked
  grown := ⟨h.has_parent, h.leaves_first, h.symbols_rising, h.roots_left hdg, h.heights hdg⟩
  unnamed e he hown := by
    obtain ⟨i, hi⟩ := List.mem_iff_getElem?.mp he
    have := (h.root_tag i e hi).mp hown
    simp [htv] at this
  queue := ⟨h.heap_nodup, h.heap_queued⟩
  held := h.held_by_host

theorem State.Growing.forest {s : State} (h : s.Growing) (htv : s.flags.tv = false) (hdg : s.flags.dg = false)
    (hql : s.flags.ql = true ∨ s.node = [] ∧ s.heap = []) : s.Forest where
  heap_nodup := h.queue.1
  heap_queued := h.queue.2
  held_by_host := h.held
  has_parent := h.grown.has_parent
  leaves_first := h.grown.leaves_first
  symbols_rising := h.grown.symbols_rising
  not_loaded hno := hql.resolve_left (by simp [hno])
  roots_left _ := h.grown.roots_left
  degenerate hd := by simp [hdg] at hd
  finished ht := by simp [htv] at ht
  root_tag i e hi := ⟨fun hown => absurd hown (h.unnamed e (List.mem_of_getElem? hi)), fun ht => by simp [htv] at ht⟩
  empty_build ht := by simp [htv] at ht
  heights _ := h.grown.heights

/-! Room in the arena. -/

theorem leafSymbols_lt {arena : List Node} {x : Nat} (h : x ∈ leafSymbols arena) : x < 256 := by
  obtain ⟨e, -, he⟩ := List.mem_filterMap.mp h
  split at he
  · next a _ =>
    cases he
    exact a.isLt
  · cases he

/-- There are at most 256 leaves, one for a symbol (R60). -/
theorem Grown.leaves_le {arena : List Node} (h : Grown arena) : (leafSymbols arena).length ≤ 256 := by
  have hnodup : (leafSymbols arena).Nodup := h.symbols_rising.imp Nat.ne_of_lt
  have hsub : leafSymbols arena ⊆ List.range 256 := fun x hx => List.mem_range.mpr (leafSymbols_lt hx)
  simpa using (List.subperm_of_subset hnodup hsub).length_le

theorem allocate_ne_model {k : Kind} {w : Weight} {o : Owner} {s : State} (h : s.node.length < Config.ncap)
    (f : Fault) : allocate k w o s ≠ .error (.model f) := by
  simp [allocate, h]

theorem allocateQueued_ne_model {k : Kind} {w : Weight} {s : State} (h : s.node.length < Config.ncap) (f : Fault) :
    allocateQueued k w s ≠ .error (.model f) := by
  simp only [allocateQueued]
  split
  · exact pqInsert_ne_model _ _ f
  · next e he =>
    intro hf
    cases hf
    exact allocate_ne_model h f he

/-! The owner of a node. -/

theorem unnamed_retag {arena : List Node} (h : ∀ e ∈ arena, e.own ≠ .r) (n : Index) {o : Owner} (ho : o ≠ .r) :
    ∀ e ∈ retag arena n o, e.own ≠ .r := by
  intro e he
  obtain ⟨i, hi⟩ := List.mem_iff_getElem?.mp he
  rcases retag_cases hi with ⟨-, hown, -⟩ | ⟨-, hold⟩
  · rwa [hown]
  · exact h e (List.mem_of_getElem? hold)

theorem unnamed_append {arena : List Node} (h : ∀ e ∈ arena, e.own ≠ .r) {new : Node} (ho : new.own ≠ .r) :
    ∀ e ∈ arena ++ [new], e.own ≠ .r := by
  intro e he
  rcases List.mem_append.mp he with he | he
  · exact h e he
  · rwa [List.mem_singleton.mp he]

/-- PQI: a node of the host goes back to the queue (R166). -/
theorem State.Growing.insert {s t : State} {n : Index} (h : s.Growing) (hn : n.toNat < s.node.length)
    (hx : (s.nodeAt n).own = .x) (ht : pqInsert n { s.setOwner n .q with xcnt := s.xcnt - 1 } = .ok t) : t.Growing := by
  obtain ⟨-, rfl⟩ := pqInsert_ok ht
  have he : s.node[n.toNat]? = some (s.nodeAt n) := nodeIn_getElem hn
  have hheld := heldCount_give (o := .q) he hx (by simp)
  refine ⟨(h.linked.retag n .q).insert _ (by simpa using hn), h.grown.retag_root he (by simp [hx]) (by simp),
    unnamed_retag h.unnamed n (by simp), (h.queue.join he (by simp [hx])).perm (heapInsert_perm _ _ _).symm, ?_⟩
  rw [h.held] at hheld
  have hsub : (s.xcnt - 1).toNat = s.xcnt.toNat - 1 :=
    BitVec.toNat_sub_of_le (BitVec.le_def.mpr (show 1 ≤ s.xcnt.toNat by omega))
  exact (Nat.eq_sub_of_add_eq hheld).trans hsub.symm

/-- PQX: the host takes a node out of the queue (R167). -/
theorem State.Growing.extract {s : State} {m : Index} {rest : List Index} (h : s.Growing)
    (hx : heapExtract (lighter s.node) s.heap = some (m, rest)) :
    State.Growing { s.setOwner m .x with heap := rest, xcnt := s.xcnt + 1 } := by
  have hq := h.queue.perm (heapExtract_perm hx)
  obtain ⟨e, he, hown⟩ := hq.head
  obtain ⟨-, hrest⟩ := h.linked.extract hx
  refine ⟨hrest.retag m .x, h.grown.retag_root he (by simp [hown]) (by simp), unnamed_retag h.unnamed m (by simp),
    hq.drop (by simp), ?_⟩
  have hheld := heldCount_take he (by simp [hown])
  have hle := heldCount_le (retag s.node m .x)
  have hfits := h.linked.fits
  have hcap : Config.ncap = 511 := rfl
  rw [retag_length, hheld, h.held] at hle
  have hadd : (s.xcnt + 1).toNat = s.xcnt.toNat + 1 :=
    BitVec.toNat_add_of_lt (show s.xcnt.toNat + 1 < 2 ^ 9 by omega)
  exact hheld.trans ((congrArg (· + 1) h.held).trans hadd.symm)

/-- What a merge takes out of the queue: two roots, both of the queue. -/
theorem State.Growing.two_roots {s : State} {a b : Index} {h1 h2 : List Index} (h : s.Growing)
    (ha : heapExtract (lighter s.node) s.heap = some (a, h1)) (hb : heapExtract (lighter s.node) h1 = some (b, h2)) :
    a ≠ b ∧ QueueExact s.node (a :: b :: h2) ∧ (∃ e, s.node[a.toNat]? = some e ∧ e.own = .q) ∧
    ∃ e, s.node[b.toNat]? = some e ∧ e.own = .q := by
  have hq := h.queue.perm ((heapExtract_perm ha).trans ((heapExtract_perm hb).cons a))
  refine ⟨?_, hq, (hq.2 a).mp (by simp), (hq.2 b).mp (by simp)⟩
  rintro rfl
  simpa using hq.1

/-- MRG: two nodes of the queue get a parent, which joins it (R182). -/
theorem mergeTwo_growing (s t : State) (h : s.Growing) (ht : mergeTwo s = .ok (some t)) : t.Growing := by
  have hlinked := mergeTwo_linked s t h.linked ht
  obtain ⟨a, b, h1, h2, ha, hb, hroom, -, rfl⟩ := mergeTwo_some ht
  obtain ⟨hab, hq, ⟨ea, hea, hoa⟩, ⟨eb, heb, hob⟩⟩ := h.two_roots ha hb
  have hb' : (retag s.node a .p)[b.toNat]? = some eb := by rwa [retag_other _ _ (toNat_ne hab.symm)]
  have hlen : s.ncnt.toNat = (retag (retag s.node a .p) b .p).length := by
    rw [State.ncnt_toNat hroom, retag_length, retag_length]
  have hq' := ((hq.drop (o := .p) (by simp)).drop (o := .p) (by simp)).append
    (e := ⟨.internal a b, narrowWeight s.cfg ((s.nodeAt a).w + (s.nodeAt b).w), .q⟩) hlen rfl
  refine ⟨hlinked, h.grown.merge h.linked hab hea heb (by simp [hoa]) (by simp [hob]) (by simp) _,
    unnamed_append (unnamed_retag (unnamed_retag h.unnamed a (by simp)) b (by simp)) (by simp),
    hq'.perm (heapInsert_perm _ _ _).symm, ?_⟩
  refine (heldCount_append (by simp)).trans ?_
  exact (heldCount_retag hb' (by simp [hob]) (by simp)).trans
    ((heldCount_retag hea (by simp [hoa]) (by simp)).trans h.held)

/-- "The arena cannot be full" where two nodes are in the queue (R182). -/
theorem mergeTwo_ne_model {s : State} (h : s.Growing) (f : Fault) : mergeTwo s ≠ .error (.model f) := by
  simp only [mergeTwo]
  split
  · simp
  · next a s1 h1 =>
    obtain ⟨r1, ha, rfl⟩ := pqExtract_some h1
    split
    · simp
    · next b s2 h2 =>
      obtain ⟨r2, hb, rfl⟩ := pqExtract_some h2
      obtain ⟨hab, -, ⟨ea, hea, hoa⟩, ⟨eb, heb, hob⟩⟩ := h.two_roots ha hb
      obtain ⟨hcount, -⟩ := Grown.roots_of_two hab hea heb (by simp [hoa]) (by simp [hob])
      have hroots := h.grown.roots_left
      have hleaves := h.grown.leaves_le
      have hroom : s.node.length < Config.ncap := by
        rw [Config.ncap]
        omega
      split
      · simp
      · next e he =>
        intro hf
        cases hf
        exact allocateQueued_ne_model (by simpa using hroom) f he

theorem mergeAll_ne_model {fuel : Nat} {s : State} (h : s.Growing) (f : Fault) :
    mergeAll fuel s ≠ .error (.model f) := by
  induction fuel generalizing s with
  | zero => simp [mergeAll]
  | succ fuel ih =>
    simp only [mergeAll]
    split
    · next t ht => exact ih (mergeTwo_growing s t h ht)
    · simp
    · next e he =>
      intro hf
      cases hf
      exact mergeTwo_ne_model h f he

/-! MKL. -/

/-- The symbols rise (R181). -/
theorem symbols_rising : symbols.Pairwise (fun a b => a.toNat < b.toNat) := by
  rw [symbols, List.pairwise_map]
  refine List.pairwise_lt_range.imp_of_mem fun ha hb hlt => ?_
  rw [List.mem_range] at ha hb
  rwa [BitVec.toNat_ofNat, BitVec.toNat_ofNat, Nat.mod_eq_of_lt ha, Nat.mod_eq_of_lt hb]

/-- A new Leaf, above the symbols there are, joins the queue (R181). -/
theorem allocateQueued_leaf_growing {a : Byte} {w : Weight} {s t : State} (h : s.Growing)
    (hleaf : ∀ e ∈ s.node, e.isLeaf = true) (hsym : ∀ x ∈ leafSymbols s.node, x < a.toNat)
    (ht : allocateQueued (.leaf a) w s = .ok t) : t.Growing := by
  have hlinked := allocateQueued_linked h.linked (by simp) ht
  obtain ⟨hroom, -, rfl⟩ := allocateQueued_ok ht
  have hq := h.queue.append (e := ⟨.leaf a, narrowWeight s.cfg w, .q⟩) (State.ncnt_toNat hroom) rfl
  exact ⟨hlinked, h.grown.append_leaf (by simp) hleaf hsym _, unnamed_append h.unnamed (by simp),
    hq.perm (heapInsert_perm _ _ _).symm, (heldCount_append (by simp)).trans h.held⟩

/-- The loop of MKL over symbols that rise, all above those of the leaves there are (R181). -/
theorem makeLeaves_growing {left : List Byte} {total w : Weight} {s t : State} (h : s.Growing)
    (hleft : left.Pairwise (fun a b => a.toNat < b.toNat)) (hleaf : ∀ e ∈ s.node, e.isLeaf = true)
    (hsym : ∀ x ∈ leafSymbols s.node, ∀ a ∈ left, x < a.toNat) (ht : makeLeaves left total s = .ok (w, t)) :
    t.Growing := by
  induction left generalizing total s with
  | nil =>
    cases ht
    exact h
  | cons a rest ih =>
    obtain ⟨ha, hrest⟩ := List.pairwise_cons.mp hleft
    simp only [makeLeaves] at ht
    split at ht
    · exact ih h hrest hleaf (fun x hx b hb => hsym x hx b (List.mem_cons_of_mem a hb)) ht
    · split at ht
      · next u hu =>
        have hu' := allocateQueued_leaf_growing h hleaf (fun x hx => hsym x hx a (by simp)) hu
        obtain ⟨-, -, rfl⟩ := allocateQueued_ok hu
        refine ih hu' hrest ?_ ?_ ht
        · intro e he
          rcases List.mem_append.mp he with he | he
          · exact hleaf e he
          · rw [List.mem_singleton.mp he]
            rfl
        · intro x hx b hb
          rw [leafSymbols_append_leaf] at hx
          rcases List.mem_append.mp hx with hx | hx
          · exact hsym x hx b (List.mem_cons_of_mem a hb)
          · rw [List.mem_singleton.mp hx]
            exact ha b hb
      · cases ht

theorem makeLeaves_ne_model {left : List Byte} {total : Weight} {s : State}
    (hroom : s.node.length + left.length ≤ Config.ncap) (f : Fault) :
    makeLeaves left total s ≠ .error (.model f) := by
  induction left generalizing total s with
  | nil => simp [makeLeaves]
  | cons a rest ih =>
    rw [List.length_cons] at hroom
    simp only [makeLeaves]
    split
    · exact ih (by omega)
    · split
      · next u hu =>
        obtain ⟨-, -, rfl⟩ := allocateQueued_ok hu
        exact ih (by simp; omega)
      · next e he =>
        intro hf
        cases hf
        exact allocateQueued_ne_model (by omega) f he

/-- Before MKL nothing is built and the host holds nothing (R60). -/
theorem State.Forest.growing_of_not_loaded {s : State} (h : s.Forest) (hql : s.flags.ql = false) : s.Growing := by
  obtain ⟨hnode, hheap⟩ := h.not_loaded hql
  have hheld := h.held_by_host
  refine ⟨?_, ?_, ?_, ?_, hheld⟩
  · rw [hnode, hheap]
    exact .nil
  · rw [hnode]
    exact .nil
  · simp [hnode]
  · rw [hnode, hheap]
    exact .nil

theorem loadQueue_growing {s t : State} (h : s.Forest) (hql : s.flags.ql = false) (ht : loadQueue s = .ok t) :
    t.Growing := by
  obtain ⟨hnode, -⟩ := h.not_loaded hql
  simp only [loadQueue] at ht
  split at ht
  · next total u hu =>
    cases ht
    obtain ⟨hlinked, hgrown, hunnamed, hqueue, hheld⟩ := makeLeaves_growing (h.growing_of_not_loaded hql)
      symbols_rising (by simp [hnode]) (by simp [hnode, leafSymbols]) hu
    exact ⟨hlinked, hgrown, hunnamed, hqueue, hheld⟩
  · cases ht

theorem loadQueue_ne_model {s : State} (hnode : s.node = []) (f : Fault) : loadQueue s ≠ .error (.model f) := by
  simp only [loadQueue]
  split
  · simp
  · next e he =>
    intro hf
    cases hf
    exact makeLeaves_ne_model (by rw [hnode, symbols_length]; decide) f he

/-! FIN. -/

/-- The last entry has no parent: a parent stands above its children (R61). -/
theorem Grown.last_is_root {arena : List Node} {heap : List Index} {e : Node} (h : Grown arena)
    (hl : ArenaLinked arena heap) (he : arena[arena.length - 1]? = some e) : e.own ≠ .p := by
  intro hp
  obtain ⟨j, e', l, r, hj, hk, hor⟩ := h.has_parent _ e he hp
  have hlen := (List.getElem?_eq_some_iff.mp hj).1
  obtain ⟨hlj, hrj⟩ := hl.children_below j e' l r hj hk
  omega

/-- FIN's phase: the roots are the nodes of the queue. -/
theorem State.Growing.root_queued {s : State} (h : s.Growing) (hx : s.xcnt = 0) {i : Nat} {e : Node}
    (hi : s.node[i]? = some e) (he : e.own ≠ .p) : e.own = .q ∧ BitVec.ofNat 9 i ∈ s.heap := by
  have hlen := (List.getElem?_eq_some_iff.mp hi).1
  have hfits := h.linked.fits
  have hcap : Config.ncap = 511 := rfl
  have hmem := List.mem_of_getElem? hi
  have hnx : e.own ≠ .x := by
    have h0 : heldCount s.node = 0 := by rw [h.held, hx]; rfl
    simpa using List.countP_eq_zero.mp h0 e hmem
  have hq : e.own = .q := by
    cases ho : e.own with
    | q => rfl
    | x => exact absurd ho hnx
    | p => exact absurd ho he
    | r => exact absurd ho (h.unnamed e hmem)
  refine ⟨hq, (h.queue.2 _).mpr ⟨e, ?_, hq⟩⟩
  rwa [BitVec.toNat_ofNat, Nat.mod_eq_of_lt (by omega)]

/-- With no node in the queue and none held there is no node at all. -/
theorem State.Growing.empty {s : State} (h : s.Growing) (hx : s.xcnt = 0) (hheap : s.heap = []) : s.node = [] := by
  by_contra hne
  have hlast : s.node.length - 1 < s.node.length := Nat.sub_one_lt (by simpa using hne)
  have he := List.getElem?_eq_getElem hlast
  obtain ⟨-, hmem⟩ := h.root_queued hx he (h.grown.last_is_root h.linked he)
  simp [hheap] at hmem

/-- With one node in the queue and none held, that is the last entry, and it is the only root. -/
theorem State.Growing.sole_root {s : State} {m : Index} (h : s.Growing) (hx : s.xcnt = 0) (hheap : s.heap = [m]) :
    m.toNat + 1 = s.node.length ∧ ∀ (i : Nat) (e : Node), s.node[i]? = some e → e.own ≠ .p → i = m.toNat := by
  have hfits := h.linked.fits
  have hcap : Config.ncap = 511 := rfl
  have hm := h.linked.heap_exists m (by simp [hheap])
  have hroot : ∀ (i : Nat) (e : Node), s.node[i]? = some e → e.own ≠ .p → i = m.toNat := by
    intro i e hi he
    have hlen := (List.getElem?_eq_some_iff.mp hi).1
    obtain ⟨-, hmem⟩ := h.root_queued hx hi he
    rw [hheap, List.mem_singleton] at hmem
    rw [← hmem, BitVec.toNat_ofNat, Nat.mod_eq_of_lt (by omega)]
  have hlast := List.getElem?_eq_getElem (show s.node.length - 1 < s.node.length by omega)
  have := hroot _ _ hlast (h.grown.last_is_root h.linked hlast)
  exact ⟨by omega, hroot⟩

/-- Where the one node left is a Leaf it is the only entry: no other entry could have a parent (R188). -/
theorem State.Growing.sole_leaf {s : State} {m : Index} {a : Byte} (h : s.Growing) (hx : s.xcnt = 0)
    (hheap : s.heap = [m]) (hk : (s.nodeAt m).kind = .leaf a) :
    m.toNat = 0 ∧ ∃ w, s.node = [⟨.leaf a, w, .q⟩] := by
  obtain ⟨hlen, hroot⟩ := h.sole_root hx hheap
  have hm := nodeIn_getElem (show m.toNat < s.node.length by omega)
  have hallLeaf : ∀ (i : Nat) (e : Node), s.node[i]? = some e → e.isLeaf = true := by
    intro i e hi
    have hmLeaf : (s.nodeAt m).isLeaf = true := by simp [Node.isLeaf, hk]
    obtain ⟨hlt, rfl⟩ := List.getElem?_eq_some_iff.mp hi
    obtain ⟨hmlt, hmeq⟩ := List.getElem?_eq_some_iff.mp hm
    rcases Nat.lt_or_ge i m.toNat with hlow | hhigh
    · exact List.pairwise_iff_getElem.mp h.grown.leaves_first i m.toNat hlt hmlt hlow (by rw [hmeq]; exact hmLeaf)
    · obtain rfl : i = m.toNat := by omega
      rw [hmeq]
      exact hmLeaf
  have hallRoot : ∀ (i : Nat) (e : Node), s.node[i]? = some e → e.own ≠ .p := by
    intro i e hi hp
    obtain ⟨j, e', l, r, hj, hinternal, -⟩ := h.grown.has_parent i e hi hp
    have := hallLeaf j e' hj
    simp [Node.isLeaf, hinternal] at this
  have hfirst := List.getElem?_eq_getElem (show 0 < s.node.length by omega)
  have hm0 : m.toNat = 0 := (hroot 0 _ hfirst (hallRoot 0 _ hfirst)).symm
  obtain ⟨e, he⟩ := List.length_eq_one_iff.mp (show s.node.length = 1 by omega)
  obtain ⟨hown, -⟩ := h.root_queued hx hm (hallRoot _ _ hm)
  rw [State.nodeAt, nodeIn, he, hm0] at hk
  rw [nodeIn, he, hm0] at hown
  obtain ⟨kind, w, own⟩ := e
  obtain rfl : kind = .leaf a := hk
  obtain rfl : own = .q := hown
  exact ⟨hm0, w, he⟩

/-- A queue of at most one node holds, after an extraction, none. -/
theorem heapExtract_last {lt : Index → Index → Bool} {heap rest : List Index} {m : Index} (hlen : heap.length ≤ 1)
    (h : heapExtract lt heap = some (m, rest)) : heap = [m] ∧ rest = [] := by
  have hone := heapExtract_length h
  obtain rfl : rest = [] := List.length_eq_zero_iff.mp (by omega)
  exact ⟨List.perm_singleton.mp (heapExtract_perm h), rfl⟩

/-- The degenerate build (R188): the one Leaf below the synthetic root. -/
theorem forest_synthetic {t : State} {a : Byte} {m : Index} {w w' : Weight}
    (hnode : t.node = [⟨.leaf a, w, .p⟩, ⟨.internal m m, w', .r⟩]) (hm : m.toNat = 0) (hheap : t.heap = [])
    (hroot : t.root.toNat = 1) (hx : t.xcnt = 0)
    (hflags : t.flags.ql = true ∧ t.flags.tv = true ∧ t.flags.em = false ∧ t.flags.dg = true) : t.Forest := by
  obtain ⟨hql, htv, hem, hdg⟩ := hflags
  have entry : ∀ (i : Nat) (e : Node), t.node[i]? = some e →
      (i = 0 ∧ e = ⟨.leaf a, w, .p⟩) ∨ (i = 1 ∧ e = ⟨.internal m m, w', .r⟩) := by
    intro i e hi
    rw [hnode] at hi
    rcases i with _ | _ | i <;> simp_all
  exact
    { heap_nodup := by simp [hheap]
      heap_queued := fun n => by
        rw [hheap]
        refine ⟨by simp, fun ⟨e, he, hq⟩ => ?_⟩
        rcases entry _ e he with ⟨-, rfl⟩ | ⟨-, rfl⟩ <;> cases hq
      held_by_host := by simp [hnode, hx]
      has_parent := fun i e hi hp => by
        rcases entry i e hi with ⟨rfl, rfl⟩ | ⟨-, rfl⟩
        · exact ⟨1, _, m, m, by rw [hnode]; rfl, rfl, .inl hm⟩
        · cases hp
      leaves_first := by simp [hnode, Node.isLeaf]
      symbols_rising := by simp [hnode, leafSymbols]
      not_loaded := by simp [hql]
      roots_left := by simp [hdg]
      degenerate := by simp [hnode]
      finished := fun _ => ⟨hheap, hx⟩
      root_tag := fun i e hi => by
        rw [hroot]
        rcases entry i e hi with ⟨rfl, rfl⟩ | ⟨rfl, rfl⟩ <;> simp [htv, hem]
      empty_build := by simp [hem]
      heights := by simp [hdg] }

/-- The empty build (R187): no symbol, no entry, no root. -/
theorem forest_empty {t : State} (hnode : t.node = []) (hheap : t.heap = []) (hx : t.xcnt = 0)
    (hflags : t.flags.ql = true ∧ t.flags.em = true ∧ t.flags.dg = false) : t.Forest := by
  obtain ⟨hql, hem, hdg⟩ := hflags
  exact
    { heap_nodup := by simp [hheap]
      heap_queued := by simp [hheap, hnode]
      held_by_host := by simp [hnode, hx]
      has_parent := by simp [hnode]
      leaves_first := by simp [hnode]
      symbols_rising := by simp [hnode, leafSymbols]
      not_loaded := by simp [hql]
      roots_left := by simp [hnode, leafSymbols]
      degenerate := by simp [hdg]
      finished := fun _ => ⟨hheap, hx⟩
      root_tag := by simp [hnode]
      empty_build := fun _ _ => hnode
      heights := fun _ => by
        rw [hnode]
        exact Grown.nil.heights }

/-- A finished tree of two leaves or more: the one node left is named as its root (R183). -/
theorem forest_root {s t : State} {m : Index} (h : s.Growing) (hx : s.xcnt = 0) (hheap : s.heap = [m])
    (hnode : t.node = retag s.node m .r) (htheap : t.heap = []) (hroot : t.root = m) (htx : t.xcnt = 0)
    (hflags : t.flags.ql = true ∧ t.flags.tv = true ∧ t.flags.em = false ∧ t.flags.dg = false) : t.Forest := by
  obtain ⟨hql, htv, hem, hdg⟩ := hflags
  have hq : QueueExact s.node [m] := hheap ▸ h.queue
  obtain ⟨e, he, hown⟩ := hq.head
  obtain ⟨hnodup, hmem⟩ := hq.drop (o := .r) (by simp)
  have hgrown := h.grown.retag_root (o := .r) he (by simp [hown]) (by simp)
  have hheld := heldCount_retag (o := .r) he (by simp [hown]) (by simp)
  rw [← hnode] at hmem hgrown hheld
  exact
    { heap_nodup := by rw [htheap]; exact hnodup
      heap_queued := by rw [htheap]; exact hmem
      held_by_host := by rw [htx, ← hx]; exact hheld.trans h.held
      has_parent := hgrown.has_parent
      leaves_first := hgrown.leaves_first
      symbols_rising := hgrown.symbols_rising
      not_loaded := by simp [hql]
      roots_left := fun _ => hgrown.roots_left
      degenerate := by simp [hdg]
      finished := fun _ => ⟨htheap, htx⟩
      root_tag := fun i x hi => by
        rw [hnode] at hi
        rw [hroot]
        rcases retag_cases hi with ⟨rfl, hr, -⟩ | ⟨hne, hi⟩
        · simp [hr, htv, hem]
        · simp [h.unnamed x (List.mem_of_getElem? hi), hne]
      empty_build := by simp [hem]
      heights := fun _ => hgrown.heights }

/-- FIN's phase (R272). -/
theorem finishOpen_iff {s : State} :
    s.finishOpen = true ↔ s.flags.ql = true ∧ s.flags.tv = false ∧ s.heap.length ≤ 1 ∧ s.xcnt = 0 := by
  simp [State.finishOpen, and_assoc]

/-- FIN ends a build that is under way in a finished one (R183). -/
theorem finEffect_forest {s : State} {d : Done} (h : s.Growing) (ho : s.PhaseOrder) (hopen : s.finishOpen = true)
    (hd : finEffect s = .ok d) : d.state.Forest := by
  obtain ⟨hql, htv, hlen, hx⟩ := finishOpen_iff.mp hopen
  obtain ⟨hem, hdg, -, -⟩ := ho.before_build htv
  rcases finEffect_cases hd with ⟨hheap, hd⟩ | ⟨m, rest, hex, ⟨a, hk, hu⟩ | ⟨l, r, hk, hd⟩⟩
  · rw [hd]
    exact forest_empty (h.empty hx hheap) hheap hx ⟨hql, rfl, hdg⟩
  · obtain ⟨hheap, rfl⟩ := heapExtract_last hlen hex
    obtain ⟨hm, w, hnode⟩ := h.sole_leaf hx hheap hk
    obtain ⟨-, hd⟩ := syntheticRoot_ok hu
    have hnodes : ∀ e, retag s.node m .p ++ [e] = [⟨.leaf a, w, .p⟩, e] := fun e => by simp [retag, hnode, hm]
    have hroot : s.ncnt.toNat = 1 := by simp [State.ncnt, hnode]
    rw [hd]
    exact forest_synthetic (hnodes _) hm rfl hroot hx ⟨hql, rfl, hem, rfl⟩
  · obtain ⟨hheap, rfl⟩ := heapExtract_last hlen hex
    rw [hd]
    exact forest_root h hx hheap rfl rfl rfl hx ⟨hql, rfl, hem, hdg⟩

/-- FIN has room for the synthetic root: it makes one above a sole entry (R188). -/
theorem finEffect_ne_model {s : State} (h : s.Growing) (hopen : s.finishOpen = true) (f : Fault) :
    finEffect s ≠ .error (.model f) := by
  obtain ⟨-, -, hlen, hx⟩ := finishOpen_iff.mp hopen
  simp only [finEffect]
  split
  · simp
  · next m t he =>
    obtain ⟨rest, hex, rfl⟩ := pqExtract_some he
    split
    · next a hk =>
      obtain ⟨hheap, -⟩ := heapExtract_last hlen hex
      obtain ⟨-, w, hnode⟩ := h.sole_leaf hx hheap hk
      simp [syntheticRoot, allocate, hnode, Config.ncap]
    · simp

/-! GEN. -/

/-- A Walk ends: a child's index is below its parent's (R61, R208). -/
theorem walk_ends {arena : List Node} {heap : List Index} (hl : ArenaLinked arena heap) {fuel : Nat} {n : Index}
    (hn : n.toNat < arena.length) (hfuel : n.toNat < fuel) (len : Nat) (v : BitVec 255) (g : Walked) :
    ∃ g', walk arena fuel n len v g = some g' := by
  induction fuel generalizing n len v g with
  | zero => omega
  | succ fuel ih =>
    simp only [walk]
    split
    · exact ⟨_, rfl⟩
    · next l r hk =>
      obtain ⟨hlt, hrt⟩ := hl.children_below _ _ l r (nodeIn_getElem hn) hk
      obtain ⟨g1, hg1⟩ := ih (n := l) (by omega) (by omega) (len + 1) (v <<< 1) g
      obtain ⟨g2, hg2⟩ := ih (n := r) (by omega) (by omega) (len + 1) ((v <<< 1) ||| 1) g1
      exact ⟨g2, by rw [hg1]; exact hg2⟩

theorem genEffect_ne_model {s : State} (hs : s.Linked) (htv : s.flags.tv = true) (f : Fault) :
    genEffect s ≠ .error (.model f) := by
  have hg : ∃ g, codeTable s = some g := by
    simp only [codeTable]
    split
    · exact ⟨_, rfl⟩
    · next hem =>
      split
      · exact ⟨_, rfl⟩
      · obtain ⟨e, l, r, he, -⟩ := hs.root_internal htv (by simpa using hem)
        have hlen := (List.getElem?_eq_some_iff.mp he).1
        exact walk_ends hs.arenaLinked hlen hlen 0 0 ⟨[], 0⟩
  obtain ⟨g, hg⟩ := hg
  simp [genEffect, hg]

/-! BLD. -/

/-- The build BLD hands to FIN is under way. -/
theorem bld_growing {s t u : State} (h : s.Forest) (hql : s.flags.ql = false) (ht : loadQueue s = .ok t)
    (hu : mergeAll t.heap.length t = .ok u) : u.Growing :=
  mergeAll_keeps mergeTwo_growing (loadQueue_growing h hql ht) hu

theorem bldEffect_ne_model {s : State} (h : s.Forest) (hql : s.flags.ql = false) (f : Fault) :
    bldEffect s ≠ .error (.model f) := by
  obtain ⟨hnode, -⟩ := h.not_loaded hql
  simp only [bldEffect]
  split
  · next e he =>
    intro hf
    cases hf
    exact loadQueue_ne_model hnode f he
  · next t ht =>
    split
    · next e he =>
      intro hf
      cases hf
      exact mergeAll_ne_model (loadQueue_growing h hql ht) f he
    · next u hu =>
      split
      · next hopen => exact finEffect_ne_model (bld_growing h hql ht hu) hopen f
      · simp

/-! The step. -/

/-- The forest invariant speaks of the tree, the queue, XCNT, ROOT and the flags of the build only. -/
theorem State.Forest.of_same {s t : State} (h : s.Forest) (hnode : t.node = s.node) (hheap : t.heap = s.heap)
    (hx : t.xcnt = s.xcnt) (hroot : t.root = s.root)
    (hflags : t.flags.ql = s.flags.ql ∧ t.flags.tv = s.flags.tv ∧ t.flags.em = s.flags.em ∧ t.flags.dg = s.flags.dg) :
    t.Forest := by
  obtain ⟨hql, htv, hem, hdg⟩ := hflags
  constructor <;> simp only [hnode, hheap, hx, hroot, hql, htv, hem, hdg]
  · exact h.heap_nodup
  · exact h.heap_queued
  · exact h.held_by_host
  · exact h.has_parent
  · exact h.leaves_first
  · exact h.symbols_rising
  · exact h.not_loaded
  · exact h.roots_left
  · exact h.degenerate
  · exact h.finished
  · exact h.root_tag
  · exact h.empty_build
  · exact h.heights

theorem cleared_forest (s : State) : s.cleared.Forest := by
  have hgrowing : s.cleared.Growing := ⟨.nil, .nil, by simp, .nil, rfl⟩
  exact hgrowing.forest rfl rfl (.inr ⟨rfl, rfl⟩)

/-- The phase of MKL, BLD, LDF and CNT (R272). -/
theorem tableOpen_iff {s : State} : s.tableOpen = true ↔ s.flags.ql = false ∧ s.flags.tv = false := by
  simp [State.tableOpen]

/-- The invariants of the tree, together (R60 to R62, R65). -/
abbrev State.TreeOk (s : State) : Prop := s.PhaseOrder ∧ s.Linked ∧ s.Forest

/-- MKL leaves a forest (R181). -/
theorem loadQueue_forest {s t : State} (hs : s.TreeOk) (hopen : s.tableOpen = true) (ht : loadQueue s = .ok t) :
    t.Forest := by
  obtain ⟨ho, -, hf⟩ := hs
  obtain ⟨hql, htv⟩ := tableOpen_iff.mp hopen
  obtain ⟨ho', htv', hql'⟩ := loadQueue_phaseOrder ho htv ht
  obtain ⟨-, hdg, -, -⟩ := ho'.before_build htv'
  exact (loadQueue_growing hf hql ht).forest htv' hdg (.inl hql')

/-- BLD leaves a finished forest (R184). -/
theorem bldEffect_forest {s : State} {d : Done} (hs : s.TreeOk) (hopen : s.tableOpen = true)
    (hd : bldEffect s = .ok d) : d.state.Forest := by
  obtain ⟨ho, -, hf⟩ := hs
  obtain ⟨hql, htv⟩ := tableOpen_iff.mp hopen
  obtain ⟨t, u, ht, hu, hopen', hd⟩ := bldEffect_ok hd
  obtain ⟨ho', -, -⟩ := loadQueue_phaseOrder ho htv ht
  have hgrowing := bld_growing hf hql ht hu
  obtain ⟨_, _, rfl⟩ := mergeAll_shape hu
  exact finEffect_forest hgrowing ho' hopen' hd

/-- Before TV the build is under way. -/
theorem State.TreeOk.growing {s : State} (hs : s.TreeOk) (htv : s.flags.tv = false) :
    s.Growing ∧ s.flags.dg = false := by
  obtain ⟨ho, hl, hf⟩ := hs
  obtain ⟨-, hdg, -, -⟩ := ho.before_build htv
  exact ⟨hf.growing hl htv hdg, hdg⟩

/-- The own part of a command that passes its frame keeps the forest. -/
theorem effectOf_forest {i : Instr} {s : State} {d : Done} (hs : s.TreeOk) (hp : passes i s)
    (h : effectOf i s = .ok d) : d.state.Forest := by
  obtain ⟨-, -, hf⟩ := id hs
  have hopen := phase_open_of_build hp
  obtain ⟨-, -, hphase⟩ := hp
  have hw := effectOf_writes h
  generalize hd : d.state = t at hw ⊢
  cases hw with
  | nothing | counter _ _ | table _ | pack _ _ _ | start | stop => exact hf.of_same rfl rfl rfl rfl ⟨rfl, rfl, rfl, rfl⟩
  | clear => exact cleared_forest s
  | insert hn hx ht =>
    obtain ⟨hgrowing, hdg⟩ := hs.growing (hopen rfl)
    have hql : s.flags.ql = true := by
      by_contra hno
      obtain ⟨hnode, -⟩ := hf.not_loaded (by simpa using hno)
      simp [hnode] at hn
    have hkept := hgrowing.insert hn hx ht
    obtain ⟨-, rfl⟩ := pqInsert_ok ht
    exact hkept.forest (hopen rfl) hdg (.inl hql)
  | extract hx =>
    obtain ⟨hgrowing, hdg⟩ := hs.growing (hopen rfl)
    have hql : s.flags.ql = true := by
      by_contra hno
      obtain ⟨-, hheap⟩ := hf.not_loaded (by simpa using hno)
      simp [hheap, heapExtract] at hx
    exact (hgrowing.extract hx).forest (hopen rfl) hdg (.inl hql)
  | leaves ht => exact loadQueue_forest hs hphase ht
  | merge ht =>
    obtain ⟨hgrowing, hdg⟩ := hs.growing (hopen rfl)
    have hql : s.flags.ql = true := by simp_all [phaseOk]
    have hkept := mergeTwo_growing s t hgrowing ht
    obtain ⟨_, _, rfl⟩ := mergeTwo_shape ht
    exact hkept.forest (hopen rfl) hdg (.inl hql)
  | finish _ =>
    obtain ⟨ho, -, -⟩ := id hs
    obtain ⟨hgrowing, -⟩ := hs.growing (hopen rfl)
    exact hd ▸ finEffect_forest hgrowing ho hphase h
  | build _ _ _ _ => exact hd ▸ bldEffect_forest hs hphase h
  | decode bits _ =>
    rw [decodeBits_frame]
    exact hf.of_same rfl rfl rfl rfl ⟨rfl, rfl, rfl, rfl⟩

/-- The own part of a command that passes its frame does not stop the model (R60, R61, R182). -/
theorem effectOf_ne_model_of_treeOk {i : Instr} {s : State} (hs : s.TreeOk) (hphase : phaseOk i s = true) (f : Fault) :
    effectOf i s ≠ .error (.model f) := by
  obtain ⟨ho, hl, hf⟩ := id hs
  cases i with
  | mkl =>
    obtain ⟨hql, -⟩ := tableOpen_iff.mp hphase
    obtain ⟨hnode, -⟩ := hf.not_loaded hql
    simp only [effectOf, mklEffect]
    split
    · simp
    · next e he =>
      intro h
      cases h
      exact loadQueue_ne_model hnode f he
  | mrg =>
    have htv : s.flags.tv = false := by simp_all [phaseOk]
    obtain ⟨hgrowing, -⟩ := hs.growing htv
    simp only [effectOf, mrgEffect]
    split
    · simp
    · simp
    · next e he =>
      intro h
      cases h
      exact mergeTwo_ne_model hgrowing f he
  | fin =>
    obtain ⟨-, htv, -, -⟩ := finishOpen_iff.mp hphase
    obtain ⟨hgrowing, -⟩ := hs.growing htv
    exact finEffect_ne_model hgrowing hphase f
  | bld =>
    obtain ⟨hql, -⟩ := tableOpen_iff.mp hphase
    exact bldEffect_ne_model hf hql f
  | gen => exact genEffect_ne_model hl hphase f
  | _ => exact effectOf_ne_model s f (by simp) (by simp) (by simp) (by simp) (by simp)

/-- Every command answers a next state from a state of the invariants. -/
theorem exec_answers {s : State} (hs : s.TreeOk) (i : Instr) : ∃ t, exec i s = .next t := by
  rw [exec_eq_command]
  rcases command_cases i (effectOf i) s with ⟨-, -, h⟩ | ⟨-, -, h⟩ | ⟨-, -, -, h⟩ | ⟨⟨-, -, hphase⟩, h⟩
  · exact ⟨_, h⟩
  · exact ⟨_, h⟩
  · exact ⟨_, h⟩
  · match he : effectOf i s with
    | .ok d => exact ⟨_, by rw [h, he, conclude_ok]⟩
    | .error (.engine c) => exact ⟨_, by rw [h, he, conclude_engine]⟩
    | .error (.model f) => exact (effectOf_ne_model_of_treeOk hs hphase f he).elim

theorem State.TreeOk.taken {s : State} (hs : s.TreeOk) (rest : List Input) :
    State.TreeOk { s with inputs := rest } := by
  obtain ⟨ho, hl, hf⟩ := hs
  exact ⟨ho, hl.of_same rfl rfl rfl rfl ⟨rfl, rfl, rfl⟩, hf.of_same rfl rfl rfl rfl ⟨rfl, rfl, rfl, rfl⟩⟩

/-- A step answers a next state from a state of the invariants. -/
theorem step_answers {s : State} (hs : s.TreeOk) : ∃ t, step s = .next t := by
  match hin : s.inputs with
  | [] => exact ⟨_, step_idle hin⟩
  | .reset :: rest => exact ⟨_, step_reset hin⟩
  | .command word w :: rest =>
    rw [step_command hin]
    cases hd : decode word (narrowCount s.cfg w) with
    | ok i =>
      rw [runCommand_of_ok _ hd]
      exact exec_answers (hs.taken rest) i
    | error e =>
      rw [runCommand_of_error _ hd]
      simp only [illegalCommand]
      split
      · exact ⟨_, rfl⟩
      · exact ⟨_, rfl⟩

/-- A step keeps the forest. -/
theorem step_forest {s t : State} (hs : s.TreeOk) (h : step s = .next t) : t.Forest :=
  step_establishes_of_effect (P := State.TreeOk) (Q := State.Forest) (fun _ h => h.2.2) (fun _ rest h => h.taken rest)
    (fun _ _ _ _ h => h.of_same rfl rfl rfl rfl ⟨rfl, rfl, rfl, rfl⟩)
    (fun _ _ _ h => h.of_same rfl rfl rfl rfl ⟨rfl, rfl, rfl, rfl⟩)
    (fun s _ _ => (cleared_forest s).of_same rfl rfl rfl rfl ⟨rfl, rfl, rfl, rfl⟩)
    (fun _ _ _ h hp hd => effectOf_forest h hp hd) hs h

/-- Settles O57: the counts and the index order leave both stops of the model no room, and every stage of the builder
keeps the forest. -/
theorem forestKeptAndNoStop : Obligations.ForestKeptAndNoStop := by
  intro s ho hl hf
  obtain ⟨t, ht⟩ := step_answers ⟨ho, hl, hf⟩
  exact ⟨t, ht, phaseOrderKept s t ho ht, linkedKept s t ho hl ht, step_forest ⟨ho, hl, hf⟩ ht⟩

/-- Settles O52: every memory is empty, every register 0 and every flag clear. -/
theorem resetMeetsTheInvariants : Obligations.ResetMeetsTheInvariants := by
  have hql : State.reset.flags.ql = false := rfl
  have her : State.reset.flags.er = false := rfl
  exact ⟨cleared_storageOk State.reset, Nat.one_pos, ⟨fun _ => ⟨rfl, rfl⟩, by simp [her]⟩,
    cleared_phaseOrder State.reset, cleared_linked State.reset, cleared_forest State.reset,
    by simp [HeapOrdered, State.reset], by simp [State.WeightsAddUp, hql], by simp [State.LeavesAreSymbols, hql]⟩

end Sys2Proof.Machine
end

section
/-! SUPPORT. The seven reads in every state, faulted or not (spec/20_memory.md rule R88). -/

namespace Sys2Proof.Machine

/-- Settles O48: a legal read has no phase check and passes the faulted gate, so it always reaches its own part, which
responds OK, or EMPTY where the entry does not exist, over the state it was given (`effectOf_read`). -/
theorem readsHaveNoSideEffect : Obligations.ReadsHaveNoSideEffect := fun _ s hread => exec_read s hread

end Sys2Proof.Machine
end

section
/-! SUPPORT. Decoding as the inverse of encoding: a word decodes to a command exactly when it is the command's word and
the command is legal (spec/30_encoding.md rules R110 to R118). -/

namespace Sys2Proof

/-- The command with the sideband operand `w`, where it has one (R112). -/
def Instr.withSideband (w : Sideband) : Instr → Instr
  | .ldf a _ => .ldf a w
  | .rdcb a _ => .rdcb a w
  | i => i

theorem withSideband_encodeSideband (i : Instr) : i.withSideband (encodeSideband i) = i := by
  cases i <;> rfl

theorem withSideband_idem (w : Sideband) (i : Instr) : (i.withSideband w).withSideband w = i.withSideband w := by
  cases i <;> rfl

/-- W is not in the command word (R112). -/
theorem encodeWord_withSideband (w : Sideband) (i : Instr) : encodeWord (i.withSideband w) = encodeWord i := by
  cases i <;> rfl

/-- The two operand limits of R118. -/
theorem wellFormed_eq_false_iff {i : Instr} :
    i.wellFormed = false ↔ (∃ r, i = .rds r ∧ 12 < r.toNat) ∨ ∃ a k, i = .rdcb a k ∧ 7 < k.toNat := by
  cases i <;> simp [Instr.wellFormed]

theorem checkOperand_eq_ok_iff {i j : Instr} : checkOperand j = .ok i ↔ j = i ∧ i.wellFormed = true := by
  cases hw : j.wellFormed with
  | true =>
    simp only [checkOperand, hw, if_true, Except.ok.injEq]
    exact ⟨fun h => ⟨h, h ▸ hw⟩, fun h => h.1⟩
  | false =>
    have hne : checkOperand j ≠ .ok i := by
      rcases wellFormed_eq_false_iff.mp hw with ⟨r, rfl, -⟩ | ⟨a, v, rfl, -⟩ <;> simp [checkOperand, hw]
    exact ⟨fun h => (hne h).elim, fun ⟨h, hi⟩ => by simp [← h, hw] at hi⟩

/-- A word decodes when Z is 0, the rest is a row of R117, and the operand is within the limits of R118. -/
theorem decode_eq_ok_iff {word : CommandWord} {w : Sideband} {i : Instr} :
    decode word w = .ok i ↔
      zField word = 0 ∧ decodeRow (opField word) (aField word) w = .ok i ∧ i.wellFormed = true := by
  by_cases hz : zField word = 0
  · cases hd : decodeRow (opField word) (aField word) w with
    | ok j => simp [decode, hz, hd, checkOperand_eq_ok_iff]
    | error e => simp [decode, hz, hd]
  · have hne : decode word w ≠ .ok i := by
      rw [decode, if_neg hz]
      simp
    exact iff_of_false hne fun h => hz h.1

/-! Each format written from the operand it reads. -/

/-- A field whose bits from `n` up are 0 is its `n` low bits. -/
theorem field_eq_operand {n m : Nat} (hnm : n + m = 16) {a : BitVec 16} (h : a.extractLsb' n m = 0) :
    (a.extractLsb' 0 n).setWidth 16 = a := by
  have hzero : ∀ j, j < m → a.getLsbD (n + j) = false := by
    intro j hj
    have := congrArg (fun b : BitVec m => b.getLsbD j) h
    simpa [hj] using this
  apply BitVec.eq_of_getLsbD_eq
  intro i hi
  by_cases hin : i < n
  · simp [hi, hin]
  · have := hzero (i - n) (by omega)
    rw [show n + (i - n) = i by omega] at this
    simp [hin, this]

theorem formatZ_eq_ok {a : BitVec 16} {i j : Instr} (h : formatZ a j = .ok i) : a = 0 ∧ j = i := by
  simp only [formatZ] at h
  split at h
  · next ha => exact ⟨ha, Except.ok.inj h⟩
  · cases h

theorem formatS_eq_ok {a : BitVec 16} {i : Instr} {mk : Byte → Instr} (h : formatS a mk = .ok i) :
    ∃ s, fieldS s = a ∧ mk s = i := by
  simp only [formatS] at h
  split at h
  · next ha => exact ⟨_, field_eq_operand rfl ha, Except.ok.inj h⟩
  · cases h

theorem formatN_eq_ok {a : BitVec 16} {i : Instr} {mk : Index → Instr} (h : formatN a mk = .ok i) :
    ∃ n, fieldN n = a ∧ mk n = i := by
  simp only [formatN] at h
  split at h
  · next ha => exact ⟨_, field_eq_operand rfl ha, Except.ok.inj h⟩
  · cases h

/-- The lowest bit as the operand of format B. -/
theorem ofBool_getLsbD_zero {n : Nat} (v : BitVec n) : BitVec.ofBool (v.getLsbD 0) = v.extractLsb' 0 1 := by
  ext i hi
  obtain rfl : i = 0 := by omega
  simp

theorem formatB_eq_ok {a : BitVec 16} {i : Instr} {mk : Bool → Instr} (h : formatB a mk = .ok i) :
    ∃ b, fieldB b = a ∧ mk b = i := by
  simp only [formatB] at h
  split at h
  · next ha =>
    have hfield : fieldB (a.getLsbD 0) = a := by
      rw [fieldB, ofBool_getLsbD_zero]
      exact field_eq_operand rfl ha
    exact ⟨_, hfield, Except.ok.inj h⟩
  · cases h

/-! The opcode map of R117 in both directions. -/

/-- The word {op, 0, a} with W spells the command, whatever the limits of R118 say. -/
def Spells (op : Byte) (a : BitVec 16) (w : Sideband) (i : Instr) : Prop :=
  encodeWord i = assemble op a ∧ i.withSideband w = i

theorem spells_of_formatZ {op : Byte} (c : Byte) {a : BitVec 16} {w : Sideband} {i j : Instr}
    (hop : op.toNat = c.toNat) (h : formatZ a j = .ok i) (hrow : Spells c 0 w j) : Spells op a w i := by
  obtain rfl := BitVec.eq_of_toNat_eq hop
  obtain ⟨rfl, rfl⟩ := formatZ_eq_ok h
  exact hrow

theorem spells_of_field {α : Type} {op : Byte} (c : Byte) {a : BitVec 16} {w : Sideband} {i : Instr}
    {field : α → BitVec 16} {mk : α → Instr} (hop : op.toNat = c.toNat) (h : ∃ x, field x = a ∧ mk x = i)
    (hrow : ∀ x, Spells c (field x) w (mk x)) : Spells op a w i := by
  obtain rfl := BitVec.eq_of_toNat_eq hop
  obtain ⟨x, rfl, rfl⟩ := h
  exact hrow x

/-- A row of the opcode map gives only the command it spells. -/
theorem decodeRow_spells {op : Byte} {a : BitVec 16} {w : Sideband} {i : Instr} (h : decodeRow op a w = .ok i) :
    Spells op a w i := by
  simp only [decodeRow] at h
  split at h
  · next hop => exact spells_of_formatZ 0x00 hop h ⟨rfl, rfl⟩
  · next hop => exact spells_of_formatZ 0x01 hop h ⟨rfl, rfl⟩
  · next hop => exact spells_of_field 0x02 hop (formatS_eq_ok h) fun _ => ⟨rfl, rfl⟩
  · next hop => exact spells_of_field 0x03 hop (formatS_eq_ok h) fun _ => ⟨rfl, rfl⟩
  · next hop => exact spells_of_field 0x04 hop (formatS_eq_ok h) fun _ => ⟨rfl, rfl⟩
  · next hop => exact spells_of_field 0x05 hop (formatS_eq_ok h) fun _ => ⟨rfl, rfl⟩
  · next hop => exact spells_of_field 0x10 hop (formatN_eq_ok h) fun _ => ⟨rfl, rfl⟩
  · next hop => exact spells_of_formatZ 0x11 hop h ⟨rfl, rfl⟩
  · next hop => exact spells_of_field 0x12 hop (formatN_eq_ok h) fun _ => ⟨rfl, rfl⟩
  · next hop => exact spells_of_formatZ 0x20 hop h ⟨rfl, rfl⟩
  · next hop => exact spells_of_formatZ 0x21 hop h ⟨rfl, rfl⟩
  · next hop => exact spells_of_formatZ 0x22 hop h ⟨rfl, rfl⟩
  · next hop => exact spells_of_formatZ 0x23 hop h ⟨rfl, rfl⟩
  · next hop => exact spells_of_field 0x24 hop (formatN_eq_ok h) fun _ => ⟨rfl, rfl⟩
  · next hop => exact spells_of_field 0x25 hop (formatN_eq_ok h) fun _ => ⟨rfl, rfl⟩
  · next hop => exact spells_of_formatZ 0x30 hop h ⟨rfl, rfl⟩
  · next hop => exact spells_of_field 0x31 hop (formatS_eq_ok h) fun _ => ⟨rfl, rfl⟩
  · next hop => exact spells_of_field 0x32 hop (formatS_eq_ok h) fun _ => ⟨rfl, rfl⟩
  · next hop => exact spells_of_field 0x40 hop (formatS_eq_ok h) fun _ => ⟨rfl, rfl⟩
  · next hop => exact spells_of_formatZ 0x41 hop h ⟨rfl, rfl⟩
  · next hop => exact spells_of_formatZ 0x50 hop h ⟨rfl, rfl⟩
  · next hop => exact spells_of_field 0x51 hop (formatB_eq_ok h) fun _ => ⟨rfl, rfl⟩
  · next hop => exact spells_of_field 0x52 hop (formatS_eq_ok h) fun _ => ⟨rfl, rfl⟩
  · next hop => exact spells_of_formatZ 0x53 hop h ⟨rfl, rfl⟩
  · cases h

theorem decodeRow_fields (op : Byte) (a : BitVec 16) (w : Sideband) :
    decodeRow (opField (assemble op a)) (aField (assemble op a)) w = decodeRow op a w := by
  rw [opField_assemble, aField_assemble]

/-- The fields of a command's word are the row that decodes to it, with W for its sideband operand. -/
theorem decodeRow_encodeWord (i : Instr) (w : Sideband) :
    decodeRow (opField (encodeWord i)) (aField (encodeWord i)) w = .ok (i.withSideband w) := by
  cases i with
  | nop => exact (decodeRow_fields 0x00 _ w).trans (formatZ_zero _)
  | clr => exact (decodeRow_fields 0x01 _ w).trans (formatZ_zero _)
  | ldf a _ => exact (decodeRow_fields 0x02 _ w).trans (formatS_fieldS a fun s => .ldf s w)
  | cnt a => exact (decodeRow_fields 0x03 _ w).trans (formatS_fieldS _ _)
  | rdf a => exact (decodeRow_fields 0x04 _ w).trans (formatS_fieldS _ _)
  | rds a => exact (decodeRow_fields 0x05 _ w).trans (formatS_fieldS _ _)
  | pqi n => exact (decodeRow_fields 0x10 _ w).trans (formatN_fieldN _ _)
  | pqx => exact (decodeRow_fields 0x11 _ w).trans (formatZ_zero _)
  | rdh n => exact (decodeRow_fields 0x12 _ w).trans (formatN_fieldN _ _)
  | mkl => exact (decodeRow_fields 0x20 _ w).trans (formatZ_zero _)
  | mrg => exact (decodeRow_fields 0x21 _ w).trans (formatZ_zero _)
  | fin => exact (decodeRow_fields 0x22 _ w).trans (formatZ_zero _)
  | bld => exact (decodeRow_fields 0x23 _ w).trans (formatZ_zero _)
  | rdnw n => exact (decodeRow_fields 0x24 _ w).trans (formatN_fieldN _ _)
  | rdnl n => exact (decodeRow_fields 0x25 _ w).trans (formatN_fieldN _ _)
  | gen => exact (decodeRow_fields 0x30 _ w).trans (formatZ_zero _)
  | rdc a => exact (decodeRow_fields 0x31 _ w).trans (formatS_fieldS _ _)
  | rdcb a _ => exact (decodeRow_fields 0x32 _ w).trans (formatS_fieldS a fun s => .rdcb s w)
  | enc a => exact (decodeRow_fields 0x40 _ w).trans (formatS_fieldS _ _)
  | efl => exact (decodeRow_fields 0x41 _ w).trans (formatZ_zero _)
  | dst => exact (decodeRow_fields 0x50 _ w).trans (formatZ_zero _)
  | dbt b => exact (decodeRow_fields 0x51 _ w).trans (formatB_fieldB _ _)
  | dby a => exact (decodeRow_fields 0x52 _ w).trans (formatS_fieldS _ _)
  | den => exact (decodeRow_fields 0x53 _ w).trans (formatZ_zero _)

theorem zField_encodeWord (i : Instr) : zField (encodeWord i) = 0 := by
  cases i <;> exact zField_assemble _ _

/-- The words that decode to a command: its own, with its own sideband operand where it has one, and only where it is
legal. -/
theorem decode_eq_ok_iff_encodeWord {word : CommandWord} {w : Sideband} {i : Instr} :
    decode word w = .ok i ↔ encodeWord i = word ∧ i.wellFormed = true ∧ i.withSideband w = i := by
  rw [decode_eq_ok_iff]
  constructor
  · rintro ⟨hz, hrow, hw⟩
    obtain ⟨hword, hside⟩ := decodeRow_spells hrow
    exact ⟨hword.trans (assemble_fields word hz), hw, hside⟩
  · rintro ⟨rfl, hw, hside⟩
    exact ⟨zField_encodeWord i, by rw [decodeRow_encodeWord, hside], hw⟩

/-- Settles O1: the command's own words are the ones that decode to it. -/
theorem decodeUndoesEncode : Obligations.DecodeUndoesEncode := fun i hw =>
  decode_eq_ok_iff_encodeWord.mpr ⟨rfl, hw, withSideband_encodeSideband i⟩

/-- Settles O2: no other words decode to it. -/
theorem encodeUndoesDecode : Obligations.EncodeUndoesDecode := by
  intro word w i h
  obtain ⟨hword, hw, hside⟩ := decode_eq_ok_iff_encodeWord.mp h
  refine ⟨hword, hw, ?_⟩
  rintro a v (rfl | rfl)
  · exact (Instr.ldf.inj hside).2.symm
  · exact (Instr.rdcb.inj hside).2.symm

/-- Settles O4, by evaluating the decoder on each word. -/
theorem sampleWordsDecode : Obligations.SampleWordsDecode := by
  unfold Obligations.SampleWordsDecode
  decide

end Sys2Proof
end

section
/-! SUPPORT. The illegal commands of spec/30_encoding.md rule R118, told from the masks of the opcode table, are those
the decoder rejects. -/

namespace Sys2Proof.Machine

/-- The operand A[7:0] of an assembled word. -/
theorem extractLsb'_assemble_fieldS (op s : Byte) : (assemble op (fieldS s)).extractLsb' 0 8 = s := by
  ext i hi
  have h24 : i < 24 := by omega
  simp [assemble, fieldS, hi, h24]
  omega

/-- A mask of every bit from `n` up leaves free only the `n` low bits of A. -/
theorem assemble_operand_of_masked {n : Nat} (hn : n ≤ 16) {word mask : CommandWord} {op : Byte}
    (hmask : ∀ i : Fin 32, mask.getLsbD i.val = decide (n ≤ i.val)) (h : word &&& mask = assemble op 0) :
    assemble op ((word.extractLsb' 0 n).setWidth 16) = word := by
  apply BitVec.eq_of_getLsbD_eq
  intro i hi
  have hbit := congrArg (fun b : CommandWord => b.getLsbD i) h
  rw [BitVec.getLsbD_and, hmask ⟨i, hi⟩] at hbit
  by_cases hin : i < n
  · have h16 : i < 16 := by omega
    have h24 : i < 24 := by omega
    simp [assemble, hi, h16, h24, hin]
  · have hle : n ≤ i := by omega
    simpa [assemble, hin, hle] using hbit.symm

theorem assemble_zero_of_masked {word : CommandWord} (op : Byte)
    (h : word &&& 0xFFFFFFFF#32 = assemble op 0) : assemble op 0 = word := by
  simpa using assemble_operand_of_masked (n := 0) (by decide) (by decide) h

theorem assemble_fieldS_of_masked {word : CommandWord} (op : Byte)
    (h : word &&& 0xFFFFFF00#32 = assemble op 0) :
    assemble op (fieldS (word.extractLsb' 0 8)) = word :=
  assemble_operand_of_masked (by decide) Laws.RowMatch.mask_S h

theorem assemble_fieldN_of_masked {word : CommandWord} (op : Byte)
    (h : word &&& 0xFFFFFE00#32 = assemble op 0) :
    assemble op (fieldN (word.extractLsb' 0 9)) = word :=
  assemble_operand_of_masked (by decide) Laws.RowMatch.mask_N h

theorem assemble_fieldB_of_masked {word : CommandWord} (op : Byte)
    (h : word &&& 0xFFFFFFFE#32 = assemble op 0) :
    assemble op (fieldB (word.getLsbD 0)) = word := by
  rw [fieldB, ofBool_getLsbD_zero]
  exact assemble_operand_of_masked (by decide) (by decide) h

/-- A word that matches a row of the opcode table is the word of a command of that row. -/
theorem encodeWord_of_row {word : CommandWord} {r : TableRow} (hr : r ∈ opcodeTable)
    (h : word &&& r.mask = r.pattern) : ∃ i, encodeWord i = word := by
  simp only [opcodeTable, List.cons_append, List.nil_append, List.mem_cons, List.not_mem_nil, or_false] at hr
  rcases hr with rfl | rfl | rfl | rfl | rfl | rfl | rfl | rfl | rfl | rfl | rfl | rfl | rfl | rfl | rfl | rfl
    | rfl | rfl | rfl | rfl | rfl | rfl | rfl | rfl
  · exact ⟨.nop, assemble_zero_of_masked 0x00 h⟩
  · exact ⟨.clr, assemble_zero_of_masked 0x01 h⟩
  · exact ⟨.ldf _ 0, assemble_fieldS_of_masked 0x02 h⟩
  · exact ⟨.cnt _, assemble_fieldS_of_masked 0x03 h⟩
  · exact ⟨.rdf _, assemble_fieldS_of_masked 0x04 h⟩
  · exact ⟨.rds _, assemble_fieldS_of_masked 0x05 h⟩
  · exact ⟨.pqi _, assemble_fieldN_of_masked 0x10 h⟩
  · exact ⟨.pqx, assemble_zero_of_masked 0x11 h⟩
  · exact ⟨.rdh _, assemble_fieldN_of_masked 0x12 h⟩
  · exact ⟨.mkl, assemble_zero_of_masked 0x20 h⟩
  · exact ⟨.mrg, assemble_zero_of_masked 0x21 h⟩
  · exact ⟨.fin, assemble_zero_of_masked 0x22 h⟩
  · exact ⟨.bld, assemble_zero_of_masked 0x23 h⟩
  · exact ⟨.rdnw _, assemble_fieldN_of_masked 0x24 h⟩
  · exact ⟨.rdnl _, assemble_fieldN_of_masked 0x25 h⟩
  · exact ⟨.gen, assemble_zero_of_masked 0x30 h⟩
  · exact ⟨.rdc _, assemble_fieldS_of_masked 0x31 h⟩
  · exact ⟨.rdcb _ 0, assemble_fieldS_of_masked 0x32 h⟩
  · exact ⟨.enc _, assemble_fieldS_of_masked 0x40 h⟩
  · exact ⟨.efl, assemble_zero_of_masked 0x41 h⟩
  · exact ⟨.dst, assemble_zero_of_masked 0x50 h⟩
  · exact ⟨.dbt _, assemble_fieldB_of_masked 0x51 h⟩
  · exact ⟨.dby _, assemble_fieldS_of_masked 0x52 h⟩
  · exact ⟨.den, assemble_zero_of_masked 0x53 h⟩

/-- The word of every command matches a row of the opcode table. -/
theorem row_of_encodeWord (i : Instr) : ∃ r ∈ opcodeTable, encodeWord i &&& r.mask = r.pattern := by
  have hrow : Laws.RowMatch.Statement i := by
    cases i with
    | nop => exact Laws.RowMatch.nop
    | clr => exact Laws.RowMatch.clr
    | ldf a w => exact Laws.RowMatch.ldf a w
    | cnt a => exact Laws.RowMatch.cnt a
    | rdf a => exact Laws.RowMatch.rdf a
    | rds a => exact Laws.RowMatch.rds a
    | pqi n => exact Laws.RowMatch.pqi n
    | pqx => exact Laws.RowMatch.pqx
    | rdh n => exact Laws.RowMatch.rdh n
    | mkl => exact Laws.RowMatch.mkl
    | mrg => exact Laws.RowMatch.mrg
    | fin => exact Laws.RowMatch.fin
    | bld => exact Laws.RowMatch.bld
    | rdnw n => exact Laws.RowMatch.rdnw n
    | rdnl n => exact Laws.RowMatch.rdnl n
    | gen => exact Laws.RowMatch.gen
    | rdc a => exact Laws.RowMatch.rdc a
    | rdcb a w => exact Laws.RowMatch.rdcb a w
    | enc a => exact Laws.RowMatch.enc a
    | efl => exact Laws.RowMatch.efl
    | dst => exact Laws.RowMatch.dst
    | dbt b => exact Laws.RowMatch.dbt b
    | dby a => exact Laws.RowMatch.dby a
    | den => exact Laws.RowMatch.den
  obtain ⟨r, hr, hmatch⟩ := hrow
  exact ⟨r, List.mem_of_getElem? hr, hmatch⟩

/-- Commands with one word differ at most in the sideband operand. -/
theorem withSideband_eq_of_encodeWord_eq {i j : Instr} (h : encodeWord i = encodeWord j) (w : Sideband) :
    i.withSideband w = j.withSideband w := by
  have hj := decodeRow_encodeWord j w
  rw [← h, decodeRow_encodeWord] at hj
  exact Except.ok.inj hj

/-- A command is illegal when no command of its word is within the operand limits with this W. -/
theorem illegalCommand_iff {word : CommandWord} {w : Sideband} :
    IllegalCommand word w ↔ ∀ i, encodeWord i = word → (i.withSideband w).wellFormed = false := by
  constructor
  · rintro (hnone | ⟨hmatch, hlimit⟩ | ⟨hmatch, hlimit⟩) i rfl
    · obtain ⟨r, hr, hmatch⟩ := row_of_encodeWord i
      exact (hnone r hr hmatch).elim
    · have hword := assemble_fieldS_of_masked 0x05 hmatch
      rw [← withSideband_eq_of_encodeWord_eq (i := .rds _) hword w]
      exact wellFormed_eq_false_iff.mpr (.inl ⟨_, rfl, hlimit⟩)
    · have hword := assemble_fieldS_of_masked 0x32 hmatch
      rw [← withSideband_eq_of_encodeWord_eq (i := .rdcb _ 0) hword w]
      exact wellFormed_eq_false_iff.mpr (.inr ⟨_, _, rfl, hlimit⟩)
  · intro h
    by_cases hcommand : ∃ i, encodeWord i = word
    · obtain ⟨i, rfl⟩ := hcommand
      have hword := encodeWord_withSideband w i
      rcases wellFormed_eq_false_iff.mp (h i rfl) with ⟨r, hr, hlimit⟩ | ⟨a, k, hk, hlimit⟩
      · rw [hr] at hword
        rw [← hword]
        exact .inr (.inl ⟨Laws.RowMatch.matches_S 0x05 r, by rwa [encodeWord, extractLsb'_assemble_fieldS]⟩)
      · have hside := withSideband_idem w i
        rw [hk] at hword hside
        cases hside
        rw [← hword]
        exact .inr (.inr ⟨Laws.RowMatch.matches_S 0x32 a, hlimit⟩)
    · exact .inl fun r hr hmatch => hcommand (encodeWord_of_row hr hmatch)

/-- Settles O3: a word and W decode when they are those of a legal command. -/
theorem decoderRejectsExactlyTheIllegal : Obligations.DecoderRejectsExactlyTheIllegal := by
  intro word w
  rw [illegalCommand_iff]
  constructor
  · rintro ⟨e, he⟩ i hword
    by_contra hw
    have hok : decode word w = .ok (i.withSideband w) := decode_eq_ok_iff_encodeWord.mpr
      ⟨(encodeWord_withSideband w i).trans hword, by simpa using hw, withSideband_idem w i⟩
    simp [he] at hok
  · intro h
    cases hd : decode word w with
    | error e => exact ⟨e, rfl⟩
    | ok i =>
      obtain ⟨hword, hw, hside⟩ := decode_eq_ok_iff_encodeWord.mp hd
      rw [← hside, h i hword] at hw
      cases hw

/-- Settles O6: W has the port's width, so the step sees the word and W as given, and the decoder rejects them. -/
theorem illegalCommandFaultsOrIsRefused : Obligations.IllegalCommandFaultsOrIsRefused := by
  intro s word w rest hin hwidth hillegal
  obtain ⟨e, he⟩ := (decoderRejectsExactlyTheIllegal word w).mpr hillegal
  rw [step_command hin, narrowCount_of_lt hwidth, runCommand_of_error _ he]
  constructor
  · intro her
    simp [illegalCommand, her, State.raiseFault_eq_faulted]
  · intro her
    simp [illegalCommand, her, State.refuseFaulted_eq_answered]

end Sys2Proof.Machine
end

section
/-! SUPPORT. Commands on one counter or one queue node: NOP and RDF in every state, LDF and CNT by the counter they
write, PQI by the tag and the heap it writes (spec/40_control_and_tables.md rules R141 to R145,
spec/41_priority_queue.md rule R166). -/

namespace Sys2Proof.Machine

/-! The word and the frame of a command. -/

/-- The word of a command with one operand is its opcode over the operand (R110, R111). -/
theorem assemble_operand {n : Nat} (hn : n ≤ 16) (op : Byte) (v : BitVec n) :
    assemble op (v.setWidth 16) = (op.setWidth 32 <<< 24) ||| v.setWidth 32 := by
  rw [assemble, BitVec.setWidth_setWidth (by omega)]

/-- An engine without a fault lets a legal command through in its phase (R125). -/
theorem passes_of_phase {i : Instr} {s : State} (her : s.flags.er = false) (hw : i.wellFormed = true)
    (hp : phaseOk i s = true) : passes i s :=
  ⟨fun h => (Bool.false_ne_true (her.symm.trans h)).elim, hw, hp⟩

theorem exec_of_passes {i : Instr} {s : State} {d : Done} (hp : passes i s) (h : effectOf i s = .ok d) :
    exec i s = .next (d.state.answered d.bytes d.st d.data) := by
  rw [exec_eq_command, command_of_passes _ hp, h, conclude_ok]

theorem exec_fault_of_passes {i : Instr} {s : State} {c : FaultCode} (hp : passes i s)
    (h : effectOf i s = .error (.engine c)) : exec i s = .next (s.faulted c (encodeWord i)) := by
  rw [exec_eq_command, command_of_passes _ hp, h, conclude_engine]

theorem exec_out_of_sequence {i : Instr} {s : State} (her : s.flags.er = false) (hw : i.wellFormed = true)
    (hp : phaseOk i s = false) : exec i s = .next (s.faulted .seq (encodeWord i)) := by
  rw [exec_eq_command, command_out_of_sequence _ her hw hp]

theorem tableOpen_eq_false_iff {s : State} : s.tableOpen = false ↔ s.flags.ql = true ∨ s.flags.tv = true := by
  rw [← Bool.not_eq_true, tableOpen_iff, not_and_or, Bool.not_eq_false, Bool.not_eq_false]

/-! NOP and RDF. -/

/-- Settles O16: the faulted engine accepts NOP too, so it always reaches its own part. -/
theorem nopChangesNothing : Obligations.NopChangesNothing := ⟨by decide, exec_nop⟩

/-- Settles O20: the faulted engine accepts RDF too, so it always reaches its own part. -/
theorem rdfReadsOneCounter : Obligations.RdfReadsOneCounter := fun a s =>
  ⟨assemble_operand (by decide) 0x04 a,
    exec_of_accepted (i := .rdf a) (d := Done.ok s ((s.freqAt a).setWidth 72)) rfl rfl⟩

/-! LDF and CNT. -/

/-- What the answer (OK, 0) over a state with one counter written shows: the counter, the others as they were, and
nothing else changed (R143, R144). -/
theorem setFreq_answered (s : State) (a : Byte) (c : Count) :
    let t := (s.setFreq a c).answered [] .ok 0
    t.freqAt a = c ∧ (∀ b, b ≠ a → t.freqAt b = s.freqAt b) ∧
    t = { s with freq := t.freq, sent := s.sent ++ [Sent.rsp ⟨.ok, 0⟩] } :=
  ⟨State.freqAt_setFreq_same s a c, fun _ hb => State.freqAt_setFreq_other s c hb, rfl⟩

/-- Settles O18: the phase is an open table, and the value written is W narrowed. -/
theorem ldfLoadsOneCounter : Obligations.LdfLoadsOneCounter := by
  intro a w s her
  refine ⟨assemble_operand (by decide) 0x02 a, fun hclosed => ?_, fun hql htv => ?_⟩
  · exact exec_out_of_sequence her rfl (tableOpen_eq_false_iff.mpr hclosed)
  · have hp : passes (.ldf a w) s := passes_of_phase her rfl (tableOpen_iff.mpr ⟨hql, htv⟩)
    obtain ⟨hcount, hothers, hframe⟩ := setFreq_answered s a (narrowCount s.cfg w)
    exact ⟨_, exec_of_passes hp rfl, (congrArg _ hcount).trans (narrowCount_toNat s.cfg w), hothers, hframe⟩

theorem eq_maxCount_iff {cw : CounterWidth} {v : Count} : v = maxCount cw ↔ v.toNat = 2 ^ cw.bits - 1 := by
  rw [← BitVec.toNat_inj, maxCount_toNat]

/-- A counter below its largest value counts on without a wrap (R17). -/
theorem narrowCount_add_one {cw : CounterWidth} {v : Count} (h : v.toNat + 1 < 2 ^ cw.bits) :
    (narrowCount cw (v + 1)).toNat = v.toNat + 1 := by
  have hbits : cw.bits ≤ 64 := by cases cw <;> decide
  have hdvd : 2 ^ cw.bits ∣ 2 ^ 64 := Nat.pow_dvd_pow 2 hbits
  calc (narrowCount cw (v + 1)).toNat
      = (v.toNat + 1) % 2 ^ 64 % 2 ^ cw.bits := by rw [narrowCount_toNat, BitVec.toNat_add]; rfl
    _ = v.toNat + 1 := by rw [Nat.mod_mod_of_dvd _ hdvd, Nat.mod_eq_of_lt h]

theorem cntEffect_of_max {a : Byte} {s : State} (h : s.freqAt a = maxCount s.cfg) :
    cntEffect a s = .error (.engine .ovf) := if_pos h

theorem cntEffect_of_ne_max {a : Byte} {s : State} (h : s.freqAt a ≠ maxCount s.cfg) :
    cntEffect a s = .ok (Done.ok (s.setFreq a (narrowCount s.cfg (s.freqAt a + 1))) 0) := if_neg h

/-- Settles O19: the phase is an open table; below 2^CW - 1 the sum needs no more than CW bits. -/
theorem cntCountsOneByte : Obligations.CntCountsOneByte := by
  intro a s her hwidth
  refine ⟨assemble_operand (by decide) 0x03 a, fun hclosed => ?_, fun hql htv => ?_⟩
  · exact exec_out_of_sequence her rfl (tableOpen_eq_false_iff.mpr hclosed)
  · have hp : passes (.cnt a) s := passes_of_phase her rfl (tableOpen_iff.mpr ⟨hql, htv⟩)
    refine ⟨fun hmax => exec_fault_of_passes hp (cntEffect_of_max (eq_maxCount_iff.mpr hmax)), fun hmax => ?_⟩
    have hroom : (s.freqAt a).toNat + 1 < 2 ^ s.cfg.bits := by omega
    obtain ⟨hcount, hothers, hframe⟩ := setFreq_answered s a (narrowCount s.cfg (s.freqAt a + 1))
    exact ⟨_, exec_of_passes hp (cntEffect_of_ne_max (mt eq_maxCount_iff.mp hmax)),
      (congrArg _ hcount).trans (narrowCount_add_one hroom), hothers, hframe⟩

/-! PQI. -/

/-- The comparison reads no owner tag (R161). -/
theorem lighter_setOwner (s : State) (n : Index) (o : Owner) : lighter (s.setOwner n o).node = lighter s.node := by
  funext x y
  have hw : ∀ m, (nodeIn (s.setOwner n o).node m).w = (nodeIn s.node m).w := fun m => nodeAt_setOwner_w s m n o
  rw [lighter, lighter, hw, hw]

/-- The node check of PQI, on the arena's entries (R166, R274). -/
theorem held_iff {s : State} {n : Index} :
    (∃ e, s.node[n.toNat]? = some e ∧ e.own = .x) ↔ n.toNat < s.node.length ∧ (s.nodeAt n).own = .x := by
  constructor
  · rintro ⟨e, he, hx⟩
    have hn : s.nodeAt n = e := nodeIn_of_getElem he
    exact ⟨(List.getElem?_eq_some_iff.mp he).1, hn ▸ hx⟩
  · rintro ⟨hlt, hx⟩
    have he := List.getElem?_eq_getElem hlt
    exact ⟨_, he, nodeIn_of_getElem he ▸ hx⟩

theorem pqiEffect_of_not_held {n : Index} {s : State} (h : ¬ (n.toNat < s.node.length ∧ (s.nodeAt n).own = .x)) :
    pqiEffect n s = .error (.engine .node) := if_neg h

theorem pqInsert_of_full {n : Index} {s : State} (h : Config.qcap ≤ s.heap.length) :
    pqInsert n s = .error (.engine .qfull) := if_neg (Nat.not_lt.mpr h)

theorem pqiEffect_of_full {n : Index} {s : State} (h : n.toNat < s.node.length ∧ (s.nodeAt n).own = .x)
    (hfull : Config.qcap ≤ s.heap.length) : pqiEffect n s = .error (.engine .qfull) := by
  rw [pqiEffect, if_pos h, pqInsert_of_full (by exact hfull)]

/-- The state PQI writes: the tag Q, one node less in the host's hands, and the node in the heap (R166). -/
def givenBack (n : Index) (s : State) : State :=
  { s.setOwner n .q with xcnt := s.xcnt - 1, heap := heapInsert (lighter s.node) s.heap n }

theorem pqiEffect_of_held {n : Index} {s : State} (h : n.toNat < s.node.length ∧ (s.nodeAt n).own = .x)
    (hroom : s.heap.length < Config.qcap) : pqiEffect n s = .ok (Done.ok (givenBack n s) 0) := by
  rw [pqiEffect, if_pos h, pqInsert_of_room (by exact hroom), givenBack, ← lighter_setOwner s n .q]
  rfl

/-- An owner tag written, entry by entry (R55). -/
theorem setOwner_getElem? {s : State} {n : Index} {o : Owner} {m : Nat} {e : Node} (h : s.node[m]? = some e) :
    (s.setOwner n o).node[m]? = some (if m = n.toNat then { e with own := o } else e) := by
  rw [setOwner_node_eq]
  by_cases hm : m = n.toNat
  · subst hm
    rw [if_pos rfl, retag_same o h]
  · rw [if_neg hm, retag_other s.node o hm, h]

/-- Settles O25: the phase is TV = 0; past the two checks the tag of the node is Q when it enters the heap, which the
comparison does not see. -/
theorem pqiInsertsTheNode : Obligations.PqiInsertsTheNode := by
  intro n s her
  refine ⟨assemble_operand (by decide) 0x10 n, fun htv => ?_, fun htv => ?_⟩
  · exact exec_out_of_sequence her rfl (by simp [phaseOk, htv])
  · have hp : passes (.pqi n) s := passes_of_phase her rfl (by simp [phaseOk, htv])
    refine ⟨fun hnot => ?_, fun hheld => ⟨fun hfull => ?_, fun hroom => ?_⟩⟩
    · exact exec_fault_of_passes hp (pqiEffect_of_not_held (mt held_iff.mpr hnot))
    · exact exec_fault_of_passes hp (pqiEffect_of_full (held_iff.mp hheld) hfull)
    · exact ⟨_, exec_of_passes hp (pqiEffect_of_held (held_iff.mp hheld) hroom), rfl,
        State.setOwner_length s n .q, fun _ _ he => setOwner_getElem? he, rfl⟩

end Sys2Proof.Machine
end

section
/-! SUPPORT. The rounds of the two sifts as the rules write them, and the two queue commands that read or take a node:
PQX and RDH (spec/41_priority_queue.md rules R161 to R163, R167, R168). -/

namespace Sys2Proof.Machine

/-! The two procedures and their rounds. -/

/-- PQ.extractMin on two entries or more: the last one is the new top (R163). -/
theorem heapExtract_concat (lt : Index → Index → Bool) (m last : Index) (mid : List Index) :
    heapExtract lt (m :: (mid ++ [last])) = some (m, siftDown lt (mid.length + 1) (last :: mid) 0) := by
  simp only [heapExtract, List.getLast?_concat, List.dropLast_concat, List.length_append, List.length_singleton]

/-- The sift-up stops at slot 0, whatever its bound (R162). -/
theorem siftUp_zero (lt : Index → Index → Bool) (fuel : Nat) (heap : List Index) : siftUp lt fuel heap 0 = heap := by
  cases fuel <;> simp [siftUp]

/-- One round of the sift-up (R162). -/
theorem siftUp_round {lt : Index → Index → Bool} {fuel : Nat} {heap : List Index} {i : Nat} {x y : Index}
    (hi : 0 < i) (hfuel : i ≤ fuel) (hx : heap[i]? = some x) (hy : heap[(i - 1) / 2]? = some y) :
    siftUp lt fuel heap i =
      if lt x y then siftUp lt ((i - 1) / 2) (swapSlots heap i ((i - 1) / 2) x y) ((i - 1) / 2) else heap := by
  obtain ⟨fuel, rfl⟩ : ∃ n, fuel = n + 1 := ⟨fuel - 1, by omega⟩
  have hbound (h : List Index) : siftUp lt fuel h ((i - 1) / 2) = siftUp lt ((i - 1) / 2) h ((i - 1) / 2) :=
    siftUp_fuel (by omega) (Nat.le_refl _)
  simp only [siftUp, if_neg (Nat.ne_of_gt hi), hx, hy, hbound]

/-- What decides one selection of R163: `c` where it exists and is strictly lighter than slot `s`, else `s`. -/
theorem lighterSlot_eq {lt : Index → Index → Bool} {heap : List Index} {c s k : Nat} {z : Index}
    (hz : heap[s]? = some z)
    (hk : (k = c ∧ ∃ l, heap[c]? = some l ∧ lt l z = true) ∨ (k = s ∧ ∀ l, heap[c]? = some l → lt l z = false)) :
    lighterSlot lt heap c s = k := by
  rcases hk with ⟨rfl, l, hl, hlt⟩ | ⟨rfl, hnot⟩
  · simp only [lighterSlot, hl, hz, hlt, if_true]
  · cases hl : heap[c]? with
    | none => simp only [lighterSlot, hl]
    | some l => simp [lighterSlot, hl, hz, hnot l hl]

/-- One round of the sift-down, to the slot the node sinks to (R163). -/
theorem siftDown_round {lt : Index → Index → Bool} {fuel : Nat} {heap : List Index} {i : Nat} {x y : Index}
    (hfuel : heap.length ≤ fuel + i) (hx : heap[i]? = some x) (hy : heap[sinkSlot lt heap i]? = some y) :
    siftDown lt fuel heap i =
      if sinkSlot lt heap i = i then heap
      else siftDown lt heap.length (swapSlots heap i (sinkSlot lt heap i) x y) (sinkSlot lt heap i) := by
  have hi : i < heap.length := (List.getElem?_eq_some_iff.mp hx).1
  obtain ⟨fuel, rfl⟩ : ∃ n, fuel = n + 1 := ⟨fuel - 1, by omega⟩
  simp only [siftDown, hx, hy]
  split
  · rfl
  · next hmove =>
    have hlt := sinkSlot_lt hmove
    exact siftDown_fuel (by rw [swapSlots_length]; omega) (by rw [swapSlots_length]; omega)

/-- Settles O22: each round is an equation of the sift in which the bound has been replaced, and the two selections of a
sift-down round fix the slot the node sinks to. -/
theorem siftLoopsFollowTheRules : Obligations.SiftLoopsFollowTheRules := by
  refine ⟨fun _ _ _ => lighter_iff, fun lt => ⟨fun _ _ => rfl, rfl, fun _ => rfl, heapExtract_concat lt, ?_⟩⟩
  intro fuel heap i x hx
  refine ⟨?_, fun y hi hfuel hy => siftUp_round hi hfuel hx hy, ?_⟩
  · rintro rfl
    exact siftUp_zero lt fuel heap
  · intro s j z y hfuel hs hz hj hy
    have hsink : sinkSlot lt heap i = j := by
      rw [sinkSlot, lighterSlot_eq hx hs, lighterSlot_eq hz hj]
    subst hsink
    exact siftDown_round hfuel hx hy

/-! PQX. -/

theorem pqxEffect_of_empty {s : State} (h : s.heap = []) : pqxEffect s = .ok (Done.empty s) := by
  rw [pqxEffect, pqExtract_eq_none.mpr h]

/-- The state PQX writes: the tag X, one node more in the host's hands, and the heap without it (R167). -/
def takenOut (m : Index) (rest : List Index) (s : State) : State :=
  { s.setOwner m .x with xcnt := s.xcnt + 1, heap := rest }

theorem pqxEffect_of_extract {s : State} {m : Index} {rest : List Index}
    (h : heapExtract (lighter s.node) s.heap = some (m, rest)) :
    pqxEffect s = .ok (Done.ok (takenOut m rest s) (m.setWidth 72)) := by
  simp only [pqxEffect, pqExtract, h]
  rfl

/-- Settles O26: the phase is TV = 0, and PQX is PQ.extractMin on the queue with the node's tag written. -/
theorem pqxExtractsTheLeast : Obligations.PqxExtractsTheLeast := by
  intro s her _
  refine ⟨by decide, fun htv => ?_, fun htv => ?_⟩
  · exact exec_out_of_sequence her rfl (by simp [phaseOk, htv])
  · have hp : passes .pqx s := passes_of_phase her rfl (by simp [phaseOk, htv])
    refine ⟨fun hempty => exec_of_passes hp (pqxEffect_of_empty hempty), fun hne => ?_⟩
    obtain ⟨⟨m, rest⟩, hx⟩ := Option.ne_none_iff_exists'.mp (mt heapExtract_eq_none.mp hne)
    exact ⟨m, rest, _, hx, exec_of_passes hp (pqxEffect_of_extract hx), State.setOwner_length s m .x,
      fun _ _ he => setOwner_getElem? he, rfl⟩

/-! RDH. -/

theorem rdhEffect_of_none {i : Index} {s : State} (h : s.heap[i.toNat]? = none) :
    rdhEffect i s = .ok (Done.empty s) := by
  rw [rdhEffect, h]

theorem rdhEffect_of_some {i : Index} {s : State} {n : Index} (h : s.heap[i.toNat]? = some n) :
    rdhEffect i s = .ok (Done.ok s (n.setWidth 72)) := by
  rw [rdhEffect, h]

/-- Settles O27: the faulted engine accepts RDH too, so it always reaches its own part. -/
theorem rdhReadsTheSlot : Obligations.RdhReadsTheSlot := fun i s =>
  ⟨assemble_operand (by decide) 0x12 i,
    fun h => exec_of_accepted (i := .rdh i) rfl (rdhEffect_of_none (List.getElem?_eq_none h)),
    fun _ h => exec_of_accepted (i := .rdh i) rfl (rdhEffect_of_some h)⟩

end Sys2Proof.Machine
end

section
/-! SUPPORT. The two reads of the node arena (spec/42_tree_builder.md rules R185, R186), and GEN of a build without a
tree to walk (spec/43_code_generator.md rules R201, R204). -/

namespace Sys2Proof.Machine

/-! RDNW. -/

theorem rdnwEffect_of_none {n : Index} {s : State} (h : s.node[n.toNat]? = none) :
    rdnwEffect n s = .ok (Done.empty s) := by
  rw [rdnwEffect, h]

theorem rdnwEffect_of_some {n : Index} {s : State} {e : Node} (h : s.node[n.toNat]? = some e) :
    rdnwEffect n s = .ok (Done.ok s e.w) := by
  rw [rdnwEffect, h]

/-- Settles O33: the faulted engine accepts RDNW too, so it always reaches its own part. -/
theorem rdnwReadsTheWeight : Obligations.RdnwReadsTheWeight := fun n s =>
  ⟨assemble_operand (by decide) 0x24 n,
    fun h => exec_of_accepted (i := .rdnw n) rfl (rdnwEffect_of_none (List.getElem?_eq_none h)),
    fun _ h => exec_of_accepted (i := .rdnw n) rfl (rdnwEffect_of_some h)⟩

/-! RDNL. -/

theorem rdnlEffect_of_none {n : Index} {s : State} (h : s.node[n.toNat]? = none) :
    rdnlEffect n s = .ok (Done.empty s) := by
  rw [rdnlEffect, h]

theorem rdnlEffect_of_some {n : Index} {s : State} {e : Node} (h : s.node[n.toNat]? = some e) :
    rdnlEffect n s = .ok (Done.ok s (e.linkWord.setWidth 72)) := by
  rw [rdnlEffect, h]

/-- A field moved to its place in the link word loses no bit. -/
theorem field_toNat {n : Nat} (v : BitVec n) (i : Nat) (h : n + i ≤ 29) :
    (v.setWidth 29 <<< i).toNat = v.toNat <<< i := by
  have hlt : v.toNat <<< i < 2 ^ 29 := by
    rw [Nat.shiftLeft_eq]
    calc v.toNat * 2 ^ i < 2 ^ n * 2 ^ i := Nat.mul_lt_mul_of_pos_right v.isLt (Nat.two_pow_pos i)
      _ ≤ 2 ^ 29 := by rw [← Nat.pow_add]; exact Nat.pow_le_pow_right (by decide) h
  rw [BitVec.toNat_shiftLeft, BitVec.toNat_setWidth_of_le (by omega), Nat.mod_eq_of_lt hlt]

/-- A field joined to what lies below it adds to it. -/
theorem shiftLeft_or_eq_add {b : Nat} (a i : Nat) (h : b < 2 ^ i) : a <<< i ||| b = a * 2 ^ i + b := by
  rw [← Nat.shiftLeft_add_eq_or_of_lt h, Nat.shiftLeft_eq]

/-- The five fields of the link word stand side by side, with nothing above them (R186). -/
theorem linkWord_toNat (e : Node) :
    e.linkWord.toNat = e.own.bits.toNat * 2 ^ 27 + (e.k.toNat * 2 ^ 26 + (e.sym.toNat * 2 ^ 18 +
      (e.right.toNat * 2 ^ 9 + e.left.toNat))) := by
  have hk := e.k.isLt
  have hsym := e.sym.isLt
  have hr := e.right.isLt
  have hl := e.left.isLt
  simp only [Node.linkWord, BitVec.toNat_or, Nat.or_assoc]
  rw [field_toNat _ 27 (by decide), field_toNat _ 26 (by decide), field_toNat _ 18 (by decide),
    field_toNat _ 9 (by decide), BitVec.toNat_setWidth_of_le (by decide)]
  rw [shiftLeft_or_eq_add _ 9 hl, shiftLeft_or_eq_add _ 18 (by omega), shiftLeft_or_eq_add _ 26 (by omega),
    shiftLeft_or_eq_add _ 27 (by omega)]

/-- Each field is read back from its place in the response (R186). -/
theorem linkWord_fields (e : Node) :
    let d : Data := e.linkWord.setWidth 72
    d.extractLsb' 0 9 = e.left ∧ d.extractLsb' 9 9 = e.right ∧ d.extractLsb' 18 8 = e.sym ∧
    d.extractLsb' 26 1 = e.k ∧ d.extractLsb' 27 2 = e.own.bits ∧ d.toNat < 2 ^ 29 := by
  have ho := e.own.bits.isLt
  have hk := e.k.isLt
  have hsym := e.sym.isLt
  have hr := e.right.isLt
  have hl := e.left.isLt
  have hd : (e.linkWord.setWidth 72).toNat = e.linkWord.toNat := BitVec.toNat_setWidth_of_le (by decide)
  simp only [← BitVec.toNat_inj, BitVec.extractLsb'_toNat, hd, linkWord_toNat, Nat.shiftRight_eq_div_pow]
  omega

/-- Settles O34: the faulted engine accepts RDNL too, and the link word is the sum of its fields, each at its place. -/
theorem rdnlReadsTheLinks : Obligations.RdnlReadsTheLinks := fun n s =>
  ⟨assemble_operand (by decide) 0x25 n,
    fun h => exec_of_accepted (i := .rdnl n) rfl (rdnlEffect_of_none (List.getElem?_eq_none h)),
    fun e h => ⟨_, exec_of_accepted (i := .rdnl n) rfl (rdnlEffect_of_some h), linkWord_fields e⟩⟩

/-! GEN. -/

/-- The state GEN writes: the code table, and CV (R201). -/
def withCodes (code : Memory Code) (s : State) : State :=
  { s with code := code, flags := { s.flags with cv := true } }

theorem genEffect_of_table {s : State} {g : Walked} (h : codeTable s = some g) :
    genEffect s = .ok (Done.ok (withCodes g.code s) (BitVec.ofNat 72 g.cnt)) := by
  rw [genEffect, h, withCodes]

theorem codeTable_of_empty {s : State} (hem : s.flags.em = true) : codeTable s = some ⟨[], 0⟩ := by
  rw [codeTable, if_pos hem]

theorem codeTable_of_degenerate {s : State} (hem : s.flags.em = false) (hdg : s.flags.dg = true) :
    codeTable s = some (degenerateTable s) := by
  simp [codeTable, hem, hdg]

/-- The degenerate table has the code of the one symbol and no other (R201, R204). -/
theorem read_degenerateTable (s : State) (a : Byte) :
    Memory.read Code.none (degenerateTable s).code a.toNat =
      if a = (s.nodeAt (s.nodeAt s.root).left).sym then ⟨1, 0⟩ else Code.none := by
  rw [degenerateTable, Walked.record]
  split
  · next h => rw [h, Memory.read_write_same]
  · next h => rw [Memory.read_write_other _ _ _ (mt BitVec.eq_of_toNat_eq h), Memory.read]

/-- Settles O35: the phase is TV = 1, and the table is the one of the empty or of the degenerate build. -/
theorem genOfDegenerateBuilds : Obligations.GenOfDegenerateBuilds := by
  intro s her
  refine ⟨by decide, fun htv => exec_out_of_sequence her rfl htv, fun htv => ?_⟩
  have hp : passes .gen s := passes_of_phase her rfl htv
  refine ⟨fun hem => ?_, fun hem hdg => ?_⟩
  · exact ⟨_, exec_of_passes hp (genEffect_of_table (codeTable_of_empty hem)), fun _ => rfl, rfl⟩
  · exact ⟨_, exec_of_passes hp (genEffect_of_table (codeTable_of_degenerate hem hdg)),
      read_degenerateTable s, rfl⟩

end Sys2Proof.Machine
end

section
/-! SUPPORT. One merge and the end of a build: MRG and FIN, each stage as an equation where the queue and the arena
allow it (spec/42_tree_builder.md rules R182, R183, R187, R188). -/

namespace Sys2Proof.Machine

/-- NCNT as a response's data, while there is room for one more entry (R37). -/
theorem ncnt_setWidth {s : State} (h : s.node.length < Config.ncap) :
    s.ncnt.setWidth 72 = BitVec.ofNat 72 s.node.length := by
  have hcap : Config.ncap = 511 := rfl
  rw [State.ncnt, ofNat_index_setWidth, Nat.mod_eq_of_lt (by omega)]

/-! MRG. -/

/-- The parent a merge makes of the nodes a and b (R182). -/
def parentOf (a b : Index) (s : State) : Node :=
  ⟨.internal a b, narrowWeight s.cfg ((s.nodeAt a).w + (s.nodeAt b).w), .q⟩

/-- The arena after a merge: the tags of the two children, and their parent. -/
def mergedArena (a b : Index) (s : State) : List Node :=
  retag (retag s.node a .p) b .p ++ [parentOf a b s]

/-- The state a merge of a and b leaves, `rest` being the queue without them (R182). -/
def merged (a b : Index) (rest : List Index) (s : State) : State :=
  { s with
    node := mergedArena a b s
    heap := heapInsert (lighter (mergedArena a b s)) rest s.ncnt }

theorem mergeTwo_of_extract {s : State} {a b : Index} {h1 h2 : List Index}
    (ha : heapExtract (lighter s.node) s.heap = some (a, h1)) (hb : heapExtract (lighter s.node) h1 = some (b, h2))
    (hroom : s.node.length < Config.ncap) (hqueue : h2.length < Config.qcap) :
    mergeTwo s = .ok (some (merged a b h2 s)) := by
  simp only [mergeTwo, pqExtract, ha, hb]
  rw [allocateQueued_of_room (by simpa using hroom) hqueue]
  simp [merged, mergedArena, parentOf, State.nodeAt, State.ncnt, retag]

theorem heapExtract_of_pos {lt : Index → Index → Bool} {heap : List Index} (h : 0 < heap.length) :
    ∃ m rest, heapExtract lt heap = some (m, rest) ∧ heap.length = rest.length + 1 := by
  obtain ⟨⟨m, rest⟩, hx⟩ := Option.ne_none_iff_exists'.mp (mt heapExtract_eq_none.mp (List.length_pos_iff.mp h))
  exact ⟨m, rest, hx, heapExtract_length hx⟩

/-- A queue of two nodes or more gives two. -/
theorem heapExtract_two {lt : Index → Index → Bool} {heap : List Index} (h : 2 ≤ heap.length) :
    ∃ a b h1 h2, heapExtract lt heap = some (a, h1) ∧ heapExtract lt h1 = some (b, h2) ∧
      heap.length = h2.length + 2 := by
  obtain ⟨a, h1, ha, hlen1⟩ := heapExtract_of_pos (lt := lt) (heap := heap) (by omega)
  obtain ⟨b, h2, hb, hlen2⟩ := heapExtract_of_pos (lt := lt) (heap := h1) (by omega)
  exact ⟨a, b, h1, h2, ha, hb, by omega⟩

theorem mrgEffect_of_few {s : State} (h : s.heap.length < 2) : mrgEffect s = .ok (Done.empty s) := by
  rw [mrgEffect, mergeTwo_none.mpr h]

theorem mrgEffect_of_merge {s t : State} (h : mergeTwo s = .ok (some t)) :
    mrgEffect s = .ok (Done.ok t (s.ncnt.setWidth 72)) := by
  rw [mrgEffect, h]

theorem mergedArena_length (a b : Index) (s : State) : (mergedArena a b s).length = s.node.length + 1 := by
  simp [mergedArena]

/-- A merge writes the tags of the two children and no other part of an entry (R55, R182). -/
theorem mergedArena_old (a b : Index) {s : State} {j : Nat} {e : Node} (h : s.node[j]? = some e) :
    (mergedArena a b s)[j]? = some (if j = a.toNat ∨ j = b.toNat then { e with own := .p } else e) := by
  have hj : j < s.node.length := (List.getElem?_eq_some_iff.mp h).1
  have ha := setOwner_getElem? (s := s) (n := a) (o := .p) h
  have hb := setOwner_getElem? (s := s.setOwner a .p) (n := b) (o := .p) ha
  rw [mergedArena, List.getElem?_append_left (by simpa using hj)]
  refine hb.trans ?_
  by_cases hja : j = a.toNat
  · simp [hja]
  · simp [hja]

theorem mergedArena_new (a b : Index) (s : State) : (mergedArena a b s)[s.node.length]? = some (parentOf a b s) := by
  have hlen : (retag (retag s.node a .p) b .p).length = s.node.length := by simp
  rw [mergedArena, ← hlen, List.getElem?_concat_length]

/-- Settles O29: the phase is QL = 1 and TV = 0, and two nodes in the queue can be extracted. -/
theorem mrgMergesTheTwoLeast : Obligations.MrgMergesTheTwoLeast := by
  intro s her
  refine ⟨by decide, fun hclosed => ?_, fun hql htv => ?_⟩
  · exact exec_out_of_sequence her rfl (by simpa [phaseOk, or_iff_not_imp_left] using hclosed)
  · have hp : passes .mrg s := passes_of_phase her rfl (by simp [phaseOk, hql, htv])
    refine ⟨fun hfew => exec_of_passes hp (mrgEffect_of_few hfew), fun htwo hqueue hroom _ => ?_⟩
    obtain ⟨a, b, h1, h2, ha, hb, hlen⟩ := heapExtract_two htwo
    have hmerge := mergeTwo_of_extract ha hb hroom (by rw [Config.qcap]; omega)
    refine ⟨a, b, h1, h2, _, ha, hb, exec_of_passes hp (mrgEffect_of_merge hmerge), mergedArena_length a b s,
      fun _ _ => mergedArena_old a b, mergedArena_new a b s, rfl, ?_⟩
    rw [ncnt_setWidth hroom]
    rfl

/-! FIN. -/

theorem isLeaf_eq_true_iff {e : Node} : e.isLeaf = true ↔ ∃ a, e.kind = .leaf a := by
  rw [Node.isLeaf]
  cases e.kind <;> simp

theorem isLeaf_eq_false_iff {e : Node} : e.isLeaf = false ↔ ∃ l r, e.kind = .internal l r := by
  rw [Node.isLeaf]
  cases e.kind <;> simp

/-- The state of an empty build (R187). -/
def emptyBuild (s : State) : State :=
  { s with root := 0, flags := { s.flags with em := true, tv := true } }

/-- The synthetic root above the node m (R188). -/
def syntheticAbove (m : Index) (s : State) : Node := ⟨.internal m m, narrowWeight s.cfg (s.nodeAt m).w, .r⟩

/-- The state of a build of one Leaf m, the queue emptied of it (R188). -/
def degenerateBuild (m : Index) (s : State) : State :=
  { s with
    node := retag s.node m .p ++ [syntheticAbove m s]
    heap := []
    root := s.ncnt
    flags := { s.flags with dg := true, tv := true } }

/-- The state of a build whose root is the node m left in the queue (R183). -/
def rootedBuild (m : Index) (s : State) : State :=
  { s.setOwner m .r with heap := [], root := m, flags := { s.flags with tv := true } }

theorem pqExtract_of_single {s : State} {m : Index} (h : s.heap = [m]) :
    pqExtract s = some (m, { s with heap := [] }) := by
  rw [pqExtract, h]
  rfl

theorem finEffect_of_empty {s : State} (h : s.heap = []) : finEffect s = .ok (Done.empty (emptyBuild s)) := by
  rw [finEffect, pqExtract_eq_none.mpr h, emptyBuild]

theorem syntheticRoot_of_room {m : Index} {s : State} (hroom : s.node.length < Config.ncap) :
    syntheticRoot m { s with heap := [] } = .ok (degenerateBuild m s) := by
  simp [syntheticRoot, allocate, hroom, degenerateBuild, syntheticAbove, State.nodeAt, State.ncnt, retag]

theorem finEffect_of_leaf {s : State} {m : Index} {a : Byte} (h : s.heap = [m]) (hk : (s.nodeAt m).kind = .leaf a)
    (hroom : s.node.length < Config.ncap) :
    finEffect s = .ok (Done.ok (degenerateBuild m s) (s.ncnt.setWidth 72)) := by
  simp only [finEffect, pqExtract_of_single h, hk, syntheticRoot_of_room hroom]
  rfl

theorem finEffect_of_internal {s : State} {m l r : Index} (h : s.heap = [m])
    (hk : (s.nodeAt m).kind = .internal l r) : finEffect s = .ok (Done.ok (rootedBuild m s) (m.setWidth 72)) := by
  simp only [finEffect, pqExtract_of_single h, hk]
  rfl

theorem finishOpen_eq_false_iff {s : State} :
    s.finishOpen = false ↔ s.flags.ql = false ∨ s.flags.tv = true ∨ 1 < s.heap.length ∨ s.xcnt ≠ 0 := by
  rw [← Bool.not_eq_true, finishOpen_iff]
  simp only [not_and_or, Bool.not_eq_true, Bool.not_eq_false, Nat.not_le]

/-- The degenerate build, entry by entry: the Leaf's tag, and the synthetic root at the end (R188). -/
theorem degenerateBuild_node (m : Index) (s : State) :
    (degenerateBuild m s).node.length = s.node.length + 1 ∧
    (∀ (j : Nat) (f : Node), s.node[j]? = some f →
      (degenerateBuild m s).node[j]? = some (if j = m.toNat then { f with own := .p } else f)) ∧
    (degenerateBuild m s).node[s.node.length]? = some (syntheticAbove m s) := by
  have hlen : (retag s.node m .p).length = s.node.length := retag_length _ _ _
  refine ⟨by simp [degenerateBuild], fun j f hj => ?_, ?_⟩
  · have hlt : j < s.node.length := (List.getElem?_eq_some_iff.mp hj).1
    rw [degenerateBuild, List.getElem?_append_left (by rwa [hlen])]
    exact setOwner_getElem? hj
  · rw [degenerateBuild, ← hlen, List.getElem?_concat_length]

/-- Settles O30: in FIN's phase the queue is empty or holds one node, whose kind decides how the build ends. -/
theorem finNamesTheRoot : Obligations.FinNamesTheRoot := by
  intro s her
  refine ⟨by decide, fun hclosed => ?_, fun hql htv hx => ?_⟩
  · exact exec_out_of_sequence her rfl (finishOpen_eq_false_iff.mpr hclosed)
  have hp (hlen : s.heap.length ≤ 1) : passes .fin s :=
    passes_of_phase her rfl (finishOpen_iff.mpr ⟨hql, htv, hlen, hx⟩)
  refine ⟨fun hheap => exec_of_passes (hp (by simp [hheap])) (finEffect_of_empty hheap), fun m e hheap he => ?_⟩
  have hp := hp (by simp [hheap])
  have hm : s.nodeAt m = e := nodeIn_of_getElem he
  refine ⟨fun hkind => ?_, fun hkind hroom => ?_⟩
  · obtain ⟨l, r, hk⟩ := isLeaf_eq_false_iff.mp hkind
    exact ⟨_, exec_of_passes hp (finEffect_of_internal hheap (hm ▸ hk)), State.setOwner_length s m .r,
      fun _ _ hj => setOwner_getElem? hj, rfl⟩
  · obtain ⟨a, hk⟩ := isLeaf_eq_true_iff.mp hkind
    obtain ⟨hlen, hold, hnew⟩ := degenerateBuild_node m s
    have hweight : syntheticAbove m s = ⟨.internal m m, narrowWeight s.cfg e.w, .r⟩ := by rw [syntheticAbove, hm]
    refine ⟨_, exec_of_passes hp (finEffect_of_leaf hheap (hm ▸ hk) hroom), hlen, hold, hnew.trans (by rw [hweight]),
      ?_⟩
    rw [ncnt_setWidth hroom]
    rfl

end Sys2Proof.Machine
end

section
/-! SUPPORT. MKL whole (spec/42_tree_builder.md rule R181): the loop appends one Leaf for each symbol present and
inserts it, so the queue is the leaves inserted in turn under the comparison of the finished arena. -/

namespace Sys2Proof.Machine

/-! The comparison during the loop and after it. -/

/-- A sift-up compares nodes of HEAP only (R162). -/
theorem siftUp_congr {lt lt' : Index → Index → Bool} {fuel : Nat} {heap : List Index} {i : Nat}
    (h : ∀ x ∈ heap, ∀ y ∈ heap, lt x y = lt' x y) : siftUp lt fuel heap i = siftUp lt' fuel heap i := by
  induction fuel generalizing heap i with
  | zero => rfl
  | succ fuel ih =>
    simp only [siftUp]
    split
    · rfl
    · split
      · next x y hx hy =>
        have hp := swapSlots_perm hx hy
        rw [h x (List.mem_of_getElem? hx) y (List.mem_of_getElem? hy),
          ih fun x hx y hy => h x (hp.mem_iff.mp hx) y (hp.mem_iff.mp hy)]
      · rfl

/-- PQ.insert compares the new node and nodes of HEAP only. -/
theorem heapInsert_congr {lt lt' : Index → Index → Bool} {heap : List Index} {n : Index}
    (h : ∀ x ∈ heap ++ [n], ∀ y ∈ heap ++ [n], lt x y = lt' x y) : heapInsert lt heap n = heapInsert lt' heap n :=
  siftUp_congr h

/-- Later entries do not change a comparison of earlier ones. -/
theorem lighter_append {arena : List Node} (more : List Node) {x y : Index} (hx : x.toNat < arena.length)
    (hy : y.toNat < arena.length) : lighter (arena ++ more) x y = lighter arena x y := by
  rw [lighter, lighter, nodeIn, nodeIn, List.getElem?_append_left hx, List.getElem?_append_left hy]
  rfl

/-- Later entries do not change an insertion of an earlier one. -/
theorem heapInsert_append {arena : List Node} (more : List Node) {heap : List Index} {n : Index}
    (hheap : ∀ x ∈ heap, x.toNat < arena.length) (hn : n.toNat < arena.length) :
    heapInsert (lighter (arena ++ more)) heap n = heapInsert (lighter arena) heap n := by
  have hall : ∀ x ∈ heap ++ [n], x.toNat < arena.length := by
    intro x hx
    rcases List.mem_append.mp hx with hx | hx
    · exact hheap x hx
    · rwa [List.mem_singleton.mp hx]
  exact heapInsert_congr fun x hx y hy => lighter_append more (hall x hx) (hall y hy)

/-! The loop. -/

/-- The symbols of a list that have a nonzero count. -/
def presentIn (s : State) (left : List Byte) : List Byte := left.filter (fun a => decide (s.freqAt a ≠ 0))

/-- The Leaf MKL makes for a symbol (R181). -/
def leafOf (s : State) (a : Byte) : Node := ⟨.leaf a, (s.freqAt a).setWidth 72, .q⟩

/-- The queue after the numbered nodes are inserted in turn. -/
def insertAll (arena : List Node) (numbers : List Nat) (heap : List Index) : List Index :=
  numbers.foldl (fun heap n => heapInsert (lighter arena) heap (BitVec.ofNat 9 n)) heap

/-- The loop of MKL ends where arena and queue have room for every symbol left. -/
theorem makeLeaves_ends {left : List Byte} {total : Weight} {s : State}
    (hroom : s.node.length + left.length ≤ Config.ncap) (hqueue : s.heap.length + left.length ≤ Config.qcap) :
    ∃ w t, makeLeaves left total s = .ok (w, t) := by
  induction left generalizing total s with
  | nil => exact ⟨_, _, rfl⟩
  | cons a rest ih =>
    rw [List.length_cons] at hroom hqueue
    simp only [makeLeaves]
    split
    · exact ih (by omega) (by omega)
    · rw [allocateQueued_of_room (by omega) (by omega)]
      exact ih (by simp; omega) (by simp; omega)

/-- The loop of MKL makes the leaves in order and inserts them in order (R181). -/
theorem makeLeaves_loads {left : List Byte} {total w : Weight} {s t : State}
    (hfit : ∀ a, (s.freqAt a).toNat < 2 ^ s.cfg.bits) (hheap : ∀ n ∈ s.heap, n.toNat < s.node.length)
    (h : makeLeaves left total s = .ok (w, t)) :
    t.node = s.node ++ (presentIn s left).map (leafOf s) ∧
    t.heap = insertAll t.node (List.range' s.node.length (presentIn s left).length) s.heap := by
  induction left generalizing total s with
  | nil =>
    cases h
    simp [presentIn, insertAll]
  | cons a rest ih =>
    simp only [makeLeaves] at h
    split at h
    · next h0 =>
      have hskip : presentIn s (a :: rest) = presentIn s rest := List.filter_cons_of_neg (by simp [h0])
      rw [hskip]
      exact ih hfit hheap h
    · next hne =>
      have htake : presentIn s (a :: rest) = a :: presentIn s rest := List.filter_cons_of_pos (by simpa using hne)
      split at h
      · next u hu =>
        obtain ⟨hroom, -, rfl⟩ := allocateQueued_ok hu
        rw [narrowWeight_count (hfit a), State.ncnt] at h
        have hncnt : (BitVec.ofNat 9 s.node.length).toNat = s.node.length := State.ncnt_toNat hroom
        have hold : ∀ n ∈ s.heap, n.toNat < (s.node ++ [leafOf s a]).length := fun n hn => by
          simpa using Nat.lt_succ_of_lt (hheap n hn)
        have hnew : (BitVec.ofNat 9 s.node.length).toNat < (s.node ++ [leafOf s a]).length := by
          simp [hncnt]
        obtain ⟨hnode, hqueue⟩ := ih (by exact hfit) (fun n hn => by
          rcases List.mem_cons.mp ((heapInsert_perm _ _ _).mem_iff.mp hn) with rfl | hn
          · exact hnew
          · exact hold n hn) h
        have hstep : heapInsert (lighter t.node) s.heap (BitVec.ofNat 9 s.node.length) =
            heapInsert (lighter (s.node ++ [leafOf s a])) s.heap (BitVec.ofNat 9 s.node.length) := by
          rw [hnode]
          exact heapInsert_append _ hold hnew
        rw [htake, List.length_cons, List.range'_succ, List.map_cons, List.append_cons]
        refine ⟨hnode, hqueue.trans ?_⟩
        rw [insertAll, insertAll, List.foldl_cons, hstep, List.length_append]
        rfl
      · cases h

/-! The command. -/

theorem State.present_length_le (s : State) : s.present.length ≤ 256 :=
  (List.length_filter_le _ _).trans_eq symbols_length

/-- 256 counters of CW bits add up to a value of WW bits (R6, decision D5). -/
theorem freqSum_lt_of_counts {s : State} (hfit : ∀ a, (s.freqAt a).toNat < 2 ^ s.cfg.bits) :
    s.freqSum < 2 ^ s.cfg.weightBits := by
  have hle := List.sum_le_card_nsmul (symbols.map (fun a => (s.freqAt a).toNat)) (2 ^ s.cfg.bits - 1) (by
    rintro _ hc
    obtain ⟨a, -, rfl⟩ := List.mem_map.mp hc
    exact Nat.le_pred_of_lt (hfit a))
  rw [List.length_map, symbols_length, smul_eq_mul] at hle
  have hpow : 2 ^ s.cfg.weightBits = 2 ^ s.cfg.bits * 256 := pow_add 2 s.cfg.bits 8
  have hpos : 0 < 2 ^ s.cfg.bits := Nat.two_pow_pos _
  rw [State.freqSum]
  omega

theorem loadQueue_of_leaves {s t : State} {w : Weight} (h : makeLeaves symbols 0 s = .ok (w, t)) :
    loadQueue s = .ok { t with total := w, flags := { t.flags with ql := true } } := by
  rw [loadQueue, h]

/-- MKL on an empty arena and queue (R181). -/
theorem loadQueue_loads {s : State} (hnode : s.node = []) (hheap : s.heap = [])
    (hfit : ∀ a, (s.freqAt a).toNat < 2 ^ s.cfg.bits) :
    ∃ t, loadQueue s = .ok t ∧ t.node = s.present.map (leafOf s) ∧
      t.heap = insertAll t.node (List.range s.present.length) [] ∧ t.total.toNat = s.freqSum := by
  obtain ⟨w, t, ht⟩ := makeLeaves_ends (left := symbols) (total := 0) (s := s)
    (by rw [hnode, symbols_length]; decide) (by rw [hheap, symbols_length]; decide)
  obtain ⟨hleaves, hqueue⟩ := makeLeaves_loads hfit (by simp [hheap]) ht
  have hzero : (0 : Weight).toNat + countSum s symbols = s.freqSum := Nat.zero_add _
  obtain ⟨-, -, htotal⟩ := makeLeaves_weighs (by simp [hnode, hheap, QueueOwned]) (by simp [hnode])
    (hzero ▸ freqSum_lt_of_counts hfit) ht
  rw [hnode, hheap] at hqueue
  rw [hnode] at hleaves
  refine ⟨_, loadQueue_of_leaves ht, hleaves, ?_, htotal.trans hzero⟩
  rw [List.range_eq_range']
  exact hqueue

theorem mklEffect_of_load {s t : State} (h : loadQueue s = .ok t) :
    mklEffect s = .ok (Done.ok t (t.ncnt.setWidth 72)) := by
  rw [mklEffect, h]

/-- Settles O28: the phase is an open table, the arena and the queue have room for 256 leaves, and the leaves are as
many as the symbols present. -/
theorem mklMakesTheLeaves : Obligations.MklMakesTheLeaves := by
  intro s her
  refine ⟨by decide, fun hclosed => ?_, fun hql htv hnode hheap hfit => ?_⟩
  · exact exec_out_of_sequence her rfl (tableOpen_eq_false_iff.mpr hclosed)
  · have hp : passes .mkl s := passes_of_phase her rfl (tableOpen_iff.mpr ⟨hql, htv⟩)
    obtain ⟨t, ht, hleaves, hqueue, htotal⟩ := loadQueue_loads hnode hheap hfit
    have hcount : t.node.length = s.present.length := by rw [hleaves, List.length_map]
    have hle := s.present_length_le
    have hcap : Config.ncap = 511 := rfl
    refine ⟨_, exec_of_passes hp (mklEffect_of_load ht), hleaves, hqueue, htotal, ?_⟩
    rw [ncnt_setWidth (by omega), hcount]
    obtain ⟨_, _, _, rfl⟩ := loadQueue_shape ht
    rfl

end Sys2Proof.Machine
end

section
/-! SUPPORT. BLD as the staged build (spec/42_tree_builder.md rule R184): its stages are those of MKL, MRG and FIN, and
none of them looks at what has been sent in between. -/

namespace Sys2Proof.Machine

/-! The stages of BLD. -/

theorem bldEffect_of_stages {s t u : State} (ht : loadQueue s = .ok t) (hu : mergeAll t.heap.length t = .ok u)
    (hopen : u.finishOpen = true) : bldEffect s = finEffect u := by
  simp only [bldEffect, ht, hu, hopen, if_true]

/-- BLD's merges stop on a queue of fewer than two nodes. -/
theorem mergeAll_of_few {fuel : Nat} {s : State} (h : s.heap.length < 2) : mergeAll fuel s = .ok s := by
  cases fuel with
  | zero => rfl
  | succ fuel => rw [mergeAll, mergeTwo_none.mpr h]

theorem mergeAll_of_merge {fuel : Nat} {s t : State} (h : mergeTwo s = .ok (some t)) :
    mergeAll (fuel + 1) s = mergeAll fuel t := by
  rw [mergeAll, h]

/-- The three endings of FIN on the queue its phase allows, with all of its response (R183). -/
theorem finEffect_endings {s : State} {d : Done} (hlen : s.heap.length ≤ 1) (h : finEffect s = .ok d) :
    (s.heap = [] ∧ d = Done.empty (emptyBuild s)) ∨
    (∃ m a, s.heap = [m] ∧ (s.nodeAt m).kind = .leaf a ∧ s.node.length < Config.ncap ∧
      d = Done.ok (degenerateBuild m s) (s.ncnt.setWidth 72)) ∨
    ∃ m l r, s.heap = [m] ∧ (s.nodeAt m).kind = .internal l r ∧ d = Done.ok (rootedBuild m s) (m.setWidth 72) := by
  rcases finEffect_cases h with ⟨hheap, -⟩ | ⟨m, rest, hx, ⟨a, hk, hu⟩ | ⟨l, r, hk, -⟩⟩
  · exact .inl ⟨hheap, Except.ok.inj (h.symm.trans (finEffect_of_empty hheap))⟩
  · obtain ⟨hheap, -⟩ := heapExtract_last hlen hx
    obtain ⟨hroom, -⟩ := syntheticRoot_ok hu
    exact .inr (.inl ⟨m, a, hheap, hk, hroom, Except.ok.inj (h.symm.trans (finEffect_of_leaf hheap hk hroom))⟩)
  · obtain ⟨hheap, -⟩ := heapExtract_last hlen hx
    exact .inr (.inr ⟨m, l, r, hheap, hk, Except.ok.inj (h.symm.trans (finEffect_of_internal hheap hk))⟩)

/-! The stages do not look at what has been sent. -/

/-- The state with another output history. -/
def State.withSent (s : State) (out : List Sent) : State := { s with sent := out }

theorem mergeTwo_withSent {s t : State} (out : List Sent) (h : mergeTwo s = .ok (some t)) :
    mergeTwo (s.withSent out) = .ok (some (t.withSent out)) := by
  obtain ⟨a, b, h1, h2, ha, hb, hroom, hqueue, rfl⟩ := mergeTwo_some h
  exact mergeTwo_of_extract (s := s.withSent out) ha hb hroom hqueue

theorem finEffect_withSent {s : State} {d : Done} (out : List Sent) (hlen : s.heap.length ≤ 1)
    (h : finEffect s = .ok d) : finEffect (s.withSent out) = .ok { d with state := d.state.withSent out } := by
  rcases finEffect_endings hlen h with
    ⟨hheap, rfl⟩ | ⟨m, a, hheap, hk, hroom, rfl⟩ | ⟨m, l, r, hheap, hk, rfl⟩
  · exact finEffect_of_empty (s := s.withSent out) hheap
  · exact finEffect_of_leaf (s := s.withSent out) hheap hk hroom
  · exact finEffect_of_internal (s := s.withSent out) hheap hk

/-! The staged build. -/

/-- The three ways a command ends, as `exec_responds` has them, the refusal told as that of the faulted engine. -/
theorem exec_ends {i : Instr} {s t : State} (h : exec i s = .next t) :
    (s.flags.er = true ∧ t = s.answered [] .faulted 0) ∨ (∃ c word, t = s.faulted c word) ∨
    (∃ d, passes i s ∧ effectOf i s = .ok d ∧ t = d.state.answered d.bytes d.st d.data) := by
  rw [exec_eq_command] at h
  rcases command_cases i (effectOf i) s with ⟨her, -, hc⟩ | ⟨-, -, hc⟩ | ⟨-, -, -, hc⟩ | ⟨hp, hc⟩
  · exact .inl ⟨her, by cases hc.symm.trans h; rfl⟩
  · exact .inr (.inl ⟨_, _, by cases hc.symm.trans h; rfl⟩)
  · exact .inr (.inl ⟨_, _, by cases hc.symm.trans h; rfl⟩)
  · rcases conclude_next (hc.symm.trans h) with ⟨d, hd, rfl⟩ | ⟨c, -, rfl⟩
    · exact .inr (.inr ⟨d, hp, hd, rfl⟩)
    · exact .inr (.inl ⟨c, _, rfl⟩)

/-- A command that leaves no fault behind ends by its own part's response. -/
theorem exec_completes {i : Instr} {s t : State} (h : exec i s = .next t) (her : t.flags.er = false) :
    ∃ d, passes i s ∧ effectOf i s = .ok d ∧ t = d.state.answered d.bytes d.st d.data := by
  rcases exec_ends h with ⟨hs, rfl⟩ | ⟨c, word, rfl⟩ | hd
  · exact absurd (hs.symm.trans her) (by simp)
  · exact absurd her (by simp)
  · exact hd

theorem mklEffect_ok {s : State} {d : Done} (h : mklEffect s = .ok d) :
    ∃ t, loadQueue s = .ok t ∧ d = Done.ok t (t.ncnt.setWidth 72) := by
  simp only [mklEffect] at h
  split at h
  · next t ht =>
    cases h
    exact ⟨t, ht, rfl⟩
  · cases h

theorem mrgEffect_ok {s : State} {d : Done} (h : mrgEffect s = .ok d) :
    d = Done.empty s ∨ ∃ t, mergeTwo s = .ok (some t) ∧ d = Done.ok t (s.ncnt.setWidth 72) := by
  simp only [mrgEffect] at h
  split at h
  · next t ht =>
    cases h
    exact .inr ⟨t, ht, rfl⟩
  · cases h
    exact .inl rfl
  · cases h

/-- An MRG that answers OK is a merge (R182). -/
theorem exec_mrg_ok {s t : State} {v : Data} (h : exec .mrg s = .next t)
    (hsent : t.sent = s.sent ++ [.rsp ⟨.ok, v⟩]) :
    ∃ u v', mergeTwo s = .ok (some u) ∧ t = u.answered [] .ok v' := by
  rcases exec_ends h with ⟨-, rfl⟩ | ⟨c, word, rfl⟩ | ⟨d, -, hd, rfl⟩
  · simp at hsent
  · simp at hsent
  · rcases mrgEffect_ok hd with rfl | ⟨u, hu, rfl⟩
    · simp [Done.empty] at hsent
    · exact ⟨u, _, hu, rfl⟩

/-- MRG given some times, the queue then holding fewer than two nodes, is what BLD does (R184). -/
theorem mergeAll_of_mergeTimes {k : Nat} {s u : State} (out : List Sent) (h : mergeTimes k s = some u)
    (hfew : u.heap.length < 2) {fuel : Nat} (hfuel : s.heap.length ≤ fuel) :
    mergeAll fuel (s.withSent out) = .ok (u.withSent out) := by
  induction k generalizing s fuel with
  | zero =>
    cases h
    exact mergeAll_of_few hfew
  | succ k ih =>
    simp only [mergeTimes] at h
    split at h
    · next t ht =>
      split at h
      · next hsent =>
        obtain ⟨v, data, hv, rfl⟩ := exec_mrg_ok ht hsent
        have hlen := mergeTwo_heap_length hv
        obtain ⟨fuel, rfl⟩ : ∃ n, fuel = n + 1 := ⟨fuel - 1, by omega⟩
        rw [mergeAll_of_merge (mergeTwo_withSent out hv)]
        exact ih h (show v.heap.length ≤ fuel by omega)
      · cases h
    · cases h
    · cases h

/-- Settles O31: MKL, the merges and FIN are the stages of BLD, run over other output histories; FIN's own phase says
that no merge is left, so that the MRG answering EMPTY adds nothing. -/
theorem bldIsTheStagedBuild : Obligations.BldIsTheStagedBuild := by
  intro s s1 s2 s3 k r her hmkl her1 hmerges _ hfin her3 hsent
  obtain ⟨_, ⟨-, -, hopen⟩, hload, rfl⟩ := exec_completes hmkl her1
  obtain ⟨t, ht, rfl⟩ := mklEffect_ok hload
  obtain ⟨d, ⟨-, -, hfinish⟩, hd, rfl⟩ := exec_completes hfin her3
  obtain ⟨-, -, hlen, -⟩ := finishOpen_iff.mp hfinish
  have hmerge := mergeAll_of_mergeTimes t.sent hmerges (Nat.lt_succ_of_le hlen) (Nat.le_refl _)
  have hbld : bldEffect s = .ok { d with state := d.state.withSent t.sent } :=
    (bldEffect_of_stages ht hmerge hfinish).trans (finEffect_withSent t.sent hlen hd)
  have hpass : passes .bld s := passes_of_phase her rfl hopen
  rw [exec_of_passes hpass hbld]
  obtain ⟨_, _, _, rfl⟩ := loadQueue_shape ht
  obtain ⟨-, hout⟩ := writes_channels (effectOf_writes hd)
  obtain ⟨hbytes, -⟩ := finEffect_silent hd
  obtain rfl : (⟨d.st, d.data⟩ : Response) = r := by simpa [hout, hbytes] using hsent
  rw [hbytes]
  rfl

end Sys2Proof.Machine
end

section
/-! SUPPORT. BLD from the forest invariant (spec/42_tree_builder.md rules R184, R187 to R189): every stage ends, each
merge adds a node and takes one out of the queue, so K symbols give 2K - 1 entries, the last of which FIN names. -/

namespace Sys2Proof.Machine

/-! The merges. -/

/-- Where two nodes wait in the queue the arena has room for their parent (R182). -/
theorem State.Growing.room {s : State} (h : s.Growing) (htwo : 2 ≤ s.heap.length) : s.node.length < Config.ncap := by
  obtain ⟨a, b, h1, h2, ha, hb, -⟩ := heapExtract_two (lt := lighter s.node) htwo
  obtain ⟨hab, -, ⟨ea, hea, hoa⟩, ⟨eb, heb, hob⟩⟩ := h.two_roots ha hb
  obtain ⟨hcount, -⟩ := Grown.roots_of_two hab hea heb (by simp [hoa]) (by simp [hob])
  have hroots := h.grown.roots_left
  have hleaves := h.grown.leaves_le
  rw [Config.ncap]
  omega

/-- While two nodes wait, a merge ends; it adds one entry, and the queue is not empty after it (R182). -/
theorem mergeTwo_ends {s : State} (h : s.Growing) (htwo : 2 ≤ s.heap.length) (hqueue : s.heap.length ≤ Config.qcap) :
    ∃ t, mergeTwo s = .ok (some t) ∧ t.node.length = s.node.length + 1 ∧ 0 < t.heap.length := by
  obtain ⟨a, b, h1, h2, ha, hb, hlen⟩ := heapExtract_two (lt := lighter s.node) htwo
  exact ⟨_, mergeTwo_of_extract ha hb (h.room htwo) (by omega), mergedArena_length a b s, by simp [merged]⟩

/-- BLD's merges end with at most one node in the queue, none only if there was none, and as many entries more as nodes
fewer (R184, R189). -/
theorem mergeAll_ends {fuel : Nat} {s : State} (h : s.Growing) (hqueue : s.heap.length ≤ Config.qcap)
    (hfuel : s.heap.length ≤ fuel + 1) :
    ∃ u, mergeAll fuel s = .ok u ∧ u.heap.length = min 1 s.heap.length ∧
      u.node.length + u.heap.length = s.node.length + s.heap.length := by
  induction fuel generalizing s with
  | zero => exact ⟨s, rfl, by omega, rfl⟩
  | succ fuel ih =>
    rcases Nat.lt_or_ge s.heap.length 2 with hfew | htwo
    · exact ⟨s, mergeAll_of_few hfew, by omega, rfl⟩
    · obtain ⟨t, ht, hnode, hpos⟩ := mergeTwo_ends h htwo hqueue
      have hheap := mergeTwo_heap_length ht
      obtain ⟨u, hu, hone, hsum⟩ := ih (mergeTwo_growing s t h ht) (by omega) (by omega)
      exact ⟨u, (mergeAll_of_merge ht).trans hu, by omega, by omega⟩

/-! The end. -/

/-- The synthetic root above a sole entry is entry 1 of two (R188). -/
theorem degenerateBuild_of_sole {m : Index} {u : State} (h : u.node.length = 1) :
    (degenerateBuild m u).node.length = 2 ∧ (degenerateBuild m u).root.toNat = 1 := by
  obtain ⟨hlen, -⟩ := degenerateBuild_node m u
  exact ⟨by omega, (State.ncnt_toNat (by rw [h]; decide)).trans h⟩

/-- FIN after the merges of K leaves: no node, the synthetic root above one, or the last of 2K - 1 (R183, R187 to
R189). -/
theorem finEffect_of_growing {u : State} {K : Nat} (h : u.Growing) (hx : u.xcnt = 0) (hone : u.heap.length = min 1 K)
    (hsum : u.node.length + u.heap.length = K + K) :
    (K = 0 ∧ u.node = [] ∧ u.heap = [] ∧ finEffect u = .ok (Done.empty (emptyBuild u))) ∨
    (K = 1 ∧ ∃ m, finEffect u = .ok (Done.ok (degenerateBuild m u) (u.ncnt.setWidth 72)) ∧
      (degenerateBuild m u).node.length = 2 ∧ (degenerateBuild m u).root.toNat = 1) ∨
    (2 ≤ K ∧ ∃ m, finEffect u = .ok (Done.ok (rootedBuild m u) (m.setWidth 72)) ∧
      (rootedBuild m u).node.length = 2 * K - 1 ∧ m.toNat = 2 * K - 2) := by
  rcases Nat.eq_zero_or_pos K with rfl | hpos
  · have hheap : u.heap = [] := List.length_eq_zero_iff.mp (by omega)
    exact .inl ⟨rfl, h.empty hx hheap, hheap, finEffect_of_empty hheap⟩
  · obtain ⟨m, hheap⟩ := List.length_eq_one_iff.mp (show u.heap.length = 1 by omega)
    obtain ⟨hlast, -⟩ := h.sole_root hx hheap
    cases hk : (u.nodeAt m).kind with
    | leaf a =>
      obtain ⟨hm, -⟩ := h.sole_leaf hx hheap hk
      have hsole : u.node.length = 1 := by omega
      exact .inr (.inl ⟨by omega, m, finEffect_of_leaf hheap hk (by rw [hsole]; decide),
        degenerateBuild_of_sole hsole⟩)
    | internal l r =>
      obtain ⟨hl, -⟩ := h.linked.children_below _ _ l r (nodeIn_getElem (show m.toNat < u.node.length by omega)) hk
      have hkept : (rootedBuild m u).node.length = u.node.length := retag_length u.node m .r
      exact .inr (.inr ⟨by omega, m, finEffect_of_internal hheap hk, by omega, by omega⟩)

/-! The command. -/

theorem insertAll_length (arena : List Node) (numbers : List Nat) (heap : List Index) :
    (insertAll arena numbers heap).length = heap.length + numbers.length := by
  induction numbers generalizing heap with
  | nil => rfl
  | cons n rest ih =>
    rw [insertAll, List.foldl_cons, ← insertAll, ih, heapInsert_length, List.length_cons]
    omega

/-- The state BLD hands to FIN: QL set, the rest of what MKL and the merges write left open (R184). -/
def handedToFin (node : List Node) (heap : List Index) (total : Weight) (s : State) : State :=
  { s with node := node, heap := heap, total := total, flags := { s.flags with ql := true } }

/-- What BLD's first two stages hand to FIN. -/
theorem build_stages {s : State} (h : s.Forest) (hql : s.flags.ql = false) (htv : s.flags.tv = false)
    (hfit : ∀ a, (s.freqAt a).toNat < 2 ^ s.cfg.bits) :
    ∃ node heap total, bldEffect s = finEffect (handedToFin node heap total s) ∧
      (handedToFin node heap total s).Growing ∧ s.xcnt = 0 ∧ heap.length = min 1 s.present.length ∧
      node.length + heap.length = s.present.length + s.present.length ∧ total.toNat = s.freqSum := by
  obtain ⟨hnode, hheap⟩ := h.not_loaded hql
  have hx : s.xcnt = 0 := by
    have := h.held_by_host
    rw [hnode] at this
    exact BitVec.eq_of_toNat_eq this.symm
  obtain ⟨t, ht, hleaves, hqueue, htotal⟩ := loadQueue_loads hnode hheap hfit
  have hcount : t.node.length = s.present.length := by rw [hleaves, List.length_map]
  have hwaiting : t.heap.length = s.present.length := by rw [hqueue, insertAll_length]; simp
  have hle := s.present_length_le
  obtain ⟨u, hu, hone, hsum⟩ := mergeAll_ends (loadQueue_growing h hql ht) (by rw [hwaiting, Config.qcap]; exact hle)
    (Nat.le_succ _)
  have hgrowing := bld_growing h hql ht hu
  have hfew : u.heap.length ≤ 1 := by omega
  rw [hwaiting] at hone hsum
  rw [hcount] at hsum
  obtain ⟨_, _, _, rfl⟩ := loadQueue_shape ht
  obtain ⟨_, _, rfl⟩ := mergeAll_shape hu
  exact ⟨_, _, _, bldEffect_of_stages ht hu (finishOpen_iff.mpr ⟨rfl, htv, hfew, hx⟩), hgrowing, hx, hone, hsum,
    htotal⟩

/-- Settles O32: after the merges FIN finds no node, one Leaf, or the root of 2K - 1 entries. -/
theorem bldBuildsTheTree : Obligations.BldBuildsTheTree := by
  intro s her
  refine ⟨by decide, fun hclosed => ?_, fun horder hforest hql hfit => ?_⟩
  · exact exec_out_of_sequence her rfl (tableOpen_eq_false_iff.mpr hclosed)
  have htv : s.flags.tv = false := by
    obtain ⟨hloaded, -⟩ := horder
    exact Bool.eq_false_iff.mpr fun htv => by simp [hloaded htv] at hql
  obtain ⟨hem, hdg, -⟩ := horder.before_build htv
  have hp : passes .bld s := passes_of_phase her rfl (tableOpen_iff.mpr ⟨hql, htv⟩)
  obtain ⟨node, heap, total, hbld, hgrowing, hx, hone, hsum, htotal⟩ := build_stages hforest hql htv hfit
  rcases finEffect_of_growing hgrowing hx hone hsum with
    ⟨hK, hnode, hheap, hfin⟩ | ⟨hK, m, hfin, hlen, hroot⟩ | ⟨hK, m, hfin, hlen, hroot⟩
  · obtain ⟨rfl, rfl⟩ : node = [] ∧ heap = [] := ⟨hnode, hheap⟩
    refine ⟨_, exec_of_passes hp (hbld.trans hfin), (if_pos hK).symm, rfl, htotal, ?_⟩
    simp [Done.empty, emptyBuild, handedToFin, State.answered, hK, hdg]
  · refine ⟨_, exec_of_passes hp (hbld.trans hfin), hlen.trans ?_, hroot.trans ?_, htotal, ?_⟩
    · rw [if_neg (by omega), if_pos hK]
    · exact (congrArg (· - 1) hlen).symm
    · simp [Done.ok, degenerateBuild, handedToFin, State.answered, hK, hem]
  · have hsome : s.present.length ≠ 0 := by omega
    have hmany : s.present.length ≠ 1 := by omega
    refine ⟨_, exec_of_passes hp (hbld.trans hfin), hlen.trans ?_, hroot.trans ?_, htotal, ?_⟩
    · rw [if_neg hsome, if_neg hmany]
    · exact (congrArg (· - 1) hlen).symm
    · simp [Done.ok, rootedBuild, handedToFin, State.answered, hem, hdg, hsome, hmany]

end Sys2Proof.Machine
end

section
/-! SUPPORT. The two reads of the code table (spec/43_code_generator.md rules R206, R207). -/

namespace Sys2Proof.Machine

/-- The bits of a slice are those of the code value from bit 32k up (R207). -/
theorem slice_getLsbD {c : Code} {k : Sideband} (hk : k.toNat ≤ 7) {j : Nat} (hj : j < 32) :
    (c.slice k).getLsbD j = c.val.getLsbD (32 * k.toNat + j) := by
  have hlt : 32 * k.toNat + j < 256 := by omega
  simp [Code.slice, hj, hlt]

/-- RDCB of a slice number above 7 is an illegal encoding (R118). -/
theorem exec_rdcb_reserved {a : Byte} {k : Sideband} {s : State} (hk : 7 < k.toNat) :
    (s.flags.er = false → exec (.rdcb a k) s = .next (s.faulted .ill (encodeWord (.rdcb a k)))) ∧
    (s.flags.er = true → exec (.rdcb a k) s = .next (s.answered [] .faulted 0)) := by
  have hw : (Instr.rdcb a k).wellFormed = false := decide_eq_false (Nat.not_le.mpr hk)
  rw [exec_eq_command]
  exact ⟨fun her => command_illegal _ her hw, fun her => command_refused _ her hw⟩

/-- Settles O38: the faulted engine accepts both reads in their legal encodings, so there they always reach their own
part. -/
theorem rdcAndRdcbReadTheCode : Obligations.RdcAndRdcbReadTheCode := by
  intro a k s
  refine ⟨assemble_operand (by decide) 0x31 a, assemble_operand (by decide) 0x32 a,
    exec_of_accepted (i := .rdc a) rfl rfl, fun hk => ?_, exec_rdcb_reserved⟩
  have hlegal : acceptedWhenFaulted (.rdcb a k) = true := decide_eq_true hk
  refine ⟨_, exec_of_accepted hlegal rfl, ?_, fun j hj => ?_⟩
  · rw [Done.ok, BitVec.toNat_setWidth_of_le (by decide)]
    exact BitVec.isLt _
  · rw [Done.ok, BitVec.getLsbD_setWidth, slice_getLsbD hk hj, decide_eq_true (by omega), Bool.true_and]

end Sys2Proof.Machine
end

section
/-! SUPPORT. Paths in the arena (spec/43_code_generator.md rule R200): the edges of a descent one by one, and what the
decoder does along a path to a Leaf (spec/45_decoder.md rules R231, R237). -/

namespace Sys2Proof.Machine

/-! Descents. -/

@[simp] theorem descend_nil (arena : List Node) (n : Index) : descend arena n [] = some n := rfl

/-- A descent goes on past Internal nodes only. -/
theorem descend_cons_iff {arena : List Node} {n m : Index} {b : Bool} {rest : List Bool} :
    descend arena n (b :: rest) = some m ↔
      ∃ e, arena[n.toNat]? = some e ∧ e.isLeaf = false ∧ descend arena (e.child b) rest = some m := by
  rw [descend]
  cases arena[n.toNat]? with
  | none => simp
  | some e => cases he : e.isLeaf <;> simp [he]

theorem descend_append_iff {arena : List Node} {n m : Index} {p q : List Bool} :
    descend arena n (p ++ q) = some m ↔ ∃ k, descend arena n p = some k ∧ descend arena k q = some m := by
  induction p generalizing n with
  | nil => simp
  | cons b rest ih =>
    simp only [List.cons_append, descend_cons_iff, ih]
    constructor
    · rintro ⟨e, he, hinner, k, hk, hm⟩
      exact ⟨k, ⟨e, he, hinner, hk⟩, hm⟩
    · rintro ⟨k, ⟨e, he, hinner, hk⟩, hm⟩
      exact ⟨e, he, hinner, k, hk, hm⟩

/-- The last edge of a descent. -/
theorem descend_concat_iff {arena : List Node} {n m : Index} {p : List Bool} {b : Bool} :
    descend arena n (p ++ [b]) = some m ↔
      ∃ k e, descend arena n p = some k ∧ arena[k.toNat]? = some e ∧ e.isLeaf = false ∧ e.child b = m := by
  simp [descend_append_iff, descend_cons_iff]

theorem leadsTo_nil_iff {arena : List Node} {n : Index} {a : Byte} :
    LeadsTo arena n [] a ↔ ∃ e, arena[n.toNat]? = some e ∧ e.kind = .leaf a := by
  simp [LeadsTo]

theorem leadsTo_cons_iff {arena : List Node} {n : Index} {b : Bool} {rest : List Bool} {a : Byte} :
    LeadsTo arena n (b :: rest) a ↔
      ∃ e, arena[n.toNat]? = some e ∧ e.isLeaf = false ∧ LeadsTo arena (e.child b) rest a := by
  simp only [LeadsTo, descend_cons_iff]
  constructor
  · rintro ⟨m, x, ⟨e, he, hinner, hd⟩, hx⟩
    exact ⟨e, he, hinner, m, x, hd, hx⟩
  · rintro ⟨e, he, hinner, m, x, hd, hx⟩
    exact ⟨m, x, ⟨e, he, hinner, hd⟩, hx⟩

/-- A path ends at its Leaf, so no path goes on from another's end (R205). -/
theorem LeadsTo.eq_of_prefix {arena : List Node} {n : Index} {p q : List Bool} {a b : Byte}
    (hp : LeadsTo arena n p a) (hq : LeadsTo arena n q b) (h : p <+: q) : a = b := by
  induction p generalizing n q with
  | nil =>
    obtain ⟨e, he, ha⟩ := leadsTo_nil_iff.mp hp
    cases q with
    | nil =>
      obtain ⟨e', he', hb⟩ := leadsTo_nil_iff.mp hq
      cases he.symm.trans he'
      exact Kind.leaf.inj (ha.symm.trans hb)
    | cons c q =>
      obtain ⟨e', he', hinner, -⟩ := leadsTo_cons_iff.mp hq
      cases he.symm.trans he'
      simp [Node.isLeaf, ha] at hinner
  | cons c p ih =>
    obtain ⟨q, rfl⟩ : ∃ q', q = c :: q' := by
      obtain ⟨t, rfl⟩ := h
      exact ⟨p ++ t, rfl⟩
    obtain ⟨e, he, -, hp'⟩ := leadsTo_cons_iff.mp hp
    obtain ⟨e', he', -, hq'⟩ := leadsTo_cons_iff.mp hq
    cases he.symm.trans he'
    exact ih hp' hq' (List.cons_prefix_cons.mp h).2

/-! The decoder along a path. -/

theorem decodeBit_of_leaf {b : Bool} {s : State} {a : Byte} (hne : s.emitted ≠ s.total)
    (h : (s.nodeAt ((s.nodeAt s.cur).child b)).kind = .leaf a) :
    decodeBit b s = ({ s with emitted := narrowWeight s.cfg (s.emitted + 1), cur := s.root }, [a]) := by
  simp only [decodeBit, if_neg hne, h]

theorem decodeBit_of_internal {b : Bool} {s : State} (hne : s.emitted ≠ s.total)
    (h : (s.nodeAt ((s.nodeAt s.cur).child b)).isLeaf = false) :
    decodeBit b s = ({ s with cur := (s.nodeAt s.cur).child b }, []) := by
  obtain ⟨l, r, hk⟩ := isLeaf_eq_false_iff.mp h
  simp only [decodeBit, if_neg hne, hk]

/-- DBT of a started decoder answers with what DecodeBit emits (R233). -/
theorem exec_dbt {b : Bool} {s : State} (her : s.flags.er = false) (hds : s.flags.ds = true) :
    exec (.dbt b) s = .next ((decodeBit b s).1.answered (decodeBit b s).2 .ok
      (BitVec.ofNat 72 (decodeBit b s).2.length)) := by
  have hone : decodeBits [b] s = decodeBit b s := by simp [decodeBits]
  have heff := decodeEffect_eq [b] s
  rw [hone] at heff
  exact exec_of_passes (i := .dbt b) (passes_of_phase her rfl hds) heff

theorem dbtTimes_cons {b : Bool} {rest : List Bool} {s t : State} (h : exec (.dbt b) s = .next t) :
    dbtTimes (b :: rest) s = dbtTimes rest t := by
  rw [dbtTimes, h]

/-- EMITTED counts one symbol more without a carry out of its register while it is below TOTAL (R65). -/
theorem narrowWeight_emitted {s : State} (hlt : s.emitted.toNat < s.total.toNat)
    (hfit : s.total.toNat < 2 ^ s.cfg.weightBits) : narrowWeight s.cfg (s.emitted + 1) = s.emitted + 1 := by
  have hadd : (s.emitted + 1).toNat ≤ s.emitted.toNat + 1 := by
    rw [BitVec.toNat_add]
    exact Nat.mod_le _ _
  exact narrowWeight_of_lt (by omega)

/-- From any cursor, the bits of a path to a Leaf emit its symbol with the last bit, which returns the cursor to
ROOT. -/
theorem dbtTimes_of_leadsTo {bits : List Bool} {a : Byte} {s : State} (her : s.flags.er = false)
    (hds : s.flags.ds = true) (hlt : s.emitted.toNat < s.total.toNat) (hfit : s.total.toNat < 2 ^ s.cfg.weightBits)
    (hbits : bits ≠ []) (h : LeadsTo s.node s.cur bits a) :
    ∃ u news, dbtTimes bits s = some u ∧ u.sent = s.sent ++ news ∧ outBytes news = [a] ∧
      u = { s with emitted := s.emitted + 1, cur := s.root, sent := u.sent } := by
  have hne : s.emitted ≠ s.total := fun heq => by simp [heq] at hlt
  induction bits generalizing s with
  | nil => exact absurd rfl hbits
  | cons b rest ih =>
    obtain ⟨e, he, -, hrest⟩ := leadsTo_cons_iff.mp h
    have hcur : s.nodeAt s.cur = e := nodeIn_of_getElem he
    cases rest with
    | nil =>
      obtain ⟨x, hx, hleaf⟩ := leadsTo_nil_iff.mp hrest
      have hchild : (s.nodeAt ((s.nodeAt s.cur).child b)).kind = .leaf a := by
        rw [hcur, State.nodeAt, nodeIn_of_getElem hx, hleaf]
      have hstep := exec_dbt (b := b) her hds
      rw [decodeBit_of_leaf hne hchild, narrowWeight_emitted hlt hfit] at hstep
      exact ⟨_, _, dbtTimes_cons hstep, rfl, rfl, rfl⟩
    | cons c rest =>
      obtain ⟨x, hx, hinner, -⟩ := leadsTo_cons_iff.mp hrest
      have hchild : (s.nodeAt ((s.nodeAt s.cur).child b)).isLeaf = false := by
        rw [hcur, State.nodeAt, nodeIn_of_getElem hx, hinner]
      have hstep := exec_dbt (b := b) her hds
      rw [decodeBit_of_internal hne hchild, hcur] at hstep
      obtain ⟨u, news, hu, hsent, hout, heq⟩ := ih (s := State.answered { s with cur := e.child b } [] .ok 0)
        her hds hlt hfit (List.cons_ne_nil c rest) hrest hne
      refine ⟨u, .rsp ⟨.ok, 0⟩ :: news, (dbtTimes_cons hstep).trans hu, ?_, hout, heq⟩
      rw [hsent, State.answered_sent]
      simp

/-- Settles O47: the cursor is at ROOT before the path's first bit and after its last. -/
theorem pathBitsEmitTheSymbol : Obligations.PathBitsEmitTheSymbol := by
  intro s bits a her hds hcur hlt hfit hbits h
  obtain ⟨u, news, hu, hsent, hout, heq⟩ := dbtTimes_of_leadsTo her hds hlt hfit hbits (hcur ▸ h)
  exact ⟨u, news, hu, hsent, hout, heq.trans (by rw [hcur])⟩

end Sys2Proof.Machine
end

section
/-! SUPPORT. A finished tree (spec/10_state.md rules R60 to R62): every node has one path from the root, no longer than
the root is high (spec/43_code_generator.md rules R200, R208). -/

namespace Sys2Proof.Machine

/-- An index of the arena fits into the 9 bits of a node index (R60). -/
theorem index_toNat {arena : List Node} (hfits : arena.length ≤ Config.ncap) {i : Nat} (hi : i < arena.length) :
    (BitVec.ofNat 9 i).toNat = i := by
  have hcap : Config.ncap = 511 := rfl
  rw [BitVec.toNat_ofNat, Nat.mod_eq_of_lt (by omega)]

/-! The edges of the arena, counted. -/

theorem child_eq_or {e : Node} {l r : Index} (h : e.kind = .internal l r) (b : Bool) :
    e.child b = l ∨ e.child b = r := by
  obtain ⟨-, -, hleft, hright⟩ := Node.fields_of_internal h
  cases b
  · exact .inl hleft
  · exact .inr hright

/-- A child stands on one of the two sides. -/
theorem exists_side {e : Node} {l r : Index} (h : e.kind = .internal l r) {i : Nat}
    (hor : l.toNat = i ∨ r.toNat = i) : ∃ b, (e.child b).toNat = i := by
  obtain ⟨-, -, hleft, hright⟩ := Node.fields_of_internal h
  rcases hor with hl | hr
  · exact ⟨false, (congrArg BitVec.toNat hleft).trans hl⟩
  · exact ⟨true, (congrArg BitVec.toNat hright).trans hr⟩

theorem length_filter_zipIdx (p : Node → Bool) (arena : List Node) :
    (arena.zipIdx.filter (fun x => p x.1)).length = arena.countP p := by
  have hmap := List.countP_map (p := p) (f := Prod.fst) (l := arena.zipIdx)
  rw [List.zipIdx_map_fst] at hmap
  exact List.countP_eq_length_filter.symm.trans hmap.symm

theorem countP_add_countP_not (p : Node → Bool) (arena : List Node) :
    arena.countP p + arena.countP (fun e => !p e) = arena.length := by
  rw [List.length_eq_countP_add_countP p]
  simp

theorem leafSymbols_length (arena : List Node) : (leafSymbols arena).length = arena.countP Node.isLeaf := by
  rw [leafSymbols, List.length_filterMap_eq_countP]
  refine List.countP_congr fun e _ => ?_
  rw [isLeaf_eq_true_iff]
  cases e.kind <;> simp

/-- The edges of the arena: two from every Internal entry. -/
def edges (arena : List Node) : List ((Node × Nat) × Bool) :=
  (arena.zipIdx.filter (fun x => !x.1.isLeaf)) ×ˢ [false, true]

/-- The node an edge leads to. -/
def edgeEnd (x : (Node × Nat) × Bool) : Nat := (x.1.1.child x.2).toNat

theorem mem_edges_iff {arena : List Node} {e : Node} {i : Nat} {b : Bool} :
    ((e, i), b) ∈ edges arena ↔ arena[i]? = some e ∧ e.isLeaf = false := by
  cases b <;> simp [edges, List.mk_mem_zipIdx_iff_getElem?]

/-- The nodes that have a parent (R60). -/
def parented (arena : List Node) : List Nat := (arena.zipIdx.filter (fun x => !x.1.isRoot)).map Prod.snd

theorem mem_parented_iff {arena : List Node} {i : Nat} :
    i ∈ parented arena ↔ ∃ e, arena[i]? = some e ∧ e.own = .p := by
  simp [parented, List.mk_mem_zipIdx_iff_getElem?, Node.isRoot]

theorem parented_nodup (arena : List Node) : (parented arena).Nodup :=
  (List.nodup_zipIdx_map_snd arena).sublist (List.filter_sublist.map Prod.snd)

/-- Every node with a parent is the end of an edge. -/
theorem Grown.parented_subset {arena : List Node} (h : Grown arena) : parented arena ⊆ (edges arena).map edgeEnd := by
  intro i hi
  obtain ⟨e, he, hown⟩ := mem_parented_iff.mp hi
  obtain ⟨j, e', l, r, hj, hk, hor⟩ := h.has_parent i e he hown
  have hinner : e'.isLeaf = false := isLeaf_eq_false_iff.mpr ⟨l, r, hk⟩
  obtain ⟨b, hb⟩ := exists_side hk hor
  exact List.mem_map.mpr ⟨((e', j), b), mem_edges_iff.mpr ⟨hj, hinner⟩, hb⟩

/-- There are as many edges as nodes with a parent, so no two edges have the same end. -/
theorem Grown.edgeEnds_nodup {arena : List Node} (h : Grown arena) : ((edges arena).map edgeEnd).Nodup := by
  have hlen : ((edges arena).map edgeEnd).length = (parented arena).length := by
    have hroots := h.roots_left
    have hleaf := countP_add_countP_not Node.isLeaf arena
    have hroot := countP_add_countP_not Node.isRoot arena
    rw [leafSymbols_length] at hroots
    rw [List.length_map, edges, List.length_product, length_filter_zipIdx (fun e => !e.isLeaf), parented,
      List.length_map, length_filter_zipIdx (fun e => !e.isRoot), List.length_cons, List.length_singleton]
    omega
  have hperm := (List.subperm_of_subset (parented_nodup arena) h.parented_subset).perm_of_length_le hlen.le
  exact hperm.nodup_iff.mp (parented_nodup arena)

/-- A node is the child of one entry, on one side (R60). -/
theorem Grown.edge_unique {arena : List Node} {i j : Nat} {e e' : Node} {b c : Bool} (h : Grown arena)
    (hi : arena[i]? = some e) (he : e.isLeaf = false) (hj : arena[j]? = some e') (he' : e'.isLeaf = false)
    (heq : e.child b = e'.child c) : i = j ∧ b = c := by
  have hsame := List.inj_on_of_nodup_map h.edgeEnds_nodup (x := ((e, i), b)) (mem_edges_iff.mpr ⟨hi, he⟩)
    (y := ((e', j), c)) (mem_edges_iff.mpr ⟨hj, he'⟩) (congrArg BitVec.toNat heq)
  cases hsame
  exact ⟨rfl, rfl⟩

/-! Paths. -/

/-- Each edge of a descent goes to a lower node (R208). -/
theorem descend_height {arena : List Node} {height : Nat → Nat} (hh : HigherThanChildren arena height) {n m : Index}
    {p : List Bool} (hd : descend arena n p = some m) : height m.toNat + p.length ≤ height n.toNat := by
  induction p generalizing n with
  | nil =>
    obtain rfl : n = m := by simpa using hd
    exact Nat.le_refl _
  | cons b rest ih =>
    obtain ⟨e, he, hinner, hrest⟩ := descend_cons_iff.mp hd
    obtain ⟨l, r, hk⟩ := isLeaf_eq_false_iff.mp hinner
    obtain ⟨hl, hr⟩ := hh n.toNat e l r he hk
    have hchild : height (e.child b).toNat < height n.toNat := by
      rcases child_eq_or hk b with h | h
      · rwa [h]
      · rwa [h]
    have := ih hrest
    rw [List.length_cons]
    omega

/-- No path leads back to where it began (R61). -/
theorem Grown.loop_eq_nil {arena : List Node} (h : Grown arena) {n : Index} {p : List Bool}
    (hd : descend arena n p = some n) : p = [] := by
  obtain ⟨height, hh, -⟩ := h.heights
  have := descend_height hh hd
  exact List.eq_nil_of_length_eq_zero (by omega)

/-- A node is reached from another by one path only: the last edges are the same, and no path leads back. -/
theorem Grown.path_unique {arena : List Node} (h : Grown arena) {n m : Index} {p q : List Bool}
    (hp : descend arena n p = some m) (hq : descend arena n q = some m) : p = q := by
  induction p using List.reverseRecOn generalizing m q with
  | nil =>
    obtain rfl : n = m := by simpa using hp
    exact (h.loop_eq_nil hq).symm
  | append_singleton p b ih =>
    rcases List.eq_nil_or_concat q with rfl | ⟨q, c, rfl⟩
    · obtain rfl : n = m := by simpa using hq
      exact h.loop_eq_nil hp
    · rw [List.concat_eq_append] at hq ⊢
      obtain ⟨k, e, hk, he, hinner, hm⟩ := descend_concat_iff.mp hp
      obtain ⟨k', e', hk', he', hinner', hm'⟩ := descend_concat_iff.mp hq
      obtain ⟨hkk, rfl⟩ := h.edge_unique he hinner he' hinner' (hm.trans hm'.symm)
      obtain rfl := BitVec.eq_of_toNat_eq hkk
      rw [ih hk hk']

theorem mem_leafSymbols_iff {arena : List Node} {a : Byte} :
    a.toNat ∈ leafSymbols arena ↔ ∃ e ∈ arena, e.kind = .leaf a := by
  rw [leafSymbols, List.mem_filterMap]
  refine exists_congr fun e => and_congr_right fun _ => ?_
  cases e.kind <;> simp [BitVec.toNat_inj]

/-- A symbol has one Leaf (R62). -/
theorem Grown.leaf_unique {arena : List Node} (h : Grown arena) {i j : Nat} {e e' : Node} {a : Byte}
    (hi : arena[i]? = some e) (hj : arena[j]? = some e') (he : e.kind = .leaf a) (he' : e'.kind = .leaf a) : i = j := by
  have hrising := h.symbols_rising
  rw [leafSymbols, List.pairwise_filterMap, List.pairwise_iff_getElem] at hrising
  obtain ⟨hil, rfl⟩ := List.getElem?_eq_some_iff.mp hi
  obtain ⟨hjl, rfl⟩ := List.getElem?_eq_some_iff.mp hj
  rcases Nat.lt_trichotomy i j with hlt | heq | hgt
  · exact (Nat.lt_irrefl _ (hrising i j hil hjl hlt a.toNat (by rw [he]) a.toNat (by rw [he']))).elim
  · exact heq
  · exact (Nat.lt_irrefl _ (hrising j i hjl hil hgt a.toNat (by rw [he']) a.toNat (by rw [he]))).elim

/-- A list of the symbols with a Leaf, each once, is as long as that of the leaves (R62). -/
theorem Grown.leafSymbols_length_of_nodup {arena : List Node} (h : Grown arena) {present : List Byte}
    (hnodup : present.Nodup) (hmem : ∀ a, a ∈ present ↔ ∃ e ∈ arena, e.kind = .leaf a) :
    present.length = (leafSymbols arena).length := by
  have hperm : (present.map BitVec.toNat).Perm (leafSymbols arena) := by
    refine (List.perm_ext_iff_of_nodup (hnodup.map fun _ _ => BitVec.eq_of_toNat_eq)
      (h.symbols_rising.imp Nat.ne_of_lt)).mpr fun x => ⟨fun hx => ?_, fun hx => ?_⟩
    · obtain ⟨a, ha, rfl⟩ := List.mem_map.mp hx
      exact mem_leafSymbols_iff.mpr ((hmem a).mp ha)
    · have hbyte : (BitVec.ofNat 8 x).toNat = x := Nat.mod_eq_of_lt (leafSymbols_lt hx)
      rw [← hbyte] at hx ⊢
      exact List.mem_map_of_mem ((hmem _).mpr (mem_leafSymbols_iff.mp hx))
  rw [← hperm.length_eq, List.length_map]

/-- A symbol's Leaf has one path from a node. -/
theorem Grown.leadsTo_unique {arena : List Node} (h : Grown arena) {n : Index} {p q : List Bool} {a : Byte}
    (hp : LeadsTo arena n p a) (hq : LeadsTo arena n q a) : p = q := by
  obtain ⟨m, e, hm, he, hk⟩ := hp
  obtain ⟨m', e', hm', he', hk'⟩ := hq
  obtain rfl := BitVec.eq_of_toNat_eq (h.leaf_unique he he' hk hk')
  exact h.path_unique hm hm'

/-! The tree under ROOT. -/

/-- A finished tree of two leaves or more (R60 to R62): the forest has one root, which is an Internal node. -/
structure FinishedTree (arena : List Node) (root : Index) : Prop where
  grown : Grown arena
  fits : arena.length ≤ Config.ncap
  children_below : ChildrenBelow arena
  root_exists : ∃ e, arena[root.toNat]? = some e ∧ e.isLeaf = false ∧ e.own ≠ .p
  sole_root : ∀ (i : Nat) (e : Node), arena[i]? = some e → e.own ≠ .p → i = root.toNat

/-- FIN leaves a tree: nothing is in the queue or with the host, and the tag R names ROOT alone (R60, R183). -/
theorem State.Forest.tree {s : State} (hf : s.Forest) (hl : s.Linked) (htv : s.flags.tv = true)
    (hem : s.flags.em = false) (hdg : s.flags.dg = false) : FinishedTree s.node s.root := by
  obtain ⟨hheap, hx⟩ := hf.finished htv
  obtain ⟨e, l, r, he, hk⟩ := hl.root_internal htv hem
  have hroot : e.own = .r := (hf.root_tag _ e he).mpr ⟨htv, hem, rfl⟩
  refine ⟨⟨hf.has_parent, hf.leaves_first, hf.symbols_rising, hf.roots_left hdg, hf.heights hdg⟩, hl.arena_fits,
    hl.children_below, ⟨e, he, isLeaf_eq_false_iff.mpr ⟨l, r, hk⟩, by simp [hroot]⟩, fun i x hi hown => ?_⟩
  have hlen := (List.getElem?_eq_some_iff.mp hi).1
  cases ho : x.own with
  | q =>
    have hmem := (hf.heap_queued (BitVec.ofNat 9 i)).mpr ⟨x, by rwa [index_toNat hl.arena_fits hlen], ho⟩
    simp [hheap] at hmem
  | x =>
    have hheld : s.node.countP (fun e => decide (e.own = .x)) = 0 := by rw [hf.held_by_host, hx]; rfl
    have := List.countP_eq_zero.mp hheld x (List.mem_of_getElem? hi)
    simp [ho] at this
  | p => exact absurd ho hown
  | r => exact ((hf.root_tag i x hi).mp ho).2.2

/-- Every node is reached from the root: its parent, which stands above it, is (R60, R61). -/
theorem FinishedTree.reaches {arena : List Node} {root n : Index} (h : FinishedTree arena root)
    (hn : n.toNat < arena.length) : ∃ p, descend arena root p = some n := by
  induction hd : arena.length - n.toNat using Nat.strong_induction_on generalizing n with
  | _ d ih =>
    have hi := List.getElem?_eq_getElem hn
    by_cases hown : arena[n.toNat].own = .p
    · obtain ⟨j, e, l, r, hj, hk, hor⟩ := h.grown.has_parent _ _ hi hown
      have hjlen := (List.getElem?_eq_some_iff.mp hj).1
      have hjn := index_toNat h.fits hjlen
      obtain ⟨hl, hr⟩ := h.children_below j e l r hj hk
      obtain ⟨p, hp⟩ := ih (arena.length - j) (by omega) (n := BitVec.ofNat 9 j) (by omega) (by omega)
      obtain ⟨b, hb⟩ := exists_side hk hor
      exact ⟨p ++ [b], descend_concat_iff.mpr ⟨_, e, hp, by rwa [hjn], isLeaf_eq_false_iff.mpr ⟨l, r, hk⟩,
        BitVec.eq_of_toNat_eq hb⟩⟩
    · obtain rfl := BitVec.eq_of_toNat_eq (h.sole_root _ _ hi hown)
      exact ⟨[], rfl⟩

/-- A symbol has a path from the root exactly when it has a Leaf. -/
theorem FinishedTree.leadsTo_iff {arena : List Node} {root : Index} {a : Byte} (h : FinishedTree arena root) :
    (∃ p, LeadsTo arena root p a) ↔ ∃ e ∈ arena, e.kind = .leaf a := by
  constructor
  · rintro ⟨p, m, e, -, he, hk⟩
    exact ⟨e, List.mem_of_getElem? he, hk⟩
  · rintro ⟨e, he, hk⟩
    obtain ⟨i, hi⟩ := List.mem_iff_getElem?.mp he
    have hlen := (List.getElem?_eq_some_iff.mp hi).1
    have hin := index_toNat h.fits hlen
    obtain ⟨p, hp⟩ := h.reaches (n := BitVec.ofNat 9 i) (by omega)
    exact ⟨p, _, e, hp, by rwa [hin], hk⟩

/-- "No code is longer than 255 bits": the root is no higher than the number of leaves less one (R208). -/
theorem FinishedTree.path_length_le {arena : List Node} {root : Index} {p : List Bool} {a : Byte}
    (h : FinishedTree arena root) (hp : LeadsTo arena root p a) : p.length ≤ 255 := by
  obtain ⟨m, -, hm, -⟩ := hp
  obtain ⟨height, hh, hsum⟩ := h.grown.heights
  obtain ⟨e, he, -, hown⟩ := h.root_exists
  have hdeep := descend_height hh hm
  have hroot := heightSum_retag_child (h := height) he hown
  have hleaves := h.grown.leaves_le
  omega

/-- The path to a Leaf is not empty: the root is no Leaf. -/
theorem FinishedTree.path_ne_nil {arena : List Node} {root : Index} {p : List Bool} {a : Byte}
    (h : FinishedTree arena root) (hp : LeadsTo arena root p a) : p ≠ [] := by
  rintro rfl
  obtain ⟨e, he, hinner, -⟩ := h.root_exists
  obtain ⟨e', he', hk⟩ := leadsTo_nil_iff.mp hp
  cases he.symm.trans he'
  simp [Node.isLeaf, hk] at hinner

end Sys2Proof.Machine
end

section
/-! SUPPORT. GEN of a finished tree (spec/43_code_generator.md rules R200 to R208): Walk records the path to every Leaf
once, so each code is a path and no two codes begin alike. -/

namespace Sys2Proof.Machine

/-! Codes as paths. -/

/-- Walk's value of a path, one edge after another (R202). -/
def pathValue (p : List Bool) : BitVec 255 := p.foldl (fun v b => if b then (v <<< 1) ||| 1 else v <<< 1) 0

/-- The code of a path (R200). -/
def codeOfPath (p : List Bool) : Code := ⟨BitVec.ofNat 8 p.length, pathValue p⟩

theorem pathValue_left (p : List Bool) : pathValue (p ++ [false]) = pathValue p <<< 1 := by
  simp [pathValue]

theorem pathValue_right (p : List Bool) : pathValue (p ++ [true]) = (pathValue p <<< 1) ||| 1 := by
  simp [pathValue]

/-- The last edge is the lowest bit of the value. -/
theorem pathValue_bit_zero (p : List Bool) (b : Bool) : (pathValue (p ++ [b])).getLsbD 0 = b := by
  cases b
  · simp [pathValue_left]
  · simp [pathValue_right]

/-- The edges before the last move up by one bit. -/
theorem pathValue_bit_succ (p : List Bool) (b : Bool) {i : Nat} (hi : i + 1 < 255) :
    (pathValue (p ++ [b])).getLsbD (i + 1) = (pathValue p).getLsbD i := by
  cases b
  · simp [pathValue_left, hi, BitVec.getLsbD_eq_getElem (show i < 255 by omega)]
  · simp [pathValue_right, hi, BitVec.getLsbD_eq_getElem (show i < 255 by omega)]

theorem pathValue_bits {p : List Bool} (hp : p.length ≤ 255) :
    (List.range p.length).reverse.map (fun i => (pathValue p).getLsbD i) = p := by
  induction p using List.reverseRecOn with
  | nil => rfl
  | append_singleton p b ih =>
    rw [List.length_append, List.length_singleton] at hp ⊢
    have hshift : (List.range p.length).reverse.map (fun i => (pathValue (p ++ [b])).getLsbD (i + 1)) =
        (List.range p.length).reverse.map (fun i => (pathValue p).getLsbD i) := by
      refine List.map_congr_left fun i hi => ?_
      have hlt : i < p.length := by simpa using hi
      exact pathValue_bit_succ p b (by omega)
    rw [List.range_succ_eq_map, List.reverse_cons, ← List.map_reverse, List.map_append, List.map_map,
      List.map_singleton, pathValue_bit_zero]
    exact congrArg (· ++ [b]) (hshift.trans (ih (by omega)))

theorem codeOfPath_len {p : List Bool} (hp : p.length ≤ 255) : (codeOfPath p).len.toNat = p.length := by
  rw [codeOfPath, BitVec.toNat_ofNat, Nat.mod_eq_of_lt (by omega)]

/-- A path that fits into a code is read back from it, root edge first (R58, R82). -/
theorem codeOfPath_bits {p : List Bool} (hp : p.length ≤ 255) : (codeOfPath p).bits = p := by
  rw [Code.bits, codeOfPath_len hp]
  exact pathValue_bits hp

/-! What Walk records. -/

/-- The symbols Walk meets under the node n, each with its path; `p` is the path to n (R202). -/
def walkLog (arena : List Node) : Nat → Index → List Bool → List (Byte × List Bool)
  | 0, _, _ => []
  | fuel + 1, n, p =>
    match (nodeIn arena n).kind with
    | .leaf a => [(a, p)]
    | .internal l r => walkLog arena fuel l (p ++ [false]) ++ walkLog arena fuel r (p ++ [true])

theorem walkLog_of_leaf {arena : List Node} {n : Index} {a : Byte} (h : (nodeIn arena n).kind = .leaf a) (fuel : Nat)
    (p : List Bool) : walkLog arena (fuel + 1) n p = [(a, p)] := by
  simp only [walkLog, h]

theorem walkLog_of_internal {arena : List Node} {n l r : Index} (h : (nodeIn arena n).kind = .internal l r) (fuel : Nat)
    (p : List Bool) :
    walkLog arena (fuel + 1) n p = walkLog arena fuel l (p ++ [false]) ++ walkLog arena fuel r (p ++ [true]) := by
  simp only [walkLog, h]

/-- The codes of a list of symbols and paths, recorded in order. -/
def Walked.recordAll (g : Walked) (log : List (Byte × List Bool)) : Walked :=
  log.foldl (fun g x => g.record x.1 (codeOfPath x.2)) g

theorem Walked.recordAll_cons (g : Walked) (x : Byte × List Bool) (log : List (Byte × List Bool)) :
    g.recordAll (x :: log) = (g.record x.1 (codeOfPath x.2)).recordAll log := rfl

theorem Walked.recordAll_append (g : Walked) (log log' : List (Byte × List Bool)) :
    g.recordAll (log ++ log') = (g.recordAll log).recordAll log' := List.foldl_append

/-- A Walk that ends has recorded its log. -/
theorem walk_records {arena : List Node} {fuel : Nat} {n : Index} {p : List Bool} {g g' : Walked}
    (h : walk arena fuel n p.length (pathValue p) g = some g') : g' = g.recordAll (walkLog arena fuel n p) := by
  induction fuel generalizing n p g g' with
  | zero => cases h
  | succ fuel ih =>
    simp only [walk] at h
    split at h
    · next a hk =>
      rw [walkLog_of_leaf hk]
      exact (Option.some.inj h).symm
    · next l r hk =>
      rw [walkLog_of_internal hk, Walked.recordAll_append]
      split at h
      · next g1 h1 =>
        have hleft := ih (p := p ++ [false]) (by rw [List.length_append, pathValue_left]; exact h1)
        have hright := ih (p := p ++ [true]) (by rw [List.length_append, pathValue_right]; exact h)
        rw [hright, hleft]
      · cases h

@[simp] theorem Walked.recordAll_cnt (g : Walked) (log : List (Byte × List Bool)) :
    (g.recordAll log).cnt = g.cnt + log.length := by
  induction log generalizing g with
  | nil => rfl
  | cons x log ih =>
    rw [recordAll_cons, ih, List.length_cons]
    exact Nat.add_right_comm g.cnt 1 log.length

theorem Walked.read_record_other {g : Walked} {a b : Byte} {c : Code} (h : a ≠ b) :
    Memory.read Code.none (g.record b c).code a.toNat = Memory.read Code.none g.code a.toNat :=
  Memory.read_write_other _ _ _ (mt BitVec.eq_of_toNat_eq h)

/-- A symbol that is not recorded keeps its code. -/
theorem Walked.read_recordAll_absent {g : Walked} {log : List (Byte × List Bool)} {a : Byte}
    (h : a ∉ log.map Prod.fst) :
    Memory.read Code.none (g.recordAll log).code a.toNat = Memory.read Code.none g.code a.toNat := by
  induction log generalizing g with
  | nil => rfl
  | cons x log ih =>
    obtain ⟨hx, hlog⟩ := List.ne_and_not_mem_of_not_mem_cons h
    exact (ih hlog).trans (read_record_other hx)

/-- A symbol recorded once has the code of its path. -/
theorem Walked.read_recordAll_of_mem {g : Walked} {log : List (Byte × List Bool)} {a : Byte} {p : List Bool}
    (hnodup : (log.map Prod.fst).Nodup) (h : (a, p) ∈ log) :
    Memory.read Code.none (g.recordAll log).code a.toNat = codeOfPath p := by
  induction log generalizing g with
  | nil => cases h
  | cons x log ih =>
    obtain ⟨hx, hlog⟩ := List.nodup_cons.mp hnodup
    rw [recordAll_cons]
    rcases List.mem_cons.mp h with rfl | hmem
    · rw [read_recordAll_absent hx]
      exact Memory.read_write_same _ _ _ _
    · exact ih hlog hmem

/-! The log is the set of paths. -/

/-- Where a path to a Leaf can start: at the Leaf itself, or on either side of an Internal node. -/
theorem leadsTo_of_leaf {arena : List Node} {n : Index} {a b : Byte} {p : List Bool} (hn : n.toNat < arena.length)
    (h : (nodeIn arena n).kind = .leaf b) : LeadsTo arena n p a ↔ p = [] ∧ a = b := by
  have he := nodeIn_getElem hn
  cases p with
  | nil => simp [leadsTo_nil_iff, he, h, eq_comm]
  | cons c p => simp [leadsTo_cons_iff, he, Node.isLeaf, h]

theorem leadsTo_of_internal {arena : List Node} {n l r : Index} {a : Byte} {p : List Bool}
    (hn : n.toNat < arena.length) (h : (nodeIn arena n).kind = .internal l r) :
    LeadsTo arena n p a ↔
      (∃ q, p = false :: q ∧ LeadsTo arena l q a) ∨ ∃ q, p = true :: q ∧ LeadsTo arena r q a := by
  have he := nodeIn_getElem hn
  obtain ⟨-, -, hleft, hright⟩ := Node.fields_of_internal h
  cases p with
  | nil => simp [leadsTo_nil_iff, he, h]
  | cons c p => cases c <;> simp [leadsTo_cons_iff, he, Node.isLeaf, h, Node.child, hleft, hright]

/-- Walk meets every path to a Leaf under n and nothing else (R202). -/
theorem mem_walkLog_iff {arena : List Node} (hbelow : ChildrenBelow arena) {fuel : Nat} {n : Index}
    (hn : n.toNat < arena.length) (hfuel : n.toNat < fuel) {a : Byte} {p q : List Bool} :
    (a, q) ∈ walkLog arena fuel n p ↔ ∃ t, q = p ++ t ∧ LeadsTo arena n t a := by
  induction fuel generalizing n p with
  | zero => omega
  | succ fuel ih =>
    cases hk : (nodeIn arena n).kind with
    | leaf b => simp [walkLog_of_leaf hk, leadsTo_of_leaf hn hk, and_comm]
    | internal l r =>
      obtain ⟨hl, hr⟩ := hbelow _ _ l r (nodeIn_getElem hn) hk
      rw [walkLog_of_internal hk, List.mem_append, ih (n := l) (by omega) (by omega),
        ih (n := r) (by omega) (by omega)]
      simp only [leadsTo_of_internal hn hk]
      constructor
      · rintro (⟨t, rfl, ht⟩ | ⟨t, rfl, ht⟩)
        · exact ⟨false :: t, by simp, .inl ⟨t, rfl, ht⟩⟩
        · exact ⟨true :: t, by simp, .inr ⟨t, rfl, ht⟩⟩
      · rintro ⟨-, rfl, ⟨t, rfl, ht⟩ | ⟨t, rfl, ht⟩⟩
        · exact .inl ⟨t, by simp, ht⟩
        · exact .inr ⟨t, by simp, ht⟩

/-- Walk meets no symbol twice, a Leaf having one path (R62). -/
theorem walkLog_nodup {arena : List Node} (hgrown : Grown arena) (hbelow : ChildrenBelow arena) {fuel : Nat}
    {n : Index} (hn : n.toNat < arena.length) (hfuel : n.toNat < fuel) (p : List Bool) :
    ((walkLog arena fuel n p).map Prod.fst).Nodup := by
  induction fuel generalizing n p with
  | zero => omega
  | succ fuel ih =>
    cases hk : (nodeIn arena n).kind with
    | leaf b => simp [walkLog_of_leaf hk]
    | internal l r =>
      obtain ⟨hl, hr⟩ := hbelow _ _ l r (nodeIn_getElem hn) hk
      rw [walkLog_of_internal hk, List.map_append, List.nodup_append]
      refine ⟨ih (n := l) (by omega) (by omega) _, ih (n := r) (by omega) (by omega) _, ?_⟩
      intro a ha b hb hab
      obtain ⟨⟨_, q⟩, hq, rfl⟩ := List.mem_map.mp ha
      obtain ⟨⟨_, q'⟩, hq', rfl⟩ := List.mem_map.mp hb
      subst hab
      obtain ⟨t, -, ht⟩ := (mem_walkLog_iff hbelow (by omega) (by omega)).mp hq
      obtain ⟨t', -, ht'⟩ := (mem_walkLog_iff hbelow (by omega) (by omega)).mp hq'
      have hsame := hgrown.leadsTo_unique ((leadsTo_of_internal hn hk).mpr (.inl ⟨t, rfl, ht⟩))
        ((leadsTo_of_internal hn hk).mpr (.inr ⟨t', rfl, ht'⟩))
      simp at hsame

/-! GEN. -/

theorem codeTable_of_walked {s : State} (hem : s.flags.em = false) (hdg : s.flags.dg = false) :
    codeTable s = walk s.node s.node.length s.root 0 0 ⟨[], 0⟩ := by
  simp [codeTable, hem, hdg]

/-- The code table of a finished tree: the path of every symbol that has one, and as many entries as leaves (R201). -/
theorem FinishedTree.table_of_paths {s : State} (h : FinishedTree s.node s.root) (hem : s.flags.em = false)
    (hdg : s.flags.dg = false) :
    ∃ g, codeTable s = some g ∧ g.cnt = (leafSymbols s.node).length ∧
      (∀ a p, LeadsTo s.node s.root p a → Memory.read Code.none g.code a.toNat = codeOfPath p) ∧
      ∀ a, (¬ ∃ p, LeadsTo s.node s.root p a) → Memory.read Code.none g.code a.toNat = Code.none := by
  obtain ⟨e, he, -⟩ := h.root_exists
  have hroot := (List.getElem?_eq_some_iff.mp he).1
  have hlinked : ArenaLinked s.node [] := ⟨h.fits, by simp, h.children_below⟩
  obtain ⟨g, hg⟩ := walk_ends hlinked hroot hroot 0 0 ⟨[], 0⟩
  have hlog := walk_records (p := []) hg
  have hmem : ∀ a p, (a, p) ∈ walkLog s.node s.node.length s.root [] ↔ LeadsTo s.node s.root p a := fun a p => by
    simp [mem_walkLog_iff h.children_below hroot hroot]
  have hnodup := walkLog_nodup h.grown h.children_below hroot hroot []
  have hmet : ∀ a, a ∈ (walkLog s.node s.node.length s.root []).map Prod.fst ↔ ∃ p, LeadsTo s.node s.root p a :=
    fun a => by simp [hmem]
  have hcount := h.grown.leafSymbols_length_of_nodup hnodup fun a => (hmet a).trans h.leadsTo_iff
  refine ⟨g, (codeTable_of_walked hem hdg).trans hg, ?_, fun a p hp => ?_, fun a ha => ?_⟩
  · rw [hlog, Walked.recordAll_cnt, ← hcount, List.length_map]
    exact Nat.zero_add _
  · rw [hlog, Walked.read_recordAll_of_mem hnodup ((hmem a p).mpr hp)]
  · rw [hlog, Walked.read_recordAll_absent (mt (hmet a).mp ha), Memory.read]

/-- The code of a path to a Leaf is one, and leads there (R200). -/
theorem FinishedTree.code_leads {arena : List Node} {root : Index} {p : List Bool} {a : Byte} {c : Code}
    (h : FinishedTree arena root) (hp : LeadsTo arena root p a) (hc : c = codeOfPath p) :
    0 < c.len.toNat ∧ LeadsTo arena root c.bits a := by
  have hfits := h.path_length_le hp
  rw [hc, codeOfPath_len hfits, codeOfPath_bits hfits]
  exact ⟨List.length_pos_iff.mpr (h.path_ne_nil hp), hp⟩

/-- Settles O36: Walk records the one path from ROOT to each Leaf, which is not empty and fits into a code. -/
theorem genCodesAreTreePaths : Obligations.GenCodesAreTreePaths := by
  intro s _ hl hf her htv hem hdg
  have htree := hf.tree hl htv hem hdg
  obtain ⟨g, hg, hcnt, hpath, hnone⟩ := htree.table_of_paths hem hdg
  have hp : passes .gen s := passes_of_phase her rfl htv
  refine ⟨_, exec_of_passes hp (genEffect_of_table hg), fun a ha => ?_, fun a ha => ?_, ?_⟩
  · obtain ⟨p, hp⟩ := htree.leadsTo_iff.mpr ha
    exact htree.code_leads hp (hpath a p hp)
  · exact hnone a (mt htree.leadsTo_iff.mp ha)
  · rw [hcnt]
    rfl

/-- Settles O37: in a tree the codes are paths from ROOT, and a path ends at its Leaf; an empty build has no code and a
degenerate one has one. -/
theorem genCodesArePrefixFree : Obligations.GenCodesArePrefixFree := by
  intro s ho hl hf her htv
  obtain ⟨-, -, hgen⟩ := genOfDegenerateBuilds s her
  obtain ⟨hempty, hdegenerate⟩ := hgen htv
  cases hem : s.flags.em with
  | true =>
    obtain ⟨t, ht, hcodes, -⟩ := hempty hem
    exact ⟨t, ht, fun a b _ ha => by simp [hcodes, Code.none] at ha⟩
  | false =>
    cases hdg : s.flags.dg with
    | true =>
      obtain ⟨t, ht, hcodes, -⟩ := hdegenerate hem hdg
      have hone : ∀ a, 0 < (t.codeAt a).len.toNat → a = (s.nodeAt (s.nodeAt s.root).left).sym := fun a ha => by
        by_contra hne
        simp [hcodes, hne, Code.none] at ha
      exact ⟨t, ht, fun a b hab ha hb _ => hab ((hone a ha).trans (hone b hb).symm)⟩
    | false =>
      obtain ⟨t, ht, hpaths, hnone, -⟩ := genCodesAreTreePaths s ho hl hf her htv hem hdg
      have hcoded : ∀ a, 0 < (t.codeAt a).len.toNat → LeadsTo s.node s.root (t.codeAt a).bits a := fun a ha => by
        by_cases hleaf : ∃ e ∈ s.node, e.kind = .leaf a
        · exact (hpaths a hleaf).2
        · simp [hnone a hleaf, Code.none] at ha
      exact ⟨t, ht, fun a b hab ha hb hprefix => hab ((hcoded a ha).eq_of_prefix (hcoded b hb) hprefix)⟩

end Sys2Proof.Machine
end

section
/-! SUPPORT. The encoder's accumulator as a string of bits (spec/44_encoder.md rules R216 to R218): a bit pushed from
the right comes last, so ENC appends the code to what was pending and EFL appends zeros. -/

namespace Sys2Proof.Machine

/-! The low bits of a byte. -/

/-- The `n` low bits of a byte, bit n-1 first. -/
def lowBits (n : Nat) (v : Byte) : List Bool := (List.range n).reverse.map (fun i => v.getLsbD i)

@[simp] theorem lowBits_zero (v : Byte) : lowBits 0 v = [] := rfl

theorem byteBits_eq_lowBits (v : Byte) : byteBits v = lowBits 8 v := rfl

theorem pending_eq_lowBits (s : State) : s.pending = lowBits s.nbits.toNat s.acc := rfl

/-- Bit 0 stands last. -/
theorem lowBits_succ (n : Nat) (v : Byte) :
    lowBits (n + 1) v = (List.range n).reverse.map (fun i => v.getLsbD (i + 1)) ++ [v.getLsbD 0] := by
  simp [lowBits, List.range_succ_eq_map, List.map_reverse, Function.comp_def]

/-- A byte with a bit shifted in from the right (R216). -/
def shiftIn (v : Byte) (b : Bool) : Byte := (v <<< 1) ||| (BitVec.ofBool b).setWidth 8

theorem shiftIn_false (v : Byte) : shiftIn v false = v <<< 1 := by simp [shiftIn]

theorem shiftIn_bit_zero (v : Byte) (b : Bool) : (shiftIn v b).getLsbD 0 = b := by simp [shiftIn]

theorem shiftIn_bit_succ (v : Byte) (b : Bool) {i : Nat} (hi : i + 1 < 8) :
    (shiftIn v b).getLsbD (i + 1) = v.getLsbD i := by
  simp [shiftIn, hi, BitVec.getLsbD_eq_getElem (show i < 8 by omega)]

/-- The bit shifted in is appended, as long as no counted bit leaves the byte. -/
theorem lowBits_shiftIn {n : Nat} (hn : n < 8) (v : Byte) (b : Bool) :
    lowBits (n + 1) (shiftIn v b) = lowBits n v ++ [b] := by
  have hupper : (List.range n).reverse.map (fun i => (shiftIn v b).getLsbD (i + 1)) = lowBits n v := by
    refine List.map_congr_left fun i hi => shiftIn_bit_succ v b ?_
    have hlt : i < n := by simpa using hi
    omega
  rw [lowBits_succ, shiftIn_bit_zero, hupper]

/-- A shift to the left appends zeros (R217). -/
theorem lowBits_shiftLeft {n k : Nat} (h : n + k ≤ 8) (v : Byte) :
    lowBits (n + k) (v <<< k) = lowBits n v ++ List.replicate k false := by
  induction k with
  | zero => simp
  | succ k ih =>
    calc lowBits (n + k + 1) (v <<< (k + 1))
        = lowBits (n + k + 1) (shiftIn (v <<< k) false) := by rw [shiftIn_false, BitVec.shiftLeft_add]
      _ = lowBits n v ++ List.replicate k false ++ [false] := by rw [lowBits_shiftIn (by omega), ih (by omega)]
      _ = lowBits n v ++ List.replicate (k + 1) false := by rw [List.append_assoc, ← List.replicate_succ']

/-! ENC. -/

/-- Every bit the packer has taken, oldest first: those of the bytes emitted, then the pending ones (R218). -/
def Packer.stream (p : Packer) : List Bool := p.bytes.flatMap byteBits ++ lowBits p.nbits p.acc

theorem Packer.push_stream {p : Packer} (h : p.nbits < 8) (b : Bool) : (p.push b).stream = p.stream ++ [b] := by
  have hbits : lowBits (p.nbits + 1) (shiftIn p.acc b) = lowBits p.nbits p.acc ++ [b] := lowBits_shiftIn h p.acc b
  by_cases hfull : p.nbits + 1 = 8
  · have hpush : p.push b = ⟨0, 0, p.bytes ++ [shiftIn p.acc b]⟩ := if_pos hfull
    rw [hfull] at hbits
    simp [hpush, Packer.stream, byteBits_eq_lowBits, hbits]
  · have hpush : p.push b = ⟨shiftIn p.acc b, p.nbits + 1, p.bytes⟩ := if_neg hfull
    simp [hpush, Packer.stream, hbits]

theorem Packer.pushAll_stream {p : Packer} (h : p.nbits < 8) (bits : List Bool) :
    (p.pushAll bits).stream = p.stream ++ bits := by
  induction bits generalizing p with
  | nil => exact (List.append_nil _).symm
  | cons b rest ih =>
    calc ((p.push b).pushAll rest).stream
        = (p.push b).stream ++ rest := ih (Packer.push_nbits h b)
      _ = p.stream ++ b :: rest := by rw [Packer.push_stream h, List.append_assoc, List.singleton_append]

/-- The packer at the end of ENC (R216). -/
def packed (a : Byte) (s : State) : Packer := Packer.pushAll ⟨s.acc, s.nbits.toNat, []⟩ (s.codeAt a).bits

/-- The state with the packer's two registers put back (R41, R42). -/
def withPacker (p : Packer) (s : State) : State := { s with acc := p.acc, nbits := BitVec.ofNat 3 p.nbits }

theorem pending_withPacker {p : Packer} (h : p.nbits < 8) (s : State) :
    (withPacker p s).pending = lowBits p.nbits p.acc := by
  rw [pending_eq_lowBits, withPacker, BitVec.toNat_ofNat, Nat.mod_eq_of_lt h]

theorem packed_nbits (a : Byte) (s : State) : (packed a s).nbits < 8 := Packer.pushAll_nbits s.nbits.isLt _

/-- ENC appends the bits of the code to the pending ones (R216). -/
theorem packed_stream (a : Byte) (s : State) :
    (packed a s).bytes.flatMap byteBits ++ (withPacker (packed a s) s).pending = s.pending ++ (s.codeAt a).bits := by
  rw [pending_withPacker (packed_nbits a s)]
  exact Packer.pushAll_stream s.nbits.isLt _

theorem encEffect_of_no_code {a : Byte} {s : State} (h : (s.codeAt a).len = 0) :
    encEffect a s = .error (.engine .nocode) := if_pos h

theorem encEffect_of_code {a : Byte} {s : State} (h : (s.codeAt a).len ≠ 0) :
    encEffect a s = .ok ⟨withPacker (packed a s) s, (packed a s).bytes, .ok,
      BitVec.ofNat 72 (packed a s).bytes.length⟩ := if_neg h

/-- Settles O39: the bits of the bytes and the pending bits together are a string that each round appends one bit to. -/
theorem encPacksTheCode : Obligations.EncPacksTheCode := by
  intro a s her
  refine ⟨assemble_operand (by decide) 0x40 a, fun hcv => exec_out_of_sequence her rfl hcv, fun hcv => ?_⟩
  have hp : passes (.enc a) s := passes_of_phase her rfl hcv
  refine ⟨fun hlen => exec_fault_of_passes hp (encEffect_of_no_code hlen), fun hlen => ?_⟩
  have henc := encEffect_of_code hlen
  exact ⟨_, (packed a s).bytes, exec_of_passes hp henc, packed_stream a s,
    fun hok => encEffect_encoderOk hok henc, rfl⟩

/-! EFL. -/

theorem eflEffect_of_no_bit {s : State} (h : s.nbits = 0) : eflEffect s = .ok (Done.ok s 0) := if_pos h

theorem eflEffect_of_bits {s : State} (h : s.nbits ≠ 0) :
    eflEffect s = .ok ⟨{ s with acc := 0, nbits := 0 }, [s.acc <<< (8 - s.nbits.toNat)], .ok, 1⟩ := if_neg h

/-- The byte EFL emits (R217). -/
theorem byteBits_padded (s : State) :
    byteBits (s.acc <<< (8 - s.nbits.toNat)) = s.pending ++ List.replicate (8 - s.nbits.toNat) false := by
  have hsum : s.nbits.toNat + (8 - s.nbits.toNat) = 8 := Nat.add_sub_cancel' s.nbits.isLt.le
  have hbits := lowBits_shiftLeft hsum.le s.acc
  rwa [hsum] at hbits

/-- Settles O40: the padding is a shift of ACC to the top of the byte. -/
theorem eflPadsTheLastByte : Obligations.EflPadsTheLastByte := by
  intro s her
  refine ⟨by decide, fun hcv => exec_out_of_sequence her rfl hcv, fun hcv => ?_⟩
  have hp : passes .efl s := passes_of_phase her rfl hcv
  exact ⟨fun hzero => exec_of_passes hp (eflEffect_of_no_bit hzero),
    fun hbits => ⟨_, byteBits_padded s, exec_of_passes hp (eflEffect_of_bits hbits)⟩⟩

end Sys2Proof.Machine
end

section
/-! SUPPORT. The decoder's commands (spec/45_decoder.md rules R231 to R236): what DST, DBT, DBY and DEN answer in a
started decoder, and DBY as DBT given for each bit of the byte. -/

namespace Sys2Proof.Machine

/-! A started decoder. -/

/-- Once all symbols are out every further bit is ignored (R231, R236). -/
theorem decodeBits_done {s : State} (h : s.emitted = s.total) (bits : List Bool) : decodeBits bits s = (s, []) := by
  induction bits with
  | nil => rfl
  | cons b rest ih => simp only [decodeBits, decodeBit_done h, ih, List.append_nil]

/-- A command whose own part decodes bits answers with what they emit (R233, R234). -/
theorem exec_of_decodeEffect {i : Instr} {bits : List Bool} {s : State} (hp : passes i s)
    (h : effectOf i s = decodeEffect bits s) :
    exec i s = .next ((decodeBits bits s).1.answered (decodeBits bits s).2 .ok
      (BitVec.ofNat 72 (decodeBits bits s).2.length)) :=
  exec_of_passes hp (h.trans (decodeEffect_eq bits s))

/-- DBY of a started decoder answers with what its eight bits emit (R234). -/
theorem exec_dby {a : Byte} {s : State} (her : s.flags.er = false) (hds : s.flags.ds = true) :
    exec (.dby a) s = .next ((decodeBits (byteBits a) s).1.answered (decodeBits (byteBits a) s).2 .ok
      (BitVec.ofNat 72 (decodeBits (byteBits a) s).2.length)) :=
  exec_of_decodeEffect (i := .dby a) (passes_of_phase her rfl hds) rfl

theorem exec_dbt_done {b : Bool} {s : State} (her : s.flags.er = false) (hds : s.flags.ds = true)
    (h : s.emitted = s.total) : exec (.dbt b) s = .next (s.answered [] .ok 0) := by
  rw [exec_dbt her hds, decodeBit_done h]
  rfl

theorem exec_dby_done {a : Byte} {s : State} (her : s.flags.er = false) (hds : s.flags.ds = true)
    (h : s.emitted = s.total) : exec (.dby a) s = .next (s.answered [] .ok 0) := by
  rw [exec_dby her hds, decodeBits_done h]
  rfl

theorem denEffect_of_complete {s : State} (h : s.emitted = s.total) :
    denEffect s = .ok (Done.ok { s with flags := { s.flags with ds := false } } 0) := if_pos h

theorem denEffect_of_missing {s : State} (h : s.emitted ≠ s.total) : denEffect s = .error (.engine .trunc) := if_neg h

/-! What has been sent. -/

@[simp] theorem outBytes_append (xs ys : List Sent) : outBytes (xs ++ ys) = outBytes xs ++ outBytes ys :=
  List.filterMap_append

@[simp] theorem responses_append (xs ys : List Sent) : responses (xs ++ ys) = responses xs ++ responses ys :=
  List.filterMap_append

@[simp] theorem outBytes_map_byte (bytes : List Byte) : outBytes (bytes.map Sent.byte) = bytes := by
  simp [outBytes, List.filterMap_map]

@[simp] theorem responses_map_byte (bytes : List Byte) : responses (bytes.map Sent.byte) = [] := by
  simp [responses]

@[simp] theorem outBytes_rsp_cons (r : Response) (xs : List Sent) : outBytes (.rsp r :: xs) = outBytes xs := rfl

@[simp] theorem responses_rsp_cons (r : Response) (xs : List Sent) :
    responses (.rsp r :: xs) = r :: responses xs := rfl

/-- The data of DBT's response is the number of symbols it emits (R233). -/
theorem decodeBit_length_toNat (b : Bool) (s : State) :
    (BitVec.ofNat 72 (decodeBit b s).2.length).toNat = (decodeBit b s).2.length := by
  have hone := decodeBit_length b s
  rw [BitVec.toNat_ofNat]
  exact Nat.mod_eq_of_lt (by omega)

/-! DBY as eight DBT. -/

@[simp] theorem decodeBit_flags (b : Bool) (s : State) : (decodeBit b s).1.flags = s.flags := by
  rw [decodeBit_frame]

@[simp] theorem decodeBit_sent (b : Bool) (s : State) : (decodeBit b s).1.sent = s.sent := by rw [decodeBit_frame]

@[simp] theorem decodeBits_sent (bits : List Bool) (s : State) : (decodeBits bits s).1.sent = s.sent := by
  rw [decodeBits_frame]

/-- DecodeBit neither reads nor writes what has been sent (assumption log 3). -/
theorem decodeBit_withSent (b : Bool) (s : State) (out : List Sent) :
    decodeBit b { s with sent := out } = ({ (decodeBit b s).1 with sent := out }, (decodeBit b s).2) := by
  by_cases hdone : s.emitted = s.total
  · rw [decodeBit_done hdone, decodeBit_done (s := { s with sent := out }) hdone]
  · cases hleaf : (s.nodeAt ((s.nodeAt s.cur).child b)).isLeaf with
    | true =>
      obtain ⟨a, ha⟩ := isLeaf_eq_true_iff.mp hleaf
      rw [decodeBit_of_leaf hdone ha, decodeBit_of_leaf (s := { s with sent := out }) hdone ha]
    | false =>
      rw [decodeBit_of_internal hdone hleaf, decodeBit_of_internal (s := { s with sent := out }) hdone hleaf]
      rfl

theorem decodeBits_withSent (bits : List Bool) (s : State) (out : List Sent) :
    decodeBits bits { s with sent := out } = ({ (decodeBits bits s).1 with sent := out }, (decodeBits bits s).2) := by
  induction bits generalizing s with
  | nil => rfl
  | cons b rest ih => simp only [decodeBits, decodeBit_withSent, ih]

/-- DBT for each of a sequence of bits reaches the state their decoding gives, sends the same bytes in order, and its
responses' data add up to the number of them (R234). -/
theorem dbtTimes_eq_decodeBits (bits : List Bool) {s : State} (her : s.flags.er = false) (hds : s.flags.ds = true) :
    ∃ news, dbtTimes bits s = some { (decodeBits bits s).1 with sent := s.sent ++ news } ∧
      outBytes news = (decodeBits bits s).2 ∧
      ((responses news).map (fun r => r.data.toNat)).sum = (decodeBits bits s).2.length := by
  induction bits generalizing s with
  | nil => exact ⟨[], by simp [dbtTimes, decodeBits], rfl, rfl⟩
  | cons b rest ih =>
    have hflags : (decodeBit b s).1.flags = s.flags := decodeBit_flags b s
    obtain ⟨news, hrun, hbytes, hsum⟩ := ih
      (s := (decodeBit b s).1.answered (decodeBit b s).2 .ok (BitVec.ofNat 72 (decodeBit b s).2.length))
      (hflags ▸ her) (hflags ▸ hds)
    rw [State.answered, decodeBits_withSent] at hrun hbytes hsum
    refine ⟨(decodeBit b s).2.map Sent.byte ++ .rsp ⟨.ok, BitVec.ofNat 72 (decodeBit b s).2.length⟩ :: news,
      (dbtTimes_cons (exec_dbt her hds)).trans (hrun.trans ?_), ?_, ?_⟩
    · simp [decodeBits]
    · simp [decodeBits, hbytes]
    · simp [decodeBits, hsum, decodeBit_length_toNat, -BitVec.toNat_ofNat]

/-- Settles O44: the bits of DBY are decoded in the order of the eight DBT, whose data count the bytes. -/
theorem dbyIsEightDbt : Obligations.DbyIsEightDbt := by
  intro a s her
  refine ⟨assemble_operand (by decide) 0x52 a, fun hds => exec_out_of_sequence her rfl hds, fun hds => ?_⟩
  obtain ⟨news, hrun, hbytes, hsum⟩ := dbtTimes_eq_decodeBits (byteBits a) her hds
  refine ⟨_, news, hrun, rfl, ?_⟩
  rw [exec_dby her hds, State.answered, decodeBits_sent, hbytes, hsum]

/-! DST, DBT and DEN. -/

/-- Settles O42: the phase is a finished build. -/
theorem dstStartsTheDecoder : Obligations.DstStartsTheDecoder := fun _ her =>
  ⟨by decide, fun htv => exec_out_of_sequence her rfl htv,
    fun htv => exec_of_passes (i := .dst) (passes_of_phase her rfl htv) rfl⟩

/-- Settles O43: while a symbol is missing EMITTED is below TOTAL, so counting it needs no more than WW bits. -/
theorem dbtTakesOneEdge : Obligations.DbtTakesOneEdge := by
  intro b s her
  refine ⟨by cases b <;> decide, fun hds => exec_out_of_sequence her rfl hds, fun hds hle hfit =>
    ⟨exec_dbt_done her hds, fun hne => ⟨fun a hleaf => ?_, fun hinner => ?_⟩⟩⟩
  · have hlt : s.emitted.toNat < s.total.toNat := Nat.lt_of_le_of_ne hle (mt BitVec.eq_of_toNat_eq hne)
    rw [exec_dbt her hds, decodeBit_of_leaf hne hleaf, narrowWeight_emitted hlt hfit]
    rfl
  · rw [exec_dbt her hds, decodeBit_of_internal hne hinner]
    rfl

/-- Settles O45: the phase is a started decoder, and the count is checked before DS is cleared. -/
theorem denChecksTheCount : Obligations.DenChecksTheCount := by
  intro s her
  refine ⟨by decide, fun hds => exec_out_of_sequence her rfl hds, fun hds => ?_⟩
  have hp : passes .den s := passes_of_phase her rfl hds
  exact ⟨fun hne => exec_fault_of_passes hp (denEffect_of_missing hne),
    fun heq => exec_of_passes hp (denEffect_of_complete heq)⟩

/-- Settles O46: a bit that comes after the last symbol changes nothing, so eight do not either. -/
theorem decoderIgnoresPadding : Obligations.DecoderIgnoresPadding := fun _ her hds hdone =>
  ⟨fun _ => exec_dbt_done her hds hdone, fun _ => exec_dby_done her hds hdone⟩

end Sys2Proof.Machine
end

section
/-! SUPPORT. The container (spec/46_container_and_host.md rules R250, R251, R257): a counter of CW bits is the bytes it is
written as, in either byte order, and every counter is written as the same number of bytes, so they are read back in
turn. -/

namespace Sys2Proof.Machine

/-! The size of a counter. -/

theorem eight_mul_bytes_of_counter (cw : CounterWidth) : 8 * (cw.bits / 8) = cw.bits := by cases cw <;> rfl

/-- HB in the words of R250. -/
theorem headerSize_eq (cw : CounterWidth) : headerSize cw = 256 * cw.bits / 8 := by cases cw <;> rfl

@[simp] theorem length_counterBytes (cw : CounterWidth) (order : ByteOrder) (c : Count) :
    (counterBytes cw order c).length = cw.bits / 8 := by
  cases order <;> simp [counterBytes]

/-! One counter. -/

/-- The value above its lowest byte, shifted back up, and that byte are the value. -/
theorem shiftLeft_ushiftRight_or_low_byte (c : Count) : ((c >>> 8) <<< 8) ||| (c.extractLsb' 0 8).setWidth 64 = c := by
  ext i hi
  by_cases h : i < 8
  · simp [h, BitVec.getLsbD_eq_getElem hi]
  · simp [h, show 8 + (i - 8) = i by omega, BitVec.getLsbD_eq_getElem hi]

/-- Bytes taken from the lowest up give a value back that they have room for. -/
theorem countOfLittle_low_bytes (n : Nat) : ∀ c : Count, c.toNat < 2 ^ (8 * n) →
    countOfLittle ((List.range n).map (fun j => c.extractLsb' (8 * j) 8)) = c := by
  induction n with
  | zero =>
    intro c h
    exact (BitVec.eq_of_toNat_eq (by simpa [countOfLittle] using h)).symm
  | succ n ih =>
    intro c h
    have hrest : ∀ j, c.extractLsb' (8 * (j + 1)) 8 = (c >>> 8).extractLsb' (8 * j) 8 := fun j => by
      ext i hi
      simp [show 8 * (j + 1) + i = 8 + (8 * j + i) by omega]
    have hlt : (c >>> 8).toNat < 2 ^ (8 * n) := by
      rw [BitVec.toNat_ushiftRight, Nat.shiftRight_eq_div_pow]
      exact Nat.div_lt_of_lt_mul (by rwa [← Nat.pow_add, Nat.add_comm, ← Nat.mul_succ])
    rw [List.range_succ_eq_map, List.map_cons, List.map_map]
    simp only [countOfLittle, Function.comp_def, Nat.succ_eq_add_one, hrest, ih _ hlt]
    exact shiftLeft_ushiftRight_or_low_byte c

/-- The two byte orders are each other's mirror image. -/
theorem counterBytes_big (cw : CounterWidth) (c : Count) :
    counterBytes cw .big c = (counterBytes cw .little c).reverse := by
  have hbits := eight_mul_bytes_of_counter cw
  refine List.ext_getElem (by simp) fun j hj _ => ?_
  rw [length_counterBytes] at hj
  have hpos : cw.bits - 8 - 8 * j = 8 * (cw.bits / 8 - 1 - j) := by omega
  simp [counterBytes, hpos]

/-- R251: a counter of CW bits is read back from its bytes. -/
theorem countOfBytes_counterBytes {cw : CounterWidth} (order : ByteOrder) {c : Count} (h : c.toNat < 2 ^ cw.bits) :
    countOfBytes order (counterBytes cw order c) = c := by
  have hlittle : countOfLittle (counterBytes cw .little c) = c :=
    countOfLittle_low_bytes _ c (by rwa [eight_mul_bytes_of_counter])
  cases order with
  | little => exact hlittle
  | big => rw [counterBytes_big, countOfBytes, List.reverse_reverse, hlittle]

/-! All counters. -/

theorem length_headerBytes (cw : CounterWidth) (order : ByteOrder) (counters : List Count) :
    (headerBytes cw order counters).length = counters.length * (cw.bits / 8) := by
  simp [headerBytes, List.length_flatMap]

/-- R250: the header of all 256 counters has HB bytes. -/
theorem length_headerBytes_of_all (cw : CounterWidth) (order : ByteOrder) {counters : List Count}
    (hlen : counters.length = 256) : (headerBytes cw order counters).length = headerSize cw := by
  rw [length_headerBytes, hlen, headerSize]

theorem headerBytes_cons (cw : CounterWidth) (order : ByteOrder) (c : Count) (counters : List Count) :
    headerBytes cw order (c :: counters) = counterBytes cw order c ++ headerBytes cw order counters :=
  List.flatMap_cons

/-- Counters of CW bits are read back from a header, whatever follows it. -/
theorem readCounters_headerBytes_append (cw : CounterWidth) (order : ByteOrder) (payload : List Byte)
    (counters : List Count) (h : ∀ c ∈ counters, c.toNat < 2 ^ cw.bits) :
    readCounters cw order counters.length (headerBytes cw order counters ++ payload) = counters := by
  induction counters with
  | nil => rfl
  | cons c counters ih =>
    obtain ⟨hc, hrest⟩ := List.forall_mem_cons.mp h
    have hlen := length_counterBytes cw order c
    rw [headerBytes_cons, List.append_assoc, List.length_cons, readCounters, List.take_left' hlen,
      List.drop_left' hlen, countOfBytes_counterBytes order hc, ih hrest]

/-! The container. -/

theorem splitContainer_of_short {cw : CounterWidth} {bytes : List Byte} (order : ByteOrder)
    (h : bytes.length < headerSize cw) : splitContainer cw order bytes = none := if_pos h

theorem splitContainer_containerBytes {cw : CounterWidth} (order : ByteOrder) {counters : List Count}
    (payload : List Byte) (hlen : counters.length = 256) (h : ∀ c ∈ counters, c.toNat < 2 ^ cw.bits) :
    splitContainer cw order (containerBytes cw order counters payload) = some (counters, payload) := by
  have hheader := length_headerBytes_of_all cw order hlen
  have hread := readCounters_headerBytes_append cw order payload counters h
  rw [hlen] at hread
  rw [splitContainer, containerBytes, if_neg (by simp [hheader]), hread, List.drop_left' hheader]

/-- Settles O60: a counter is read back from its bytes in either order, and the header ends where the payload begins. -/
theorem containerSplitsBack : Obligations.ContainerSplitsBack := by
  intro cw order counters payload
  rw [← headerSize_eq]
  exact ⟨fun hlen hfit => ⟨length_headerBytes_of_all cw order hlen,
    splitContainer_containerBytes order payload hlen hfit⟩, splitContainer_of_short order⟩

end Sys2Proof.Machine
end

section
/-! SUPPORT. The faults and the sequencer's moves: a fault over the state from before the command, the faulted engine,
the phase checks (spec/60_exceptions.md rules R272, R284 to R286) and the moves that are no command
(spec/70_reset_and_hazards.md rules R293, R310). -/

namespace Sys2Proof.Machine

/-! Faults. -/

/-- No command's own part latches a fault: CLR clears ER and the others leave it (R283, R286). -/
theorem writes_unfaulted {i : Instr} {s t : State} (h : Writes i s t) (her : s.flags.er = false) :
    t.flags.er = false := by
  by_cases hi : i = .clr
  · subst hi
    rcases writes_clr h with rfl | rfl
    · exact her
    · rfl
  · obtain ⟨hkept, -⟩ := writes_frame h hi
    exact hkept.trans her

/-- An engine without a fault ends a command by a fault taken for the command's word, or by its own part's response. -/
theorem exec_next_of_unfaulted {i : Instr} {s t : State} (her : s.flags.er = false) (h : exec i s = .next t) :
    (∃ c, t = s.faulted c (encodeWord i)) ∨ ∃ u bytes st data, Writes i s u ∧ t = u.answered bytes st data := by
  rw [exec_eq_command] at h
  rcases command_cases i (effectOf i) s with ⟨hs, -, -⟩ | ⟨-, -, hc⟩ | ⟨-, -, -, hc⟩ | ⟨-, hc⟩
  · exact absurd (her.symm.trans hs) Bool.false_ne_true
  · exact .inl ⟨.ill, by cases hc.symm.trans h; rfl⟩
  · exact .inl ⟨.seq, by cases hc.symm.trans h; rfl⟩
  · rcases conclude_next (hc.symm.trans h) with ⟨d, hd, ht⟩ | ⟨c, -, ht⟩
    · exact .inr ⟨d.state, d.bytes, d.st, d.data, effectOf_writes hd, ht⟩
    · exact .inl ⟨c, ht⟩

/-- Settles O13: a response leaves ER at 0, so a command that ends with ER = 1 has taken a fault. -/
theorem faultsArePrecise : Obligations.FaultsArePrecise := by
  intro i s t her h hlatched
  rcases exec_next_of_unfaulted her h with hfault | ⟨u, bytes, st, data, hw, rfl⟩
  · exact hfault
  · exact absurd ((writes_unfaulted hw her).symm.trans hlatched) Bool.false_ne_true

/-- The faulted engine answers every command but CLR over the state as it was (R285). -/
theorem exec_of_faulted {i : Instr} {s : State} (her : s.flags.er = true) (hi : i ≠ .clr) :
    ∃ st data, exec i s = .next (s.answered [] st data) := by
  obtain ⟨hrefused, hread, hnop, -⟩ := faultedEngineAccepts i s her
  by_cases hn : i = .nop
  · exact ⟨.ok, 0, hn ▸ hnop⟩
  · cases hr : readCommand i with
    | true =>
      obtain ⟨st, data, -, h⟩ := hread hr
      exact ⟨st, data, h⟩
    | false => exact ⟨.faulted, 0, hrefused hn hi hr⟩

/-- Settles O14: a refusal, NOP and a read each only send their response. -/
theorem faultedStateLeftOnlyByClr : Obligations.FaultedStateLeftOnlyByClr := by
  intro i s t her hi h
  obtain ⟨st, data, hanswer⟩ := exec_of_faulted her hi
  cases hanswer.symm.trans h
  exact ⟨⟨st, data⟩, rfl⟩

/-! The phase table. -/

theorem phaseOk_mrg_eq_false_iff {s : State} :
    phaseOk .mrg s = false ↔ s.flags.ql = false ∨ s.flags.tv = true := by
  simp [phaseOk, or_iff_not_imp_left]

/-- Settles O12, by the line of the phase table that each command has. -/
theorem outOfSequenceFaults : Obligations.OutOfSequenceFaults := by
  intro s her
  refine ⟨fun hfrozen => ?table, fun htv => ?queue, fun hclosed => ?merge, fun hclosed => ?finish, fun htv => ?tree,
    fun hcv => ?codes, fun hds => ?decoder⟩
  case table =>
    have hclosed := tableOpen_eq_false_iff.mpr hfrozen
    exact ⟨fun _ _ => exec_out_of_sequence her rfl hclosed, fun _ => exec_out_of_sequence her rfl hclosed,
      exec_out_of_sequence her rfl hclosed, exec_out_of_sequence her rfl hclosed⟩
  case queue =>
    have hclosed : (!s.flags.tv) = false := congrArg not htv
    exact ⟨fun _ => exec_out_of_sequence her rfl hclosed, exec_out_of_sequence her rfl hclosed⟩
  case merge => exact exec_out_of_sequence her rfl (phaseOk_mrg_eq_false_iff.mpr hclosed)
  case finish => exact exec_out_of_sequence her rfl (finishOpen_eq_false_iff.mpr hclosed)
  case tree => exact ⟨exec_out_of_sequence her rfl htv, exec_out_of_sequence her rfl htv⟩
  case codes => exact ⟨fun _ => exec_out_of_sequence her rfl hcv, exec_out_of_sequence her rfl hcv⟩
  case decoder =>
    exact ⟨fun _ => exec_out_of_sequence her rfl hds, fun _ => exec_out_of_sequence her rfl hds,
      exec_out_of_sequence her rfl hds⟩

/-! The moves that are no command. -/

/-- Settles O7: a reset leaves what CLR leaves, without a response. -/
theorem idleAndResetMoves : Obligations.IdleAndResetMoves := fun _ => ⟨step_idle, fun _ => step_reset⟩

end Sys2Proof.Machine
end
